-- ==== Sys2Proof/Word.lean ====
section
/-! DEFINITION. The word types of HUFFCORE and the shape of its three tables (spec 00_scope.md R10, 20_memory.md R70). -/

namespace Sys2Proof

/-- A 32-bit word: a command word (R100), a counter or weight (`CNT_W`, R6), or an `RSP` item (R51). -/
abbrev Word := BitVec 32

/-- An 8-bit byte: a symbol (R7), a payload byte, or an `OBYTES` item (R51). -/
abbrev Byte := BitVec 8

/-- A bit sequence (R10): finite, with a first element, and not a number. -/
abbrev Bits := List Bool

/-- A table indexed by entry number (R70), held as the list of its entries that differ from the entry's reset
value, by strictly rising index. An index that is not listed reads as the reset value. -/
abbrev Table (α : Type) := List (Nat × α)

end Sys2Proof
end

