-- ==== Sys2Proof/Config.lean ====
section
/-! DEFINITION. The constants of this hardware (spec 00_scope.md R6) and the names of its faults (60_exceptions.md R250).
The spec leaves no value open (93_implementation_defined.md), so there is no free value here. -/

namespace Sys2Proof

/-- `NSYM`: the number of distinct symbols (R6). -/
abbrev Config.nsym : Nat := 256

/-- `NODE_MAX`: the number of tree node slots, `2*NSYM - 1` (R6). -/
abbrev Config.nodeMax : Nat := 511

/-- `MAXLEN`: the greatest code length in bits (R6). -/
abbrev Config.maxLen : Nat := 255

/-- `HB_CAP`: the capacity of the unpacker's hold-back FIFO in bits (R6). -/
abbrev Config.hbCap : Nat := 263

/-- `CNT_MAX`: the largest count, `2^32 - 1` (R6). -/
abbrev Config.cntMax : Word := 0xFFFFFFFF#32

/-- `ID`: the identification word (R2, R6). -/
abbrev Config.id : Word := 0x48554607#32

/-- The twelve fault causes of R250, by the spec's names. -/
inductive FaultCode where
  /-- `E_ILLCMD`: the opcode is not one of the 23. -/
  | illCmd
  /-- `E_ILLARG`: a reserved operand bit is 1, or an operand is out of range. -/
  | illArg
  /-- `E_SEQ`: the command is not legal in the unit's present state. -/
  | seq
  /-- `E_FOVF`: the input length would exceed `CNT_MAX`. -/
  | fovf
  /-- `E_NOTREE`: `WALK` on an incomplete tree. -/
  | noTree
  /-- `E_CODELEN`: the staged code would exceed 255 bits. -/
  | codeLen
  /-- `E_EMPTYCODE`: `CSET` with an empty staged code. -/
  | emptyCode
  /-- `E_DUP`: `CSET` of a symbol that has a code, or of a code some symbol has. -/
  | dup
  /-- `E_NOCODE`: `ENC` of a symbol that has no code. -/
  | noCode
  /-- `E_PADMIS`: at `PEND` the announced pad count does not fit the bits packed. -/
  | padMis
  /-- `E_MALFORMED`: at `UEND` the payload is empty or shorter than its pad count. -/
  | malformed
  /-- `E_UNKCODE`: at `UEND` the decoder holds unmatched bits. -/
  | unkCode
  deriving DecidableEq, Repr

end Sys2Proof
end

