-- ==== Sys2Proof/Machine/Operands.lean ====
section
/-! DEFINITION. Operand forms: bit sequences, the numbers they stand for, and the symbols (spec 00_scope.md R10,
20_memory.md R73, 30_encoding.md R102, R103). -/

namespace Sys2Proof.Machine

/-- `val(s)`: the unsigned integer whose binary numeral, most significant digit first, is `s` (R10). -/
def bitsVal (s : Bits) : Nat := s.foldl (fun n b => 2 * n + b.toNat) 0

/-- `byte(s)`: the earliest bit is the most significant (R10, R73). -/
def byteOf (s : Bits) : Byte := BitVec.ofNat 8 (bitsVal s)

/-- The `k` low bits of a number, most significant first. -/
def lowBits (k n : Nat) : Bits := (List.range k).reverse.map fun j => n.testBit j

/-- `bits8(b)`: the byte's bits, bit 7 first (R10, R73). -/
def bits8 (b : Byte) : Bits := lowBits 8 b.toNat

/-- The sequence a format `B` word carries: `[cw[k-1], ..., cw[0]]` (R103). -/
def seqOf (k : BitVec 5) (bits : BitVec 16) : Bits := lowBits k.toNat bits.toNat

/-- `0^p`: the sequence of `p` zero bits (R10). -/
def zeroBits (p : Nat) : Bits := List.replicate p false

/-- The symbols 0..255 in ascending order (R6, R7). -/
def allSymbols : List Byte := (List.range Config.nsym).map (BitVec.ofNat 8)

/-- A length as a register or `RSP` value: `zext_32` (R54). -/
def lengthWord (s : Bits) : Word := BitVec.ofNat 32 s.length

end Sys2Proof.Machine
end

