-- ==== Sys2Proof/Syntax.lean ====
section
/-! DEFINITION. The 23 commands of HUFFCORE (spec 30_encoding.md R104), one constructor per row of opcode_table.json.
An operand is the field of the command word as it stands (R102). -/

namespace Sys2Proof

/-- A command, the block's instruction (R14), with its operand fields. -/
inductive Instr where
  /-- `NOP`, R241. -/
  | nop
  /-- `RST`, R242. -/
  | rst
  /-- `RD r`, R243: `r` is a register number. -/
  | rd (r : Byte)
  /-- `FCLR`, R131. -/
  | fclr
  /-- `FACC s`, R132: `s` is a symbol. -/
  | facc (sym : Byte)
  /-- `FRD s`, R133: `s` is a symbol. -/
  | frd (sym : Byte)
  /-- `TLOAD`, R141. -/
  | tload
  /-- `TMERGE`, R143. -/
  | tmerge
  /-- `BUILD`, R144. -/
  | build
  /-- `NRD i`, R148: `i` is a node index. -/
  | nrd (idx : BitVec 9)
  /-- `WALK`, R161. -/
  | walk
  /-- `CCLR`, R165. -/
  | cclr
  /-- `CLDB "d..."`, R166: the two fields of format `B`, R103. -/
  | cldb (k : BitVec 5) (bits : BitVec 16)
  /-- `CSET s`, R167: `s` is a symbol. -/
  | cset (sym : Byte)
  /-- `CRD s`, R169: `s` is a symbol. -/
  | crd (sym : Byte)
  /-- `PBEGT`, R182. -/
  | pbegt
  /-- `PBEGI i`, R183: `i` is a bit count modulo 8. -/
  | pbegi (imm3 : BitVec 3)
  /-- `ENC s`, R184: `s` is a symbol. -/
  | enc (sym : Byte)
  /-- `PBITS "d..."`, R185: the two fields of format `B`, R103. -/
  | pbits (k : BitVec 5) (bits : BitVec 16)
  /-- `PEND`, R186. -/
  | pend
  /-- `UBEGIN m`, R201: `m` is the unpacker mode, 0 decode, 1 raw. -/
  | ubegin (m : BitVec 1)
  /-- `UBYTE b`, R202: `b` is a payload byte. -/
  | ubyte (b : Byte)
  /-- `UEND`, R206. -/
  | uend
  deriving DecidableEq, Repr

end Sys2Proof
end

