-- ==== Sys2Proof/WellFormed.lean ====
section
/-! DEFINITION. Which terms of `Instr` a command word can stand for: the two conditions of format `B` (spec 30_encoding.md
R103). Every other operand field is legal at every value as far as its encoding goes (R102). -/

namespace Sys2Proof

/-- R103: `k` is at most 16. -/
def countFits (k : BitVec 5) : Bool := decide (k.toNat ≤ 16)

/-- R103: no bit of `bits` at or above position `k` is 1. -/
def noStrayBits (k : BitVec 5) (bits : BitVec 16) : Bool := decide (bits.toNat < 2 ^ k.toNat)

/-- The operands are ones a command word can carry without a reserved-bit fault. -/
def Instr.wellFormed : Instr → Bool
  | .cldb k bits => countFits k && noStrayBits k bits
  | .pbits k bits => countFits k && noStrayBits k bits
  | .nop => true
  | .rst => true
  | .rd _ => true
  | .fclr => true
  | .facc _ => true
  | .frd _ => true
  | .tload => true
  | .tmerge => true
  | .build => true
  | .nrd _ => true
  | .walk => true
  | .cclr => true
  | .cset _ => true
  | .crd _ => true
  | .pbegt => true
  | .pbegi _ => true
  | .enc _ => true
  | .pend => true
  | .ubegin _ => true
  | .ubyte _ => true
  | .uend => true

end Sys2Proof
end

