-- ==== Sys2Proof/Decode.lean ====
section
/-! DEFINITION. Decoding a command word (spec 30_encoding.md R100 to R107), total on all 2^32 words and rejecting by the
fault's name, and after it the encoder, written from the same tables. -/

namespace Sys2Proof

/-- R100: the opcode, bits 31:24. -/
def opcodeOf (cw : Word) : Byte := cw.extractLsb' 24 8

/-- R103: the two conditions of format `B`, as the decoder and the commands `CLDB` and `PBITS` test them. -/
def seqFieldOk (k : BitVec 5) (bits : BitVec 16) : Bool :=
  decide (k.toNat ≤ 16) && decide (bits.toNat < 2 ^ k.toNat)

/-- Format `Z` (R101): bits 23:0 are reserved. -/
def decodeZ (i : Instr) (cw : Word) : Except FaultCode Instr :=
  if cw.extractLsb' 0 24 = 0#24 then .ok i else .error .illArg

/-- Format `S` (R101): bits 23:8 are reserved, `v8` is bits 7:0. -/
def decodeS (mk : Byte → Instr) (cw : Word) : Except FaultCode Instr :=
  if cw.extractLsb' 8 16 = 0#16 then .ok (mk (cw.extractLsb' 0 8)) else .error .illArg

/-- Format `N` (R101): bits 23:9 are reserved, `idx` is bits 8:0. -/
def decodeN (mk : BitVec 9 → Instr) (cw : Word) : Except FaultCode Instr :=
  if cw.extractLsb' 9 15 = 0#15 then .ok (mk (cw.extractLsb' 0 9)) else .error .illArg

/-- Format `B` (R101, R103): bits 23:21 are reserved, `k` is bits 20:16, `bits` is bits 15:0. -/
def decodeB (mk : BitVec 5 → BitVec 16 → Instr) (cw : Word) : Except FaultCode Instr :=
  if cw.extractLsb' 21 3 = 0#3 ∧ seqFieldOk (cw.extractLsb' 16 5) (cw.extractLsb' 0 16) = true then
    .ok (mk (cw.extractLsb' 16 5) (cw.extractLsb' 0 16))
  else .error .illArg

/-- Format `I` (R101): bits 23:3 are reserved, `imm3` is bits 2:0. -/
def decodeI (mk : BitVec 3 → Instr) (cw : Word) : Except FaultCode Instr :=
  if cw.extractLsb' 3 21 = 0#21 then .ok (mk (cw.extractLsb' 0 3)) else .error .illArg

/-- Format `M` (R101): bits 23:1 are reserved, `m` is bit 0. -/
def decodeM (mk : BitVec 1 → Instr) (cw : Word) : Except FaultCode Instr :=
  if cw.extractLsb' 1 23 = 0#23 then .ok (mk (cw.extractLsb' 0 1)) else .error .illArg

/-- R105: the opcode selects the row of R104 or the word is `E_ILLCMD`; then the row's format reads the operand or
rejects it as `E_ILLARG`. No state of the block is looked at. -/
def decodeWord (cw : Word) : Except FaultCode Instr :=
  match opcodeOf cw with
  | 0x00#8 => decodeZ .nop cw
  | 0x01#8 => decodeZ .rst cw
  | 0x02#8 => decodeS .rd cw
  | 0x10#8 => decodeZ .fclr cw
  | 0x11#8 => decodeS .facc cw
  | 0x12#8 => decodeS .frd cw
  | 0x20#8 => decodeZ .tload cw
  | 0x21#8 => decodeZ .tmerge cw
  | 0x22#8 => decodeZ .build cw
  | 0x23#8 => decodeN .nrd cw
  | 0x30#8 => decodeZ .walk cw
  | 0x31#8 => decodeZ .cclr cw
  | 0x32#8 => decodeB .cldb cw
  | 0x33#8 => decodeS .cset cw
  | 0x34#8 => decodeS .crd cw
  | 0x40#8 => decodeZ .pbegt cw
  | 0x41#8 => decodeI .pbegi cw
  | 0x42#8 => decodeS .enc cw
  | 0x43#8 => decodeB .pbits cw
  | 0x44#8 => decodeZ .pend cw
  | 0x50#8 => decodeM .ubegin cw
  | 0x51#8 => decodeS .ubyte cw
  | 0x52#8 => decodeZ .uend cw
  | _ => .error .illCmd

/-- R104: the opcode of a command. -/
def opcodeFor : Instr → Byte
  | .nop => 0x00#8
  | .rst => 0x01#8
  | .rd _ => 0x02#8
  | .fclr => 0x10#8
  | .facc _ => 0x11#8
  | .frd _ => 0x12#8
  | .tload => 0x20#8
  | .tmerge => 0x21#8
  | .build => 0x22#8
  | .nrd _ => 0x23#8
  | .walk => 0x30#8
  | .cclr => 0x31#8
  | .cldb _ _ => 0x32#8
  | .cset _ => 0x33#8
  | .crd _ => 0x34#8
  | .pbegt => 0x40#8
  | .pbegi _ => 0x41#8
  | .enc _ => 0x42#8
  | .pbits _ _ => 0x43#8
  | .pend => 0x44#8
  | .ubegin _ => 0x50#8
  | .ubyte _ => 0x51#8
  | .uend => 0x52#8

/-- R101: the operand field `arg`, bits 23:0, of a command, its reserved bits 0. -/
def operandFor : Instr → BitVec 24
  | .rd v => v.setWidth 24
  | .facc v => v.setWidth 24
  | .frd v => v.setWidth 24
  | .cset v => v.setWidth 24
  | .crd v => v.setWidth 24
  | .enc v => v.setWidth 24
  | .ubyte v => v.setWidth 24
  | .nrd i => i.setWidth 24
  | .cldb k b => (k.setWidth 24 <<< 16) ||| b.setWidth 24
  | .pbits k b => (k.setWidth 24 <<< 16) ||| b.setWidth 24
  | .pbegi i => i.setWidth 24
  | .ubegin m => m.setWidth 24
  | .nop => 0#24
  | .rst => 0#24
  | .fclr => 0#24
  | .tload => 0#24
  | .tmerge => 0#24
  | .build => 0#24
  | .walk => 0#24
  | .cclr => 0#24
  | .pbegt => 0#24
  | .pend => 0#24
  | .uend => 0#24

/-- R100, R109: the command word `op << 24 | arg`. -/
def assemble (op : Byte) (arg : BitVec 24) : Word := (op.setWidth 32 <<< 24) ||| arg.setWidth 32

/-- The command word of a command (R109). -/
def encode (i : Instr) : Word := assemble (opcodeFor i) (operandFor i)

/-- The instruction the decoder reads from the word whose low `nbits` bits are `w`'s (every row of opcode_table.json has
one 32-bit word, R100), or none where the decoder rejects it. -/
def decodeTableWord (nbits w : Nat) : Option Instr :=
  match decodeWord (BitVec.ofNat 32 (w % 2 ^ nbits)) with
  | .ok i => some i
  | .error _ => none

end Sys2Proof
end

