-- ==== Sys2Proof/Machine/State.lean ====
section
/-! DEFINITION. The state of HUFFCORE (spec 10_state.md R21), its reset value (R58), and the reasons a step could stop. -/

namespace Sys2Proof.Machine

/-- A tree node record (R30). -/
structure Node where
  /-- 1 for a leaf, 0 for an internal node. -/
  leaf : Bool
  /-- the leaf's symbol; 0 in an internal node. -/
  sym : Byte
  /-- the leaf's frequency, or the sum of the children's weights. -/
  weight : Word
  /-- index of the left child; 0 in a leaf. -/
  left : BitVec 9
  /-- index of the right child; 0 in a leaf. -/
  right : BitVec 9
  deriving DecidableEq, Repr

/-- The zero record: all five fields 0 (R30). -/
def Node.zero : Node := { leaf := false, sym := 0#8, weight := 0#32, left := 0#9, right := 0#9 }

/-- The complete state (R21), and beside it the model's own `pending`. -/
structure State where
  /-- `ERR`, R23: 0, or the code of the first fault since reset. -/
  err : BitVec 8
  /-- `ERRCMD`, R24: the command word of that fault. -/
  errCmd : Word
  /-- `ERRIDX`, R25: the index of that command. -/
  errIdx : Word
  /-- `CMDCNT`, R26: the number of command words executed since reset. -/
  cmdCnt : Word
  /-- `FT[0..255]`, R27: the counters; an unlisted one is 0. -/
  ft : Table Word
  /-- `TOTAL`, R28: the number of symbols accumulated. -/
  total : Word
  /-- `NODE[0..510]`, R30: the node records; an unlisted one is the zero record. -/
  nodes : Table Node
  /-- `INQ[0..510]`, R31: membership of the priority queue; an unlisted one is 0. -/
  inq : Table Bool
  /-- `NNODE`, R32: the number of node slots in use. -/
  nnode : BitVec 10
  /-- `NLEAF`, R33: the number of leaves. -/
  nleaf : BitVec 9
  /-- `QCNT`, R34: the number of queue members. -/
  qcnt : BitVec 9
  /-- `CT[0..255]`, R37: the codes, root edge first; an unlisted one is empty. -/
  ct : Table Bits
  /-- `NCODE`, R38: the number of symbols with a code. -/
  ncode : BitVec 9
  /-- `CSTG`, R39: the code staging register. -/
  cstg : Bits
  /-- `PACT`, R41: a packing run is open. -/
  pact : Bool
  /-- `PADN`, R42: the pad count of the current or last packing run. -/
  padn : BitVec 4
  /-- `ACC`, R43: the packed bits that do not yet fill a byte, oldest first. -/
  acc : Bits
  /-- `UACT`, R44: an unpacking run is open. -/
  uact : Bool
  /-- `UMODE`, R45: 0 decode, 1 raw. -/
  umode : Bool
  /-- `UHDR`, R46: the pad-count byte has been received. -/
  uhdr : Bool
  /-- `UPADN`, R47: the pad count read from the payload. -/
  upadn : BitVec 8
  /-- `HB`, R48: the hold-back FIFO, oldest bit first. -/
  hb : Bits
  /-- `CAND`, R49: the decoder's candidate, oldest bit first. -/
  cand : Bits
  /-- `CANDOVF`, R50: a bit was released while `CAND` held 255 unmatched bits. -/
  candOvf : Bool
  /-- `OBYTES`, R51: the bytes emitted since reset, oldest first. -/
  obytes : List Byte
  /-- `OSYMS`, R51: the symbols emitted since reset, oldest first. -/
  osyms : List Byte
  /-- `OBITS`, R51: the raw bits emitted since reset, oldest first. -/
  obits : Bits
  /-- `RSP`, R51: the response words emitted since reset, oldest first. -/
  rsp : List Word
  /-- The model's own: the command words the host has presented on the command port and the block has not yet taken,
  oldest first (R22, R56; log entry 1). -/
  pending : List Word
  deriving DecidableEq, Repr

/-- R58: every element at its reset value; nothing waits on the command port. -/
def State.reset : State where
  err := 0#8
  errCmd := 0#32
  errIdx := 0#32
  cmdCnt := 0#32
  ft := []
  total := 0#32
  nodes := []
  inq := []
  nnode := 0#10
  nleaf := 0#9
  qcnt := 0#9
  ct := []
  ncode := 0#9
  cstg := []
  pact := false
  padn := 0#4
  acc := []
  uact := false
  umode := false
  uhdr := false
  upadn := 0#8
  hb := []
  cand := []
  candOvf := false
  obytes := []
  osyms := []
  obits := []
  rsp := []
  pending := []

/-- The reasons the machine could stop. There are none: a fault of HUFFCORE is a next state in which the fault registers
are written (R12, R256), and every command word has a defined outcome in every state (93_implementation_defined.md). -/
inductive Fault
  deriving DecidableEq, Repr

/-- The reasons the model could refuse an instruction. -/
inductive Refusal where
  /-- Raised by an arm of `exec` for an instruction with no meaning yet; safe. No arm raises it in this model. -/
  | notModelled (mnemonic : String)
  deriving DecidableEq, Repr

end Sys2Proof.Machine
end

