-- ==== Sys2Proof/Machine/Table.lean ====
section
/-! DEFINITION. Reading and writing a table by entry number (spec 20_memory.md R70, R78), and its one canonical form. -/

namespace Sys2Proof

/-- `T[i]`: the entry listed for `i`, or the reset value `d` where none is listed. -/
def Table.read {α : Type} (d : α) : Table α → Nat → α
  | [], _ => d
  | (j, v) :: rest, i => if i = j then v else Table.read d rest i

/-- The table without an entry for `i`. -/
def Table.erase {α : Type} (t : Table α) (i : Nat) : Table α := t.filter fun e => e.1 != i

/-- The table with an entry for `i` put before the first larger index. -/
def Table.insert {α : Type} (i : Nat) (v : α) : Table α → Table α
  | [] => [(i, v)]
  | (j, w) :: rest => if i < j then (i, v) :: (j, w) :: rest else (j, w) :: Table.insert i v rest

/-- `T[i] <- v`. Writing the reset value takes the entry out, so that equal tables are equal data. -/
def Table.write {α : Type} [DecidableEq α] (d : α) (t : Table α) (i : Nat) (v : α) : Table α :=
  if v = d then Table.erase t i else Table.insert i v (Table.erase t i)

/-- The indices of `t` rise strictly. -/
def Table.rising {α : Type} : Table α → Bool
  | [] => true
  | (i, _) :: rest => rest.all (fun e => decide (i < e.1)) && Table.rising rest

/-- The canonical form of a table of `n` entries: indices below `n`, strictly rising, and no entry at the reset value. -/
def Table.canonical {α : Type} [DecidableEq α] (d : α) (n : Nat) (t : Table α) : Bool :=
  Table.rising t && t.all fun e => decide (e.1 < n) && decide (e.2 ≠ d)

end Sys2Proof
end

