-- ==== Sys2Proof/Machine/Ops.lean ====
section
/-! DEFINITION. The named operations over the state: table entries, streams, reset, fault entry (spec 60_exceptions.md
R256), and what surrounds every command (R26, R255, R257). -/

namespace Sys2Proof.Machine

/-- `FT[s]` (R27). -/
def countOf (s : State) (sym : Byte) : Word := Table.read 0#32 s.ft sym.toNat

/-- `FT[s] <- v` (R27). -/
def setCount (s : State) (sym : Byte) (v : Word) : State := { s with ft := Table.write 0#32 s.ft sym.toNat v }

/-- `NODE[i]` (R30). -/
def nodeAt (s : State) (i : Nat) : Node := Table.read Node.zero s.nodes i

/-- `NODE[i] <- n` (R30); an index past slot 510 names no slot (R71), and nothing is written. -/
def setNode (s : State) (i : Nat) (n : Node) : State :=
  if i < Config.nodeMax then { s with nodes := Table.write Node.zero s.nodes i n } else s

/-- `INQ[i]` (R31). -/
def inQueue (s : State) (i : Nat) : Bool := Table.read false s.inq i

/-- `INQ[i] <- b` (R31); an index past slot 510 names no slot (R71), and nothing is written. -/
def setInQueue (s : State) (i : Nat) (b : Bool) : State :=
  if i < Config.nodeMax then { s with inq := Table.write false s.inq i b } else s

/-- `CT[s]` (R37). -/
def codeOf (s : State) (sym : Byte) : Bits := Table.read [] s.ct sym.toNat

/-- `CT[s] <- c` (R37). -/
def setCode (s : State) (sym : Byte) (c : Bits) : State := { s with ct := Table.write [] s.ct sym.toNat c }

/-- The four tables are in their canonical form. -/
def Memory.wf (s : State) : Bool :=
  Table.canonical 0#32 Config.nsym s.ft && Table.canonical Node.zero Config.nodeMax s.nodes &&
    Table.canonical false Config.nodeMax s.inq && Table.canonical [] Config.nsym s.ct

/-- `emit(OBYTES, v)` for each item in order (R11, R51). -/
def emitBytes (s : State) (v : List Byte) : State := { s with obytes := s.obytes ++ v }

/-- `emit(OSYMS, v)` (R11, R51). -/
def emitSym (s : State) (v : Byte) : State := { s with osyms := s.osyms ++ [v] }

/-- `emit(OBITS, v)` (R11, R51). -/
def emitBit (s : State) (v : Bool) : State := { s with obits := s.obits ++ [v] }

/-- `emit(RSP, v)` for each item in order (R11, R51). -/
def emitRsp (s : State) (v : List Word) : State := { s with rsp := s.rsp ++ v }

/-- Reset, by the pin or by `RST` (R58, R280, R281). What the host has presented and the block has not taken is the
host's, not state of the block (R9), and stays. -/
def resetBlock (s : State) : State := { State.reset with pending := s.pending }

/-- The code of a fault (R250). -/
def faultNumber : FaultCode → BitVec 8
  | .illCmd => 0x01#8
  | .illArg => 0x02#8
  | .seq => 0x03#8
  | .fovf => 0x04#8
  | .noTree => 0x05#8
  | .codeLen => 0x06#8
  | .emptyCode => 0x07#8
  | .dup => 0x08#8
  | .noCode => 0x09#8
  | .padMis => 0x0A#8
  | .malformed => 0x0B#8
  | .unkCode => 0x0C#8

/-- `raise E(cw)`, the fault entry of R256: the first fault since reset is recorded, a later one is not. -/
def takeFault (e : FaultCode) (cw : Word) (s : State) : State :=
  if s.err = 0#8 then { s with err := faultNumber e, errCmd := cw, errIdx := s.cmdCnt } else s

/-- `CMDCNT <- (CMDCNT + 1) mod 2^32` (R26). -/
def countCommand (s : State) : State := { s with cmdCnt := s.cmdCnt + 1#32 }

/-- The end of a command whose rule gave a new state or a fault: the fault entry if one was raised, and then `CMDCNT`
(R26, R255, R256). A faulting command has no other effect, so its new state is built on the old one. -/
def finish (cw : Word) (s : State) : Except FaultCode State → State
  | .ok t => countCommand t
  | .error e => countCommand (takeFault e cw s)

/-- A command that the fault state drops (R257): outside it the command's own rule decides. -/
def runCommand (i : Instr) (rule : State → Except FaultCode State) (s : State) : Host.Outcome State Fault Refusal :=
  if s.err = 0#8 then .next (finish (encode i) s (rule s)) else .next (countCommand s)

/-- A command that the fault state executes too (R240, R257). -/
def runAlways (i : Instr) (rule : State → Except FaultCode State) (s : State) : Host.Outcome State Fault Refusal :=
  .next (finish (encode i) s (rule s))

/-- A word the decoder rejects: its fault is taken, or in the fault state the word is dropped (R105, R257). -/
def rejectWord (e : FaultCode) (cw : Word) (s : State) : Host.Outcome State Fault Refusal :=
  .next (countCommand (takeFault e cw s))

/-- The next command word on the port and the state once it is taken, or none where the host has presented none. -/
def takeWord (s : State) : Option (Word × State) :=
  match s.pending with
  | [] => none
  | cw :: rest => some (cw, { s with pending := rest })

/-- The host presents a word so that it is the next the block takes. -/
def presentWord (s : State) (cw : Word) : State := { s with pending := cw :: s.pending }

/-- Between commands the block idles with all state held (R262). -/
def idle (s : State) : Host.Outcome State Fault Refusal := .next s

end Sys2Proof.Machine
end

