-- ==== Sys2Proof/Machine/Code.lean ====
section
/-! DEFINITION. The code-table generator's commands `WALK`, `CCLR`, `CLDB`, `CSET`, `CRD` (spec 42_code_table.md). -/

namespace Sys2Proof.Machine

/-- `codes(n, p)` (R162): the leaves below slot `n` with their paths. Children have lower slots than their parent
(R35 (e)), so no path has more edges than there are slots; a path that has, which no run reaches, is given up
(log entry 4). -/
def codesFrom (s : State) : Nat → Nat → Bits → List (Byte × Bits)
  | 0, _, _ => []
  | fuel + 1, n, p =>
    if (nodeAt s n).leaf then [((nodeAt s n).sym, p)]
    else
      codesFrom s fuel (nodeAt s n).left.toNat (p ++ [false]) ++
        codesFrom s fuel (nodeAt s n).right.toNat (p ++ [true])

/-- `CT[s] <- p` for each `(s, p)` (R161). -/
def storeCodes (s : State) (codes : List (Byte × Bits)) : State := codes.foldl (fun t e => setCode t e.1 e.2) s

/-- `CT[s] <- []` for every `s`, and `NCODE <- 0` (R161, R165). -/
def clearCodes (s : State) : State := { s with ct := [], ncode := 0#9 }

/-- The slot of the root of a complete tree (R36). -/
def rootSlot (s : State) : Nat := s.nnode.toNat - 1

/-- The rule of `WALK` (R161), with the one-bit code of a lone leaf (R163). -/
def walkTree (s : State) : Except FaultCode State :=
  if 2 ≤ s.qcnt.toNat then .error .noTree
  else if s.qcnt = 1#9 then
    if (nodeAt s (rootSlot s)).leaf then
      .ok { setCode (clearCodes s) (nodeAt s (rootSlot s)).sym [false] with ncode := 1#9 }
    else
      .ok { storeCodes (clearCodes s) (codesFrom s Config.nodeMax (rootSlot s) []) with ncode := s.nleaf }
  else .ok (clearCodes s)

/-- The rule of `CLDB` (R166); operands that no command word carries are `E_ILLARG` (R103). -/
def stageBits (k : BitVec 5) (bits : BitVec 16) (s : State) : Except FaultCode State :=
  if seqFieldOk k bits = false then .error .illArg
  else if Config.maxLen < s.cstg.length + k.toNat then .error .codeLen
  else .ok { s with cstg := s.cstg ++ seqOf k bits }

/-- Some symbol's code is the bit sequence `c` (R160, R167). -/
def codeTaken (s : State) (c : Bits) : Bool := allSymbols.any fun t => codeOf s t == c

/-- The rule of `CSET s` (R167), its checks in the order written. -/
def commitCode (sym : Byte) (s : State) : Except FaultCode State :=
  if s.cstg.length = 0 then .error .emptyCode
  else if 1 ≤ (codeOf s sym).length then .error .dup
  else if codeTaken s s.cstg then .error .dup
  else .ok { setCode s sym s.cstg with ncode := s.ncode + 1#9, cstg := [] }

/-- The code's value as eight words, most significant first (R76, R169). -/
def codeWords (c : Bits) : List Word :=
  [7, 6, 5, 4, 3, 2, 1, 0].map fun j => (BitVec.ofNat 256 (bitsVal c)).extractLsb' (32 * j) 32

/-- `WALK` (R161). -/
def execWalk (s : State) : Host.Outcome State Fault Refusal := runCommand .walk walkTree s

/-- `CCLR` (R165). -/
def execCclr (s : State) : Host.Outcome State Fault Refusal :=
  runCommand .cclr (fun s => .ok { clearCodes s with cstg := [] }) s

/-- `CLDB "d..."` (R166). -/
def execCldb (k : BitVec 5) (bits : BitVec 16) (s : State) : Host.Outcome State Fault Refusal :=
  runCommand (.cldb k bits) (stageBits k bits) s

/-- `CSET s` (R167). -/
def execCset (sym : Byte) (s : State) : Host.Outcome State Fault Refusal := runCommand (.cset sym) (commitCode sym) s

/-- `CRD s` (R169). -/
def execCrd (sym : Byte) (s : State) : Host.Outcome State Fault Refusal :=
  runCommand (.crd sym) (fun s => .ok (emitRsp s (lengthWord (codeOf s sym) :: codeWords (codeOf s sym)))) s

end Sys2Proof.Machine
end

