-- ==== Sys2Proof/Machine/Frequency.lean ====
section
/-! DEFINITION. The frequency accumulator's commands `FCLR`, `FACC`, `FRD` (spec 40_frequency.md). -/

namespace Sys2Proof.Machine

/-- `FCLR` (R131): every counter and `TOTAL` to 0. -/
def execFclr (s : State) : Host.Outcome State Fault Refusal :=
  runCommand .fclr (fun s => .ok { s with ft := [], total := 0#32 }) s

/-- The rule of `FACC s` (R132). -/
def countSymbol (sym : Byte) (s : State) : Except FaultCode State :=
  if s.total = Config.cntMax then .error .fovf
  else .ok { setCount s sym (countOf s sym + 1#32) with total := s.total + 1#32 }

/-- `FACC s` (R132). -/
def execFacc (sym : Byte) (s : State) : Host.Outcome State Fault Refusal := runCommand (.facc sym) (countSymbol sym) s

/-- `FRD s` (R133). -/
def execFrd (sym : Byte) (s : State) : Host.Outcome State Fault Refusal :=
  runCommand (.frd sym) (fun s => .ok (emitRsp s [countOf s sym])) s

end Sys2Proof.Machine
end

