-- ==== Sys2Proof/Machine/Packer.lean ====
section
/-! DEFINITION. The bit packer's commands `PBEGT`, `PBEGI`, `ENC`, `PBITS`, `PEND` (spec 43_packer.md). -/

namespace Sys2Proof.Machine

/-- The loop of `pack` (R181): the whole bytes of `S`, earliest bit in bit 7, and the 0..7 bits that remain. A byte is
taken only while 8 bits are present, so `|S|` turns are enough. -/
def cutBytes : Nat → Bits → List Byte × Bits
  | 0, S => ([], S)
  | fuel + 1, S =>
    if 8 ≤ S.length then (byteOf (S.take 8) :: (cutBytes fuel (S.drop 8)).1, (cutBytes fuel (S.drop 8)).2)
    else ([], S)

/-- `pack(q)` (R181). -/
def pack (q : Bits) (s : State) : State :=
  { emitBytes s (cutBytes (s.acc ++ q).length (s.acc ++ q)).1 with
    acc := (cutBytes (s.acc ++ q).length (s.acc ++ q)).2 }

/-- The length in bits, under `CT`, of a text whose frequency table is `FT` (R182). -/
def codedLength (s : State) : Nat := (allSymbols.map fun x => (countOf s x).toNat * (codeOf s x).length).sum

/-- The opening of a packing run whose bit sequence has the length `residue` modulo 8 (R182, R183). -/
def openPacking (residue : Nat) (s : State) : Except FaultCode State :=
  if s.pact then .error .seq
  else
    .ok { emitBytes s [BitVec.ofNat 8 (8 - residue)] with
      padn := BitVec.ofNat 4 (8 - residue), acc := [], pact := true }

/-- The rule of `ENC s` (R184), its checks in the order written. -/
def encodeSymbol (sym : Byte) (s : State) : Except FaultCode State :=
  if s.pact = false then .error .seq
  else if (codeOf s sym).length = 0 then .error .noCode
  else .ok (pack (codeOf s sym) s)

/-- The rule of `PBITS` (R185); operands that no command word carries are `E_ILLARG` (R103). -/
def packBits (k : BitVec 5) (bits : BitVec 16) (s : State) : Except FaultCode State :=
  if seqFieldOk k bits = false then .error .illArg
  else if s.pact = false then .error .seq
  else .ok (pack (seqOf k bits) s)

/-- The rule of `PEND` (R186), its checks in the order written. -/
def closePacking (s : State) : Except FaultCode State :=
  if s.pact = false then .error .seq
  else if 8 - s.acc.length ≠ s.padn.toNat then .error .padMis
  else .ok { emitBytes s [byteOf (s.acc ++ zeroBits (8 - s.acc.length))] with acc := [], pact := false }

/-- `PBEGT` (R182). -/
def execPbegt (s : State) : Host.Outcome State Fault Refusal :=
  runCommand .pbegt (fun s => openPacking (codedLength s % 8) s) s

/-- `PBEGI i` (R183). -/
def execPbegi (imm3 : BitVec 3) (s : State) : Host.Outcome State Fault Refusal :=
  runCommand (.pbegi imm3) (openPacking imm3.toNat) s

/-- `ENC s` (R184). -/
def execEnc (sym : Byte) (s : State) : Host.Outcome State Fault Refusal := runCommand (.enc sym) (encodeSymbol sym) s

/-- `PBITS "d..."` (R185). -/
def execPbits (k : BitVec 5) (bits : BitVec 16) (s : State) : Host.Outcome State Fault Refusal :=
  runCommand (.pbits k bits) (packBits k bits) s

/-- `PEND` (R186). -/
def execPend (s : State) : Host.Outcome State Fault Refusal := runCommand .pend closePacking s

end Sys2Proof.Machine
end

