-- ==== Sys2Proof/Machine/Flags.lean ====
section
/-! DEFINITION. The flags (spec 10_state.md R53) and the register map (R54), the read-only views of the state. -/

namespace Sys2Proof.Machine

/-- One flag as a word with that bit only. -/
def flagBit (b : Bool) (position : Nat) : Word := if b then 1#32 <<< position else 0#32

/-- `ROOTV`: the tree is complete (R36). -/
def rootValid (s : State) : Bool := s.qcnt == 1#9

/-- `FAULT`: the block is in the fault state (R23, R53); the `fault` pin is this level (R56). -/
def inFault (s : State) : Bool := s.err != 0#8

/-- `STATUS` (R53). -/
def statusWord (s : State) : Word :=
  flagBit (inFault s) 0 ||| flagBit s.pact 1 ||| flagBit s.uact 2 ||| flagBit s.uhdr 3 ||| flagBit s.umode 4 |||
    flagBit s.candOvf 5 ||| flagBit (rootValid s) 6

/-- `ROOT` (R36, R54): `NNODE - 1` when there is a root. -/
def rootWord (s : State) : Word := if rootValid s then s.nnode.setWidth 32 - 1#32 else 0xFFFFFFFF#32

/-- `PACC` (R43, R54): `NACC` in bits 10:8, the pending bits left-aligned in bits 7:0. -/
def paccWord (s : State) : Word :=
  BitVec.ofNat 32 (256 * s.acc.length + bitsVal (s.acc ++ zeroBits (8 - s.acc.length)))

/-- The register map of R54; none for the reserved numbers. -/
def registerValue (s : State) (r : Byte) : Option Word :=
  match r with
  | 0x00#8 => some Config.id
  | 0x01#8 => some (statusWord s)
  | 0x02#8 => some (s.err.setWidth 32)
  | 0x03#8 => some s.errCmd
  | 0x04#8 => some s.errIdx
  | 0x05#8 => some s.cmdCnt
  | 0x06#8 => some s.total
  | 0x07#8 => some (s.nleaf.setWidth 32)
  | 0x08#8 => some (s.nnode.setWidth 32)
  | 0x09#8 => some (s.qcnt.setWidth 32)
  | 0x0A#8 => some (rootWord s)
  | 0x0B#8 => some (s.ncode.setWidth 32)
  | 0x0C#8 => some (lengthWord s.cstg)
  | 0x0D#8 => some (s.padn.setWidth 32)
  | 0x0E#8 => some (paccWord s)
  | 0x0F#8 => some (s.upadn.setWidth 32)
  | 0x10#8 => some (lengthWord s.hb)
  | 0x11#8 => some (lengthWord s.cand)
  | _ => none

end Sys2Proof.Machine
end

