-- ==== Sys2Proof/Machine/System.lean ====
section
/-! DEFINITION. The system commands `NOP`, `RST`, `RD` (spec 46_system.md). -/

namespace Sys2Proof.Machine

/-- `NOP` (R241): no effect. -/
def execNop (s : State) : Host.Outcome State Fault Refusal := runCommand .nop (fun s => .ok s) s

/-- `RST` (R242): every element to its reset value, in the fault state too; this command is not counted. -/
def execRst (s : State) : Host.Outcome State Fault Refusal := .next (resetBlock s)

/-- The rule of `RD r` (R243). -/
def readRegister (r : Byte) (s : State) : Except FaultCode State :=
  match registerValue s r with
  | some v => .ok (emitRsp s [v])
  | none => .error .illArg

/-- `RD r` (R243), executed in the fault state too, where a bad number is dropped. -/
def execRd (r : Byte) (s : State) : Host.Outcome State Fault Refusal := runAlways (.rd r) (readRegister r) s

end Sys2Proof.Machine
end

