-- ==== Sys2Proof/Machine/Tree.lean ====
section
/-! DEFINITION. The tree builder's commands `TLOAD`, `TMERGE`, `BUILD`, `NRD` (spec 41_tree_builder.md). -/

namespace Sys2Proof.Machine

/-- The empty tree: every slot the zero record, the queue empty, the counters 0 (R141). -/
def clearTree (s : State) : State := { s with nodes := [], inq := [], nnode := 0#10, nleaf := 0#9, qcnt := 0#9 }

/-- One turn of `TLOAD`'s loop (R141): a leaf for `sym` in the next slot if `sym` is present. -/
def loadLeaf (s : State) (sym : Byte) : State :=
  if countOf s sym = 0#32 then s
  else
    { setInQueue
        (setNode s s.nnode.toNat { leaf := true, sym := sym, weight := countOf s sym, left := 0#9, right := 0#9 })
        s.nnode.toNat true with
      nnode := s.nnode + 1#10, nleaf := s.nleaf + 1#9, qcnt := s.qcnt + 1#9 }

/-- The rule of `TLOAD` (R141). -/
def loadTree (s : State) : State := allSymbols.foldl loadLeaf (clearTree s)

/-- The queue: the slots `i` with `INQ[i] = 1` (R31), in ascending order. -/
def queueMembers (s : State) : List Nat := (List.range Config.nodeMax).filter (inQueue s)

/-- The order of the queue (R142): weight first, slot second. -/
def keyLess (s : State) (i j : Nat) : Bool :=
  decide ((nodeAt s i).weight.toNat < (nodeAt s j).weight.toNat) ||
    ((nodeAt s i).weight == (nodeAt s j).weight && decide (i < j))

/-- The lesser of the best slot so far and slot `i`. -/
def lesser (s : State) (best : Option Nat) (i : Nat) : Option Nat :=
  match best with
  | none => some i
  | some j => if keyLess s i j then some i else some j

/-- The queue member whose key is least (R142), or none for the empty queue. -/
def leastMember (s : State) : Option Nat := (queueMembers s).foldl (lesser s) none

/-- `extract_min()` (R142): the slot taken from the queue, and the state without it there. -/
def extractMin (s : State) : Option (Nat × State) := (leastMember s).map fun a => (a, setInQueue s a false)

/-- The node a merge of slots `a` and `b` makes: the first extracted is the left child (R143). -/
def joinNode (s : State) (a b : Nat) : Node :=
  { leaf := false, sym := 0#8, weight := (nodeAt s a).weight + (nodeAt s b).weight,
    left := BitVec.ofNat 9 a, right := BitVec.ofNat 9 b }

/-- The end of a merge (R143): the new node in slot `NNODE`, in the queue. -/
def insertJoined (s : State) (a b : Nat) : State :=
  { setInQueue (setNode s s.nnode.toNat (joinNode s a b)) s.nnode.toNat true with
    nnode := s.nnode + 1#10, qcnt := s.qcnt - 1#9 }

/-- One merge (R143): the first extracted is `p.1`, the second `q.1`; none where the queue has not two members. -/
def mergeTwo (s : State) : Option State :=
  (extractMin s).bind fun p => (extractMin p.2).map fun q => insertJoined q.2 p.1 q.1

/-- The rule of `TMERGE` (R143). `QCNT >= 2` promises two members (R35 (a)); a state that breaks the promise, which no
run reaches, is left as it is (log entry 4). -/
def mergeOnce (s : State) : State := if 2 ≤ s.qcnt.toNat then (mergeTwo s).getD s else s

/-- `while QCNT >= 2: TMERGE`, at most `fuel` times (R144). -/
def mergeWhile : Nat → State → State
  | 0, s => s
  | fuel + 1, s => if 2 ≤ s.qcnt.toNat then mergeWhile fuel (mergeOnce s) else s

/-- The rule of `BUILD` (R144). `NLEAF <= 256` leaves take at most 255 merges. -/
def buildTree (s : State) : State := mergeWhile Config.nsym (loadTree s)

/-- The second word of `NRD` (R148). -/
def nodeWord (s : State) (i : Nat) : Word :=
  (if (nodeAt s i).leaf then 1#32 <<< 31 else 0#32) ||| (if inQueue s i then 1#32 <<< 30 else 0#32) |||
    ((nodeAt s i).left.setWidth 32 <<< 18) ||| ((nodeAt s i).right.setWidth 32 <<< 9) ||| (nodeAt s i).sym.setWidth 32

/-- The rule of `NRD i` (R148). -/
def readNode (idx : BitVec 9) (s : State) : Except FaultCode State :=
  if s.nnode.toNat ≤ idx.toNat then .error .illArg
  else .ok (emitRsp s [(nodeAt s idx.toNat).weight, nodeWord s idx.toNat])

/-- `TLOAD` (R141). -/
def execTload (s : State) : Host.Outcome State Fault Refusal := runCommand .tload (fun s => .ok (loadTree s)) s

/-- `TMERGE` (R143). -/
def execTmerge (s : State) : Host.Outcome State Fault Refusal := runCommand .tmerge (fun s => .ok (mergeOnce s)) s

/-- `BUILD` (R144). -/
def execBuild (s : State) : Host.Outcome State Fault Refusal := runCommand .build (fun s => .ok (buildTree s)) s

/-- `NRD i` (R148). -/
def execNrd (idx : BitVec 9) (s : State) : Host.Outcome State Fault Refusal := runCommand (.nrd idx) (readNode idx) s

end Sys2Proof.Machine
end

