-- ==== Sys2Proof/Machine/Unpacker.lean ====
section
/-! DEFINITION. The bit unpacker's and decoder's commands `UBEGIN`, `UBYTE`, `UEND` (spec 44_unpacker_decoder.md). -/

namespace Sys2Proof.Machine

/-- The symbol whose code is the bit sequence `c` (R160, R205). -/
def symbolOf (s : State) (c : Bits) : Option Byte := allSymbols.find? fun t => codeOf s t == c

/-- `deliver(x)` in decode mode (R205): the greedy decoder. -/
def decodeBit (s : State) (x : Bool) : State :=
  if s.candOvf then s
  else if s.cand.length = Config.maxLen then { s with candOvf := true }
  else
    match symbolOf s (s.cand ++ [x]) with
    | some t => { emitSym s t with cand := [] }
    | none => { s with cand := s.cand ++ [x] }

/-- `deliver(x)` (R204, R205). -/
def deliver (s : State) (x : Bool) : State := if s.umode then emitBit s x else decodeBit s x

/-- `HB <- h` (R48). -/
def holdBits (s : State) (h : Bits) : State := { s with hb := h }

/-- The loop of `UBYTE` (R202): while more than `UPADN` bits are held, the oldest leaves `HB` and is delivered.
Each turn shortens `HB`, so `|HB|` turns are enough. -/
def releaseBits : Nat → State → State
  | 0, s => s
  | fuel + 1, s =>
    if s.upadn.toNat < s.hb.length then
      match s.hb with
      | [] => s
      | x :: rest => releaseBits fuel (deliver (holdBits s rest) x)
    else s

/-- The rule of `UBEGIN m` (R201). -/
def openUnpacking (m : BitVec 1) (s : State) : Except FaultCode State :=
  if s.uact then .error .seq
  else
    .ok { s with
      uact := true, umode := m == 1#1, uhdr := false, upadn := 0#8, hb := [], cand := [], candOvf := false }

/-- The body byte of a run (R202): its bits, bit 7 first, go behind the held ones. -/
def takeBody (b : Byte) (s : State) : State :=
  releaseBits (s.hb ++ bits8 b).length (holdBits s (s.hb ++ bits8 b))

/-- The rule of `UBYTE b` (R202). -/
def takeByte (b : Byte) (s : State) : Except FaultCode State :=
  if s.uact = false then .error .seq
  else if s.uhdr = false then .ok { s with upadn := b, uhdr := true }
  else .ok (takeBody b s)

/-- The rule of `UEND` (R206), its checks in the order written. -/
def closeUnpacking (s : State) : Except FaultCode State :=
  if s.uact = false then .error .seq
  else if s.uhdr = false then .error .malformed
  else if s.hb.length < s.upadn.toNat then .error .malformed
  else if s.umode = false ∧ 1 ≤ s.cand.length then .error .unkCode
  else .ok { s with hb := [], uact := false, uhdr := false }

/-- `UBEGIN m` (R201). -/
def execUbegin (m : BitVec 1) (s : State) : Host.Outcome State Fault Refusal :=
  runCommand (.ubegin m) (openUnpacking m) s

/-- `UBYTE b` (R202). -/
def execUbyte (b : Byte) (s : State) : Host.Outcome State Fault Refusal := runCommand (.ubyte b) (takeByte b) s

/-- `UEND` (R206). -/
def execUend (s : State) : Host.Outcome State Fault Refusal := runCommand .uend closeUnpacking s

end Sys2Proof.Machine
end

