-- ==== Sys2Proof/Machine/Dispatch.lean ====
section
/-! DEFINITION. One arm per command (spec 30_encoding.md R104): each is one direct call of the command's meaning. -/

namespace Sys2Proof.Machine

def exec (i : Instr) (s : State) : Host.Outcome State Fault Refusal :=
  match i with
  | .nop => Sys2Proof.Machine.execNop s
  | .rst => Sys2Proof.Machine.execRst s
  | .rd r => Sys2Proof.Machine.execRd r s
  | .fclr => Sys2Proof.Machine.execFclr s
  | .facc sym => Sys2Proof.Machine.execFacc sym s
  | .frd sym => Sys2Proof.Machine.execFrd sym s
  | .tload => Sys2Proof.Machine.execTload s
  | .tmerge => Sys2Proof.Machine.execTmerge s
  | .build => Sys2Proof.Machine.execBuild s
  | .nrd idx => Sys2Proof.Machine.execNrd idx s
  | .walk => Sys2Proof.Machine.execWalk s
  | .cclr => Sys2Proof.Machine.execCclr s
  | .cldb k bits => Sys2Proof.Machine.execCldb k bits s
  | .cset sym => Sys2Proof.Machine.execCset sym s
  | .crd sym => Sys2Proof.Machine.execCrd sym s
  | .pbegt => Sys2Proof.Machine.execPbegt s
  | .pbegi imm3 => Sys2Proof.Machine.execPbegi imm3 s
  | .enc sym => Sys2Proof.Machine.execEnc sym s
  | .pbits k bits => Sys2Proof.Machine.execPbits k bits s
  | .pend => Sys2Proof.Machine.execPend s
  | .ubegin m => Sys2Proof.Machine.execUbegin m s
  | .ubyte b => Sys2Proof.Machine.execUbyte b s
  | .uend => Sys2Proof.Machine.execUend s

end Sys2Proof.Machine
end

