-- ==== Sys2Proof/Machine/Step.lean ====
section
/-! DEFINITION. One step of the machine (spec 00_scope.md R12): the next command word is taken, decoded and executed. -/

namespace Sys2Proof.Machine

/-- A step (R12, R105): the word at the head of the command port is taken and its command executed, or its fault taken
where the decoder rejects it; with no word presented the block idles (R262). -/
def step (s : State) : Host.Outcome State Fault Refusal :=
  match takeWord s with
  | none => idle s
  | some (cw, t) =>
    match decodeWord cw with
    | .ok i => exec i t
    | .error e => rejectWord e cw t

/-- The state with a command word presented so that the next step takes it: every row of opcode_table.json is one
32-bit word (R100). -/
def State.withFetchWord (s : State) (nbits w : Nat) : State := presentWord s (BitVec.ofNat 32 (w % 2 ^ nbits))

end Sys2Proof.Machine
end

