-- ==== Sys2Proof/Machine/Assembler.lean ====
section
/-! DEFINITION. The host's side of the command port: the assembler syntax and the pseudo-instructions (spec
30_encoding.md R109, R110), which the block never sees. -/

namespace Sys2Proof.Machine

/-- The operand of an assembly line (R109). -/
inductive AsmOperand where
  /-- no operand. -/
  | none
  /-- a number, or an ASCII character in single quotes as its byte value. -/
  | number (n : Nat)
  /-- a register name of 10_state.md R54. -/
  | register (name : String)
  /-- a string of binary digits in double quotes. -/
  | digits (d : Bits)
  deriving DecidableEq, Repr

/-- The register names of R54, each at its number. -/
def registerNames : List String :=
  ["ID", "STATUS", "ERR", "ERRCMD", "ERRIDX", "CMDCNT", "TOTAL", "NLEAF", "NNODE", "QCNT", "ROOT", "NCODE", "CSTGLEN",
    "PADN", "PACC", "UPADN", "HBLEN", "CANDLEN"]

/-- A `Z` command takes no operand (R109). -/
def asmZ (i : Instr) : AsmOperand → Option Instr
  | .none => some i
  | _ => Option.none

/-- An `S` command takes a number 0..255 (R109). -/
def asmS (mk : Byte → Instr) : AsmOperand → Option Instr
  | .number n => if n < 256 then some (mk (BitVec.ofNat 8 n)) else Option.none
  | _ => Option.none

/-- A `B` command takes 0 to 16 binary digits (R109). -/
def asmB (mk : BitVec 5 → BitVec 16 → Instr) : AsmOperand → Option Instr
  | .digits d =>
    if d.length ≤ 16 then some (mk (BitVec.ofNat 5 d.length) (BitVec.ofNat 16 (bitsVal d))) else Option.none
  | _ => Option.none

/-- `RD` takes a number 0..255 or a register name (R109). -/
def asmRd : AsmOperand → Option Instr
  | .number n => asmS .rd (.number n)
  | .register name =>
    if registerNames.contains name then some (.rd (BitVec.ofNat 8 (registerNames.idxOf name))) else Option.none
  | _ => Option.none

/-- `NRD` takes a number 0..511 (R109). -/
def asmNrd : AsmOperand → Option Instr
  | .number n => if n < 512 then some (.nrd (BitVec.ofNat 9 n)) else Option.none
  | _ => Option.none

/-- `PBEGI` takes a number 0..7 (R109). -/
def asmPbegi : AsmOperand → Option Instr
  | .number n => if n < 8 then some (.pbegi (BitVec.ofNat 3 n)) else Option.none
  | _ => Option.none

/-- `UBEGIN` takes 0 or 1 (R109). -/
def asmUbegin : AsmOperand → Option Instr
  | .number n => if n < 2 then some (.ubegin (BitVec.ofNat 1 n)) else Option.none
  | _ => Option.none

/-- One assembly line: a mnemonic in capitals and at most one operand (R109). -/
def assembleLine (mnemonic : String) (operand : AsmOperand) : Option Instr :=
  match mnemonic with
  | "NOP" => asmZ .nop operand
  | "RST" => asmZ .rst operand
  | "RD" => asmRd operand
  | "FCLR" => asmZ .fclr operand
  | "FACC" => asmS .facc operand
  | "FRD" => asmS .frd operand
  | "TLOAD" => asmZ .tload operand
  | "TMERGE" => asmZ .tmerge operand
  | "BUILD" => asmZ .build operand
  | "NRD" => asmNrd operand
  | "WALK" => asmZ .walk operand
  | "CCLR" => asmZ .cclr operand
  | "CLDB" => asmB .cldb operand
  | "CSET" => asmS .cset operand
  | "CRD" => asmS .crd operand
  | "PBEGT" => asmZ .pbegt operand
  | "PBEGI" => asmPbegi operand
  | "ENC" => asmS .enc operand
  | "PBITS" => asmB .pbits operand
  | "PEND" => asmZ .pend operand
  | "UBEGIN" => asmUbegin operand
  | "UBYTE" => asmS .ubyte operand
  | "UEND" => asmZ .uend operand
  | _ => Option.none

/-- The digits cut from the left into chunks of 16, the last one maybe shorter, none for an empty string (R110). -/
def chunks16 : Nat → Bits → List Bits
  | 0, _ => []
  | fuel + 1, d => if d = [] then [] else d.take 16 :: chunks16 fuel (d.drop 16)

/-- One `B` command per chunk, in order (R110). -/
def chunkCommands (mk : BitVec 5 → BitVec 16 → Instr) (d : Bits) : List Instr :=
  (chunks16 d.length d).map fun c => mk (BitVec.ofNat 5 c.length) (BitVec.ofNat 16 (bitsVal c))

/-- `FACCS "text"` (R110). -/
def faccs (text : List Byte) : List Instr := text.map .facc

/-- `ENCS "text"` (R110). -/
def encs (text : List Byte) : List Instr := text.map .enc

/-- `UBYTES b0 b1 ...` (R110). -/
def ubytes (payload : List Byte) : List Instr := payload.map .ubyte

/-- `CODE s, "digits"` (R110). -/
def codeCommands (sym : Byte) (digits : Bits) : List Instr := chunkCommands .cldb digits ++ [.cset sym]

/-- `PBITSS "digits"` (R110). -/
def pbitss (digits : Bits) : List Instr := chunkCommands .pbits digits

end Sys2Proof.Machine
end

