-- ==== Sys2Proof/Machine/Run.lean ====
section
/-! DEFINITION. A finite list of commands executed in the order the host presents them (spec 10_state.md R22). -/

namespace Sys2Proof.Machine

/-- The commands of a list executed in order, stopping where one does not answer a next state. -/
def execAll : List Instr → State → Host.Outcome State Fault Refusal
  | [], s => .next s
  | i :: rest, s =>
    match exec i s with
    | .next t => execAll rest t
    | .fault r => .fault r
    | .refused r => .refused r

end Sys2Proof.Machine
end

