-- ==== Sys2Proof/Machine/Container.lean ====
section
/-! DEFINITION. The contract of the host (spec 45_container_host.md, in scope by 00_scope.md R4): the container blob, the
serialized code table, the canonical command sequences, and the whole compression and decompression around the block.
Nothing here is a command of the block. -/

namespace Sys2Proof.Machine

/-- How a host operation fails (R230). -/
inductive HostError where
  /-- Malformed-container: from `read`, from `deserialize`, or from the block. -/
  | malformedContainer
  /-- Unknown-code-sequence, from the block. -/
  | unknownCodeSequence
  /-- Another fault of the block, with the code `RD ERR` returned. -/
  | blockFault (code : Word)
  deriving DecidableEq, Repr

/-- `le32(n)`: four bytes, least significant first (R221, R223). -/
def le32 (n : Nat) : List Byte :=
  [BitVec.ofNat 8 n, BitVec.ofNat 8 (n / 256), BitVec.ofNat 8 (n / 65536), BitVec.ofNat 8 (n / 16777216)]

/-- `write(table, payload)` (R220, R221). -/
def writeBlob (table payload : List Byte) : List Byte := le32 table.length ++ table ++ payload

/-- `read(blob)` (R222). -/
def readBlob : List Byte → Except HostError (List Byte × List Byte)
  | b0 :: b1 :: b2 :: b3 :: rest =>
    if rest.length < b0.toNat + 256 * b1.toNat + 65536 * b2.toNat + 16777216 * b3.toNat then .error .malformedContainer
    else
      .ok (rest.take (b0.toNat + 256 * b1.toNat + 65536 * b2.toNat + 16777216 * b3.toNat),
        rest.drop (b0.toNat + 256 * b1.toNat + 65536 * b2.toNat + 16777216 * b3.toNat))
  | _ => .error .malformedContainer

/-- The entries of the code table: the symbols that have a code, ascending (R224, R225). -/
def tableEntries (s : State) : List (Byte × Bits) :=
  (allSymbols.filter fun x => decide (1 ≤ (codeOf s x).length)).map fun x => (x, codeOf s x)

/-- `ceil(len/8)` (R224). -/
def codeBytes (len : Nat) : Nat := (len + 7) / 8

/-- A code's bits as bytes, first bit in bit 7 of the first byte, the unused low bits of the last byte 0 (R224). -/
def alignedBytes (c : Bits) : List Byte :=
  (cutBytes (codeBytes c.length) (c ++ zeroBits (8 * codeBytes c.length - c.length))).1

/-- One entry: symbol, code length, code bits (R224). -/
def entryBytes (e : Byte × Bits) : List Byte := e.1 :: BitVec.ofNat 8 e.2.length :: alignedBytes e.2

/-- A list of entries, serialized, version 1 (R224). -/
def serializeEntries (es : List (Byte × Bits)) : List Byte :=
  0x01#8 :: BitVec.ofNat 8 es.length :: BitVec.ofNat 8 (es.length / 256) :: es.flatMap entryBytes

/-- `serialize(CT)`, as a function of the table (R224). -/
def serializeTable (s : State) : List Byte := serializeEntries (tableEntries s)

/-- The symbol comes after the entry before it (R224). -/
def ascends (prev : Option Byte) (sym : Byte) : Bool :=
  match prev with
  | none => true
  | some p => decide (p.toNat < sym.toNat)

/-- The `n` entries that must fill the rest of the table exactly (R224). -/
def parseEntries : Nat → Option Byte → List Byte → Except HostError (List (Byte × Bits))
  | 0, _, rest => if rest = [] then .ok [] else .error .malformedContainer
  | n + 1, prev, sym :: len :: rest =>
    if len.toNat = 0 ∨ ascends prev sym = false ∨ rest.length < codeBytes len.toNat ∨
        (((rest.take (codeBytes len.toNat)).flatMap bits8).drop len.toNat).any id = true then .error .malformedContainer
    else
      match parseEntries n (some sym) (rest.drop (codeBytes len.toNat)) with
      | .ok es => .ok ((sym, ((rest.take (codeBytes len.toNat)).flatMap bits8).take len.toNat) :: es)
      | .error e => .error e
  | _ + 1, _, _ => .error .malformedContainer

/-- `deserialize` (R224). -/
def deserializeTable : List Byte → Except HostError (List (Byte × Bits))
  | version :: n0 :: n1 :: rest =>
    if version ≠ 0x01#8 ∨ 256 < n0.toNat + 256 * n1.toNat then .error .malformedContainer
    else parseEntries (n0.toNat + 256 * n1.toNat) none rest
  | _ => .error .malformedContainer

/-- The number that words stand for, most significant first (R76). -/
def wordsVal (ws : List Word) : Nat := ws.foldl (fun n w => 2 ^ 32 * n + w.toNat) 0

/-- The host's entry for symbol `x` from the nine words of `CRD x`, length and then value (R169), when the first is nonzero
(R225). The first bit of the code is bit `len - 1` of the value. -/
def responseEntry (x : Byte) : List Word → Option (Byte × Bits)
  | [] => none
  | len :: value => if len = 0#32 then none else some (x, lowBits len.toNat (wordsVal value))

/-- The host's entries from the words that one `CRD` per symbol of the list returned, nine each, in order (R225, R289). -/
def responseEntries : List Byte → List Word → List (Byte × Bits)
  | [], _ => []
  | x :: xs, rsp => (responseEntry x (rsp.take 9)).toList ++ responseEntries xs (rsp.drop 9)

/-- Serializing the table that `CRD 0 ... CRD 255` read out of the block, from their words on `RSP` (R225). -/
def serializeResponses (rsp : List Word) : List Byte := serializeEntries (responseEntries allSymbols rsp)

/-- Loading a table into the block (R225). -/
def loadTableCommands (es : List (Byte × Bits)) : List Instr :=
  .cclr :: es.flatMap fun e => codeCommands e.1 e.2

/-- The canonical compression sequence (R226). -/
def compressCommands (text : List Byte) : List Instr :=
  [.rst, .fclr] ++ faccs text ++ [.build, .walk] ++ allSymbols.map .crd ++ [.pbegt] ++ encs text ++ [.pend, .rd 0x02#8]

/-- The canonical decompression sequence for a table's entries and a payload (R227). -/
def decompressCommands (es : List (Byte × Bits)) (payload : List Byte) : List Instr :=
  .rst :: loadTableCommands es ++ [.ubegin 0#1] ++ ubytes payload ++ [.uend, .rd 0x02#8]

/-- The canonical decompression sequence for a blob, or the host's failure before any command (R222, R224, R227). -/
def decompressBlob (blob : List Byte) : Except HostError (List Instr) :=
  match readBlob blob with
  | .error e => .error e
  | .ok (table, payload) =>
    match deserializeTable table with
    | .error e => .error e
    | .ok es => .ok (decompressCommands es payload)

/-- The error kind the source gives a fault of the block (R230, and the last column of R250). -/
def errorKind (err : Word) : HostError :=
  if err ∈ [0x06#32, 0x07#32, 0x08#32, 0x0B#32] then .malformedContainer
  else if err = 0x0C#32 then .unknownCodeSequence
  else .blockFault err

/-- `RD ERR ; must return 0`: the last word of a canonical sequence on `RSP` lets the operation's items stand or voids them
(R226, R227, R287). `RD` emits in the fault state too, so there is such a word. -/
def ifNoFault {α : Type} (rsp : List Word) (result : α) : Except HostError α :=
  match rsp.getLast? with
  | some err => if err = 0#32 then .ok result else .error (errorKind err)
  | none => .error (.blockFault 0#32)

/-- What the host makes of the block's streams after the canonical compression sequence (R226): the blob, from the words
`CRD` returned and the bytes of the run, or no blob. -/
def compressResult (t : State) : Except HostError (List Byte) :=
  ifNoFault t.rsp (writeBlob (serializeResponses t.rsp) t.obytes)

/-- What the host makes of the block's streams after the canonical decompression sequence (R227): the output text is the
symbols on `OSYMS`, written out only if `ERR = 0`. -/
def decompressResult (t : State) : Except HostError (List Byte) := ifNoFault t.rsp t.osyms

/-- A host operation: its commands executed from `s`, and then what the host makes of the streams. The block answers every
command with a next state (R12), so the last two cases do not arise. -/
def hostOperation (commands : List Instr) (result : State → Except HostError (List Byte)) (s : State) :
    Except HostError (List Byte) :=
  match execAll commands s with
  | .next t => result t
  | .fault _ => .error (.blockFault 0#32)
  | .refused _ => .error (.blockFault 0#32)

/-- The compression of a text with the block in state `s` (R226): its blob. -/
def compress (text : List Byte) (s : State) : Except HostError (List Byte) :=
  hostOperation (compressCommands text) compressResult s

/-- The decompression of a blob with the block in state `s` (R227): the text. A failure of `read` or `deserialize` comes
before any command. -/
def decompress (blob : List Byte) (s : State) : Except HostError (List Byte) :=
  match decompressBlob blob with
  | .error e => .error e
  | .ok commands => hostOperation commands decompressResult s

/-- The commands of a program as the words the host presents, in order (R22, R109). -/
def presentProgram (s : State) (program : List Instr) : State := { s with pending := s.pending ++ program.map encode }

end Sys2Proof.Machine
end

