-- ==== Sys2Proof/Safety.lean ====
section
/-! DEFINITION. What counts as a good end of a run, the invariants the spec states (R29, R35, R40 and the bounds of
10_state.md), and the relations the claims speak of. -/

namespace Sys2Proof.Safety

open Sys2Proof.Machine

/-! ### The end of a run (70_reset_and_hazards.md R291) -/

/-- The run has failed. -/
def failed (s : State) : Bool := s.err != 0#8

/-- The run is good: no fault, and neither a packing nor an unpacking run is open. -/
def good (s : State) : Bool := s.err == 0#8 && !s.pact && !s.uact

/-- No fault, but a run is still open: its items are not yet output. -/
def incomplete (s : State) : Bool := s.err == 0#8 && (s.pact || s.uact)

/-! ### Fault entry (60_exceptions.md R255, R256) -/

/-- The state after the first fault since reset, raised with code `n` on the command word `cw`: the three fault
registers, `CMDCNT`, and nothing else. -/
def afterFault (n : BitVec 8) (cw : Word) (s : State) : State :=
  { s with err := n, errCmd := cw, errIdx := s.cmdCnt, cmdCnt := s.cmdCnt + 1#32 }

/-! ### Invariants -/

/-- The fault registers: `ERR` is 0 or a code of R250, and the other two are 0 while it is 0 (R23, R24, R25). -/
structure FaultRegsOk (s : State) : Prop where
  code : s.err.toNat ≤ 0x0C
  clear : s.err = 0#8 → s.errCmd = 0#32 ∧ s.errIdx = 0#32

/-- The sum of the counters. -/
def countSum (s : State) : Nat := (allSymbols.map fun x => (countOf s x).toNat).sum

/-- R29: `TOTAL` is the sum of the counters (that it is at most `CNT_MAX` is its width). -/
structure FrequencyOk (s : State) : Prop where
  total : s.total.toNat = countSum s

/-- The internal nodes that have slot `i` as a child. -/
def parentsOf (s : State) (i : Nat) : List Nat :=
  (List.range Config.nodeMax).filter fun j =>
    decide (j < s.nnode.toNat) && !(nodeAt s j).leaf &&
      (decide ((nodeAt s j).left.toNat = i) || decide ((nodeAt s j).right.toNat = i))

/-- R35 (a) to (f), with the weight of an internal node as a 32-bit sum (R147); and the widths' bounds of R32, R33, R34. -/
structure TreeOk (s : State) : Prop where
  /-- (a) `QCNT` counts the queue members. -/
  queueCount : s.qcnt.toNat = (queueMembers s).length
  /-- (b) a slot not in use is the zero record and not queued. -/
  unused : ∀ i, i < Config.nodeMax → s.nnode.toNat ≤ i → nodeAt s i = Node.zero ∧ inQueue s i = false
  /-- (c) `NLEAF <= NNODE <= max(2*NLEAF - 1, 0)`, and at most 256 leaves. -/
  sizes : s.nleaf.toNat ≤ s.nnode.toNat ∧ s.nnode.toNat ≤ 2 * s.nleaf.toNat - 1 ∧ s.nleaf.toNat ≤ Config.nsym
  /-- (d) each merge adds a node and takes a queue member. -/
  merges : 1 ≤ s.nleaf.toNat → s.nnode.toNat - s.nleaf.toNat = s.nleaf.toNat - s.qcnt.toNat ∧
    s.qcnt.toNat ≤ s.nleaf.toNat
  /-- (e) the first `NLEAF` slots are leaves. -/
  leaves : ∀ i, i < s.nleaf.toNat → (nodeAt s i).leaf = true ∧ (nodeAt s i).weight ≠ 0#32 ∧
    (nodeAt s i).left = 0#9 ∧ (nodeAt s i).right = 0#9
  /-- (e) their symbols rise strictly. -/
  symbols : ∀ j, j < s.nleaf.toNat → ∀ i, i < j → (nodeAt s i).sym.toNat < (nodeAt s j).sym.toNat
  /-- (e) the other slots in use are internal nodes over lower slots. -/
  internals : ∀ i, i < s.nnode.toNat → s.nleaf.toNat ≤ i →
    (nodeAt s i).leaf = false ∧ (nodeAt s i).sym = 0#8 ∧ (nodeAt s i).left.toNat < i ∧ (nodeAt s i).right.toNat < i ∧
      (nodeAt s i).left ≠ (nodeAt s i).right ∧
      (nodeAt s i).weight =
        (nodeAt s (nodeAt s i).left.toNat).weight + (nodeAt s (nodeAt s i).right.toNat).weight
  /-- (f) a slot in use is a queue member or the child of exactly one internal node, never both. -/
  owned : ∀ i, i < s.nnode.toNat → (inQueue s i).toNat + (parentsOf s i).length = 1

/-- The sum of the weights of the queue members. -/
def queueWeight (s : State) : Nat := ((queueMembers s).map fun i => (nodeAt s i).weight.toNat).sum

/-- R35 (g), as far as one state shows it: the weights in the queue sum to a count, so no sum wraps (R147). -/
structure QueueWeightOk (s : State) : Prop where
  bound : queueWeight s ≤ Config.cntMax.toNat
  exact : ∀ i, i < s.nnode.toNat → s.nleaf.toNat ≤ i →
    (nodeAt s i).weight.toNat =
      (nodeAt s (nodeAt s i).left.toNat).weight.toNat + (nodeAt s (nodeAt s i).right.toNat).weight.toNat

/-- The number of symbols that have a code. -/
def codeCount (s : State) : Nat := (allSymbols.filter fun x => decide (1 ≤ (codeOf s x).length)).length

/-- R37, R38, R39, R40: no code is longer than `MAXLEN`, `NCODE` counts the codes, and they are pairwise different. -/
structure CodeTableOk (s : State) : Prop where
  lengths : ∀ x ∈ allSymbols, (codeOf s x).length ≤ Config.maxLen
  distinct : ∀ x ∈ allSymbols, ∀ y ∈ allSymbols, codeOf s x = codeOf s y → codeOf s x ≠ [] → x = y
  count : s.ncode.toNat = codeCount s
  staged : s.cstg.length ≤ Config.maxLen

/-- R42, R43: `PADN` is 0..8, and 1..8 while a run is open; `ACC` holds 0..7 bits, none outside a run. -/
structure PackerOk (s : State) : Prop where
  padn : s.padn.toNat ≤ 8
  opened : s.pact = true → 1 ≤ s.padn.toNat
  acc : s.acc.length ≤ 7
  closed : s.pact = false → s.acc = []

/-- R44 to R50, R203, R206: `HB` holds at most `UPADN` bits and none before the pad-count byte or outside a run; `CAND`
holds at most 255 bits, and exactly 255 once `CANDOVF` is set. -/
structure UnpackerOk (s : State) : Prop where
  held : s.hb.length ≤ s.upadn.toNat
  header : s.uhdr = true → s.uact = true
  noHeader : s.uhdr = false → s.hb = []
  candidate : s.cand.length ≤ Config.maxLen
  overflow : s.candOvf = true → s.cand.length = Config.maxLen

/-! ### Encodings (30_encoding.md) -/

/-- R106: the opcode is in one of the six ranges that name no command. -/
def illegalOpcode (op : Byte) : Bool :=
  (decide (0x03 ≤ op.toNat) && decide (op.toNat ≤ 0x0F)) || (decide (0x13 ≤ op.toNat) && decide (op.toNat ≤ 0x1F)) ||
    (decide (0x24 ≤ op.toNat) && decide (op.toNat ≤ 0x2F)) || (decide (0x35 ≤ op.toNat) && decide (op.toNat ≤ 0x3F)) ||
    (decide (0x45 ≤ op.toNat) && decide (op.toNat ≤ 0x4F)) || (decide (0x53 ≤ op.toNat) && decide (op.toNat ≤ 0xFF))

/-- R101, R107: the reserved bits of the format the opcode's row has, for a legal opcode. -/
def reservedMask (op : Byte) : Word :=
  if op ∈ [0x00#8, 0x01#8, 0x10#8, 0x20#8, 0x21#8, 0x22#8, 0x30#8, 0x31#8, 0x40#8, 0x44#8, 0x52#8] then 0x00FFFFFF#32
  else if op ∈ [0x02#8, 0x11#8, 0x12#8, 0x33#8, 0x34#8, 0x42#8, 0x51#8] then 0x00FFFF00#32
  else if op = 0x23#8 then 0x00FFFE00#32
  else if op ∈ [0x32#8, 0x43#8] then 0x00E00000#32
  else if op = 0x41#8 then 0x00FFFFF8#32
  else if op = 0x50#8 then 0x00FFFFFE#32
  else 0#32

/-- R103: a format `B` word with `k > 16`, or with a nonzero bit in `cw[15:k]`. -/
def breaksSequence (cw : Word) : Prop :=
  opcodeOf cw ∈ [0x32#8, 0x43#8] ∧
    (16 < (cw.extractLsb' 16 5).toNat ∨ ∃ j, (cw.extractLsb' 16 5).toNat ≤ j ∧ j ≤ 15 ∧ cw.getLsbD j = true)

/-- A word with opcode `op` and a bit of `mask` set is `E_ILLARG`. -/
def RejectsReserved (op : Byte) (mask : Word) : Prop :=
  ∀ cw : Word, opcodeOf cw = op → cw &&& mask ≠ 0#32 → decodeWord cw = .error .illArg

/-- `RD r` emits `v` on `RSP`, advances `CMDCNT`, and changes nothing else. -/
def Reads (s : State) (r : Byte) (v : Word) : Prop :=
  exec (.rd r) s = .next { s with rsp := s.rsp ++ [v], cmdCnt := s.cmdCnt + 1#32 }

/-! ### Which commands write which elements (10_state.md R27 to R51) -/

/-- `FT` and `TOTAL` (R27, R28). -/
def writesFrequency : Instr → Bool
  | .fclr | .facc _ | .rst => true
  | _ => false

/-- `NODE`, `INQ`, `NNODE`, `NLEAF`, `QCNT` (R30 to R34). -/
def writesTree : Instr → Bool
  | .tload | .tmerge | .build | .rst => true
  | _ => false

/-- `CT` and `NCODE` (R37, R38). -/
def writesCodes : Instr → Bool
  | .walk | .cclr | .cset _ | .rst => true
  | _ => false

/-- `CSTG` (R39). -/
def writesStaging : Instr → Bool
  | .cldb _ _ | .cset _ | .cclr | .rst => true
  | _ => false

/-- `PADN` (R42). -/
def writesPadn : Instr → Bool
  | .pbegt | .pbegi _ | .rst => true
  | _ => false

/-- `PACT`, `ACC` and `OBYTES` (R41, R43, R51). -/
def writesPacker : Instr → Bool
  | .pbegt | .pbegi _ | .enc _ | .pbits _ _ | .pend | .rst => true
  | _ => false

/-- `UACT`, `UMODE`, `UHDR`, `UPADN`, `HB`, `CAND`, `CANDOVF` (R44 to R50). -/
def writesUnpacker : Instr → Bool
  | .ubegin _ | .ubyte _ | .uend | .rst => true
  | _ => false

/-- `OSYMS` and `OBITS` (R51). -/
def writesDecoded : Instr → Bool
  | .ubyte _ | .rst => true
  | _ => false

/-- `RSP` (R51). -/
def writesResponses : Instr → Bool
  | .rd _ | .frd _ | .nrd _ | .crd _ | .rst => true
  | _ => false

/-! ### Relations -/

/-- The key of slot `i` comes before that of slot `j` (R142): weight first, slot second. -/
def KeyBefore (s : State) (i j : Nat) : Prop :=
  (nodeAt s i).weight.toNat < (nodeAt s j).weight.toNat ∨
    ((nodeAt s i).weight.toNat = (nodeAt s j).weight.toNat ∧ i < j)

/-- Slots `a` and `b` are the two queue members with the least keys, `a` first (R142, R143). -/
structure LeastTwo (s : State) (a b : Nat) : Prop where
  slots : a < Config.nodeMax ∧ b < Config.nodeMax
  members : inQueue s a = true ∧ inQueue s b = true
  first : KeyBefore s a b
  rest : ∀ i, i < Config.nodeMax → inQueue s i = true → i ≠ a → i ≠ b → KeyBefore s b i

/-- `p` is the path from slot `n` down to slot `m`: 0 is a left edge, 1 a right edge (R162). -/
inductive PathTo (s : State) : Nat → Bits → Nat → Prop where
  | here (n : Nat) : PathTo s n [] n
  | left {n m : Nat} {p : Bits} : (nodeAt s n).leaf = false → PathTo s (nodeAt s n).left.toNat p m →
      PathTo s n (false :: p) m
  | right {n m : Nat} {p : Bits} : (nodeAt s n).leaf = false → PathTo s (nodeAt s n).right.toNat p m →
      PathTo s n (true :: p) m

/-- The greedy decoder of R205 as a relation: with the table `code`, from the candidate and overflow flag before, over
the released bits, to the candidate and flag after and the symbols emitted. -/
inductive Greedy (code : Byte → Bits) : Bits → Bool → Bits → Bits → Bool → List Byte → Prop where
  | done (c : Bits) (o : Bool) : Greedy code c o [] c o []
  | dropped {c c' xs : Bits} {o' : Bool} {ys : List Byte} (x : Bool) : Greedy code c true xs c' o' ys →
      Greedy code c true (x :: xs) c' o' ys
  | full {c c' xs : Bits} {o' : Bool} {ys : List Byte} (x : Bool) : c.length = 255 → Greedy code c true xs c' o' ys →
      Greedy code c false (x :: xs) c' o' ys
  | hit {c c' xs : Bits} {o' : Bool} {ys : List Byte} (x : Bool) (t : Byte) : c.length ≠ 255 → code t = c ++ [x] →
      Greedy code [] false xs c' o' ys → Greedy code c false (x :: xs) c' o' (t :: ys)
  | miss {c c' xs : Bits} {o' : Bool} {ys : List Byte} (x : Bool) : c.length ≠ 255 → (∀ t, code t ≠ c ++ [x]) →
      Greedy code (c ++ [x]) false xs c' o' ys → Greedy code c false (x :: xs) c' o' ys

/-- The body of a packing run (R180): each `ENC` of a symbol with a code and each well-formed `PBITS` adds its bits. -/
inductive PackBody (code : Byte → Bits) : List Instr → Bits → Prop where
  | nil : PackBody code [] []
  | enc {l : List Instr} {B : Bits} (x : Byte) : code x ≠ [] → PackBody code l B →
      PackBody code (.enc x :: l) (code x ++ B)
  | pbits {l : List Instr} {B : Bits} (k : BitVec 5) (bits : BitVec 16) (q : Bits) :
      (Instr.pbits k bits).wellFormed = true → q.length = k.toNat → bitsVal q = bits.toNat → PackBody code l B →
      PackBody code (.pbits k bits :: l) (q ++ B)

end Sys2Proof.Safety
end

