-- ==== Sys2Proof/Certificates/Slice0/Obligations.lean ====
section
/-! DEFINITION. The statements for the provers, from the spec's numbered rules. A word presented on the command port stands
in `pending`, the model's own field (log entry 1), from whose head a step takes it: the model's form of R22's order. -/

open Sys2Proof Sys2Proof.Machine Sys2Proof.Safety

/-! ### Encoding and decoding (30_encoding.md) -/

/-- R101 to R104: decoding the word of a well-formed command gives the command back, every operand at every value. -/
def Obligations.DecodeInvertsEncode : Prop :=
  ∀ i : Instr, i.wellFormed = true → decodeWord (encode i) = .ok i

/-- R100 to R105, D5: a word the decoder accepts has one command, well formed, and is that command's one spelling. -/
def Obligations.EncodeInvertsDecode : Prop :=
  ∀ (cw : Word) (i : Instr), decodeWord cw = .ok i → i.wellFormed = true ∧ encode i = cw

/-- R106: exactly the 233 opcodes outside R104 are `E_ILLCMD`, whatever `arg`, and a step on one takes that fault. -/
def Obligations.IllegalOpcodesFault : Prop :=
  (∀ cw : Word, decodeWord cw = .error .illCmd ↔ illegalOpcode (opcodeOf cw) = true) ∧
    ((List.range 256).filter fun n => illegalOpcode (BitVec.ofNat 8 n)).length = 233 ∧
    ∀ (cw : Word) (s : State) (rest : List Word), illegalOpcode (opcodeOf cw) = true → s.err = 0#8 →
      s.pending = cw :: rest → step s = .next (afterFault 0x01#8 cw { s with pending := rest })

/-- R107, R103: exactly the words with a legal opcode and a reserved bit set, or a broken format `B` operand, decode to
`E_ILLARG`, and a step on one takes that fault and has no other effect. The two value checks that need state, `RD` and
`NRD`, take the same fault. -/
def Obligations.ReservedBitsFault : Prop :=
  (∀ cw : Word, decodeWord cw = .error .illArg ↔ illegalOpcode (opcodeOf cw) = false ∧
      (cw &&& reservedMask (opcodeOf cw) ≠ 0#32 ∨ breaksSequence cw)) ∧
    (∀ (cw : Word) (s : State) (rest : List Word), illegalOpcode (opcodeOf cw) = false →
      (cw &&& reservedMask (opcodeOf cw) ≠ 0#32 ∨ breaksSequence cw) → s.err = 0#8 → s.pending = cw :: rest →
      step s = .next (afterFault 0x02#8 cw { s with pending := rest })) ∧
    (∀ (r : Byte) (s : State), 0x11 < r.toNat → s.err = 0#8 →
      exec (.rd r) s = .next (afterFault 0x02#8 (encode (.rd r)) s)) ∧
    ∀ (i : BitVec 9) (s : State), s.nnode.toNat ≤ i.toNat → s.err = 0#8 →
      exec (.nrd i) s = .next (afterFault 0x02#8 (encode (.nrd i)) s)

/-- R101 to R104: words written out from the tables decode to the commands they stand for, one or more per unit. -/
def Obligations.WrittenOutWordsDecode : Prop :=
  decodeWord 0x00000000#32 = .ok .nop ∧ decodeWord 0x02000011#32 = .ok (.rd 0x11#8) ∧
    decodeWord 0x11000061#32 = .ok (.facc 0x61#8) ∧ decodeWord 0x230001FE#32 = .ok (.nrd 0x1FE#9) ∧
    decodeWord 0x32020003#32 = .ok (.cldb 2#5 0x0003#16) ∧ decodeWord 0x330000FF#32 = .ok (.cset 0xFF#8) ∧
    decodeWord 0x430B059D#32 = .ok (.pbits 11#5 0x059D#16) ∧ decodeWord 0x41000005#32 = .ok (.pbegi 5#3) ∧
    decodeWord 0x50000001#32 = .ok (.ubegin 1#1) ∧ decodeWord 0x510000A5#32 = .ok (.ubyte 0xA5#8)

/-! ### The step, the command count, faults and reset (00_scope.md R12, 10_state.md, 60_exceptions.md) -/

/-- R105: a step takes the word at the head of the command port and executes the command it decodes to, or takes the
decoder's fault on it, or in the fault state drops it. The last clause, that a step with no word on the port changes nothing,
is the model's reading of R262 (log entry 2, DEDUCED): R12 defines a step for a command word only. -/
def Obligations.StepRunsTheDecodedCommand : Prop :=
  (∀ (s : State) (cw : Word) (rest : List Word) (i : Instr), s.pending = cw :: rest → decodeWord cw = .ok i →
      step s = exec i { s with pending := rest }) ∧
    (∀ (s : State) (cw : Word) (rest : List Word) (e : FaultCode), s.pending = cw :: rest → decodeWord cw = .error e →
      (s.err = 0#8 → step s = .next (afterFault (faultNumber e) cw { s with pending := rest })) ∧
      (s.err ≠ 0#8 → step s = .next { s with pending := rest, cmdCnt := s.cmdCnt + 1#32 })) ∧
    ∀ s : State, s.pending = [] → step s = .next s

/-- R12, R255, R256, R258: a step on a word always answers a next state. Outside the fault state it either takes no fault or
changes the three fault registers and `CMDCNT` alone, recording the word and its index; in the fault state the record
stands, but for the `RST` that resets. -/
def Obligations.FaultsArePreciseAndSticky : Prop :=
  ∀ (s : State) (cw : Word) (rest : List Word), s.pending = cw :: rest →
    (s.err = 0#8 → ∃ t, step s = .next t ∧ (t.err = 0#8 ∨
      ∃ n : BitVec 8, 1 ≤ n.toNat ∧ n.toNat ≤ 0x0C ∧ t = afterFault n cw { s with pending := rest })) ∧
    (s.err ≠ 0#8 → ∃ t, step s = .next t ∧
      ((t.err = s.err ∧ t.errCmd = s.errCmd ∧ t.errIdx = s.errIdx) ∨
        (cw = 0x01000000#32 ∧ t = { State.reset with pending := rest })))

/-- R257: in the fault state the `RST` word resets, an `RD` word with a legal operand emits its value, and every other
word changes nothing but `CMDCNT`. -/
def Obligations.FaultStateDropsCommands : Prop :=
  ∀ (s : State) (cw : Word) (rest : List Word), s.err ≠ 0#8 → s.pending = cw :: rest →
    (cw = 0x01000000#32 → step s = .next { State.reset with pending := rest }) ∧
    (∀ r : Byte, cw = 0x02000000#32 ||| r.setWidth 32 → r.toNat ≤ 0x11 → ∃ v, registerValue s r = some v ∧
      step s = .next { s with pending := rest, rsp := s.rsp ++ [v], cmdCnt := s.cmdCnt + 1#32 }) ∧
    (cw ≠ 0x01000000#32 → (∀ r : Byte, r.toNat ≤ 0x11 → cw ≠ 0x02000000#32 ||| r.setWidth 32) →
      step s = .next { s with pending := rest, cmdCnt := s.cmdCnt + 1#32 })

/-- R26: `CMDCNT` advances by one, modulo `2^32`, for every word but the `RST` that resets, which leaves 0; `RD 0x05`
returns the index of that `RD` itself. -/
def Obligations.CommandCountAdvances : Prop :=
  (∀ (s : State) (cw : Word) (rest : List Word), s.pending = cw :: rest →
      ∃ t, step s = .next t ∧ t.cmdCnt = if cw = 0x01000000#32 then 0#32 else s.cmdCnt + 1#32) ∧
    ∀ s : State, Reads s 0x05#8 s.cmdCnt

/-- R58, R281: a `RST` that resets leaves exactly what hardware reset leaves, `State.reset`, every element at its reset
value. Nothing is said of the words still on the port, which are no state of the block (log entry 1). -/
def Obligations.ResetClearsEverything : Prop :=
  ∀ s : State, ∃ t, exec .rst s = .next t ∧ t = { State.reset with pending := t.pending } ∧
    t.err = 0#8 ∧ t.errCmd = 0#32 ∧ t.errIdx = 0#32 ∧ t.cmdCnt = 0#32 ∧
    (∀ x, countOf t x = 0#32) ∧ t.total = 0#32 ∧
    (∀ i, nodeAt t i = { leaf := false, sym := 0#8, weight := 0#32, left := 0#9, right := 0#9 }) ∧
    (∀ i, inQueue t i = false) ∧ t.nnode = 0#10 ∧ t.nleaf = 0#9 ∧ t.qcnt = 0#9 ∧
    (∀ x, codeOf t x = []) ∧ t.ncode = 0#9 ∧ t.cstg = [] ∧
    t.pact = false ∧ t.padn = 0#4 ∧ t.acc = [] ∧
    t.uact = false ∧ t.umode = false ∧ t.uhdr = false ∧ t.candOvf = false ∧ t.upadn = 0#8 ∧ t.hb = [] ∧ t.cand = [] ∧
    t.obytes = [] ∧ t.osyms = [] ∧ t.obits = [] ∧ t.rsp = []

/-- The invariants below hold at reset (R58); the first, `Memory.wf`, is the model's representation (log entry 5). -/
def Obligations.InvariantsHoldAtReset : Prop :=
  Memory.wf State.reset = true ∧ FaultRegsOk State.reset ∧ FrequencyOk State.reset ∧ TreeOk State.reset ∧
    QueueWeightOk State.reset ∧ CodeTableOk State.reset ∧ PackerOk State.reset ∧ UnpackerOk State.reset

/-! ### What a command leaves unchanged (10_state.md, 70_reset_and_hazards.md R284, R285) -/

/-- R55: which commands write which flag, to which value; a reset clears all; a faulting command writes `FAULT` alone. -/
def Obligations.FlagWriters : Prop :=
  ∀ (i : Instr) (s t : State), exec i s = .next t →
    (i ≠ .rst →
      (t.pact = s.pact ∨ (t.pact = true ∧ (i = .pbegt ∨ ∃ n, i = .pbegi n)) ∨ (t.pact = false ∧ i = .pend)) ∧
      (t.uact = s.uact ∨ (t.uact = true ∧ ∃ m, i = .ubegin m) ∨ (t.uact = false ∧ i = .uend)) ∧
      (t.uhdr = s.uhdr ∨ (t.uhdr = false ∧ ((∃ m, i = .ubegin m) ∨ i = .uend)) ∨
        (t.uhdr = true ∧ s.uhdr = false ∧ ∃ b, i = .ubyte b)) ∧
      (t.umode = s.umode ∨ ∃ m, i = .ubegin m ∧ t.umode = (m == 1#1)) ∧
      (t.candOvf = s.candOvf ∨ (t.candOvf = false ∧ ∃ m, i = .ubegin m) ∨ (t.candOvf = true ∧ ∃ b, i = .ubyte b)) ∧
      (t.qcnt = s.qcnt ∨ i = .tload ∨ i = .tmerge ∨ i = .build)) ∧
    (s.err = 0#8 → t.err = 0#8 →
      ((i = .pbegt ∨ ∃ n, i = .pbegi n) → t.pact = true) ∧ (i = .pend → t.pact = false) ∧
      (∀ m, i = .ubegin m → t.uact = true ∧ t.uhdr = false ∧ t.umode = (m == 1#1) ∧ t.candOvf = false) ∧
      (∀ b, i = .ubyte b → t.uhdr = true) ∧ (i = .uend → t.uact = false ∧ t.uhdr = false)) ∧
    (i = .rst → t.pact = false ∧ t.uact = false ∧ t.uhdr = false ∧ t.umode = false ∧ t.candOvf = false ∧
      rootValid t = false ∧ inFault t = false) ∧
    (s.err = 0#8 → t.err ≠ 0#8 → t.pact = s.pact ∧ t.uact = s.uact ∧ t.uhdr = s.uhdr ∧ t.umode = s.umode ∧
      t.candOvf = s.candOvf ∧ rootValid t = rootValid s ∧ inFault t = true) ∧
    rootValid t = decide (t.qcnt = 1#9) ∧ inFault t = decide (t.err ≠ 0#8)

/-- R27, R28, R30 to R34, R284: `FT` and `TOTAL` are written by `FCLR`, `FACC` and reset alone, the tree and the queue by
`TLOAD`, `TMERGE`, `BUILD` and reset alone. The last clause, that no command, `RST` included, touches what the host has
presented, speaks of the model's own field `pending` and is the model's choice (log entry 1, DESIGN CHOICE), after R9 and R22. -/
def Obligations.FrequencyAndTreeWriters : Prop :=
  ∀ (i : Instr) (s t : State), exec i s = .next t →
    (writesFrequency i = false → t.ft = s.ft ∧ t.total = s.total) ∧
    (writesTree i = false →
      t.nodes = s.nodes ∧ t.inq = s.inq ∧ t.nnode = s.nnode ∧ t.nleaf = s.nleaf ∧ t.qcnt = s.qcnt) ∧
    t.pending = s.pending

/-- R37, R38, R39, R285: `CT` and `NCODE` are written by `WALK`, `CCLR`, `CSET` and reset alone, `CSTG` by `CLDB`,
`CSET`, `CCLR` and reset alone. -/
def Obligations.CodeTableWriters : Prop :=
  ∀ (i : Instr) (s t : State), exec i s = .next t →
    (writesCodes i = false → t.ct = s.ct ∧ t.ncode = s.ncode) ∧ (writesStaging i = false → t.cstg = s.cstg)

/-- R41 to R50, R180, R200: commands of other units do not change the packer's state, nor the unpacker's. -/
def Obligations.PackerAndUnpackerWriters : Prop :=
  ∀ (i : Instr) (s t : State), exec i s = .next t →
    (writesPadn i = false → t.padn = s.padn) ∧
    (writesPacker i = false → t.pact = s.pact ∧ t.acc = s.acc) ∧
    (writesUnpacker i = false → t.uact = s.uact ∧ t.umode = s.umode ∧ t.uhdr = s.uhdr ∧ t.upadn = s.upadn ∧
      t.hb = s.hb ∧ t.cand = s.cand ∧ t.candOvf = s.candOvf)

/-- R51: each stream is written by the commands its row names, and no command but the reset removes an item. -/
def Obligations.StreamsOnlyGrow : Prop :=
  ∀ (i : Instr) (s t : State), exec i s = .next t →
    (i ≠ .rst → s.obytes <+: t.obytes ∧ s.osyms <+: t.osyms ∧ s.obits <+: t.obits ∧ s.rsp <+: t.rsp) ∧
    (writesPacker i = false → t.obytes = s.obytes) ∧
    (writesDecoded i = false → t.osyms = s.osyms ∧ t.obits = s.obits) ∧
    (i ≠ .rst → (s.umode = true → t.osyms = s.osyms) ∧ (s.umode = false → t.obits = s.obits)) ∧
    (writesResponses i = false → t.rsp = s.rsp)

/-! ### System commands (46_system.md) -/

/-- R241: `NOP` is the all-zero word and only advances `CMDCNT`. -/
def Obligations.NopOnlyCounts : Prop :=
  encode .nop = 0x00000000#32 ∧ decodeWord 0x00000000#32 = .ok .nop ∧ RejectsReserved 0x00#8 0x00FFFFFF#32 ∧
    ∀ s : State, exec .nop s = .next { s with cmdCnt := s.cmdCnt + 1#32 }

/-- R243, R54: `RD r` emits the value of register `r`, in the fault state too; a number above `0x11` is `E_ILLARG`, or
dropped in the fault state. -/
def Obligations.RdReturnsTheRegister : Prop :=
  (∀ r : Byte, encode (.rd r) = 0x02000000#32 ||| r.setWidth 32) ∧ RejectsReserved 0x02#8 0x00FFFF00#32 ∧
    ∀ s : State,
      Reads s 0x00#8 0x48554607#32 ∧ Reads s 0x01#8 (statusWord s) ∧ Reads s 0x02#8 (s.err.setWidth 32) ∧ Reads s 0x03#8 s.errCmd ∧
      Reads s 0x04#8 s.errIdx ∧ Reads s 0x05#8 s.cmdCnt ∧ Reads s 0x06#8 s.total ∧
      Reads s 0x07#8 (s.nleaf.setWidth 32) ∧ Reads s 0x08#8 (s.nnode.setWidth 32) ∧
      Reads s 0x09#8 (s.qcnt.setWidth 32) ∧
      Reads s 0x0A#8 (if s.qcnt = 1#9 then s.nnode.setWidth 32 - 1#32 else 0xFFFFFFFF#32) ∧
      Reads s 0x0B#8 (s.ncode.setWidth 32) ∧ Reads s 0x0C#8 (BitVec.ofNat 32 s.cstg.length) ∧
      Reads s 0x0D#8 (s.padn.setWidth 32) ∧ Reads s 0x0E#8 (paccWord s) ∧ Reads s 0x0F#8 (s.upadn.setWidth 32) ∧
      Reads s 0x10#8 (BitVec.ofNat 32 s.hb.length) ∧ Reads s 0x11#8 (BitVec.ofNat 32 s.cand.length) ∧
      (∀ r : Byte, 0x11 < r.toNat →
        (s.err = 0#8 → exec (.rd r) s = .next (afterFault 0x02#8 (encode (.rd r)) s)) ∧
        (s.err ≠ 0#8 → exec (.rd r) s = .next { s with cmdCnt := s.cmdCnt + 1#32 }))

/-- R53, R43, R54: `RD 0x01` shows the seven flags in bits 6:0 and 0 above; `RD 0x0E` shows `NACC` in bits 10:8, the
pending bits left-aligned in bits 7:0, and 0 above. -/
def Obligations.StatusAndPaccShowTheBits : Prop :=
  ∀ s : State,
    (∃ v, Reads s 0x01#8 v ∧ v.getLsbD 0 = decide (s.err ≠ 0#8) ∧ v.getLsbD 1 = s.pact ∧ v.getLsbD 2 = s.uact ∧
      v.getLsbD 3 = s.uhdr ∧ v.getLsbD 4 = s.umode ∧ v.getLsbD 5 = s.candOvf ∧ v.getLsbD 6 = decide (s.qcnt = 1#9) ∧
      v.extractLsb' 7 25 = 0#25) ∧
    (s.acc.length ≤ 7 → ∃ v, Reads s 0x0E#8 v ∧ (v.extractLsb' 8 3).toNat = s.acc.length ∧
      bits8 (v.extractLsb' 0 8) = s.acc ++ zeroBits (8 - s.acc.length) ∧ v.extractLsb' 11 21 = 0#21)

/-! ### Frequency accumulator (40_frequency.md) -/

/-- R131: `FCLR` sets every counter and `TOTAL` to 0 and nothing else. -/
def Obligations.FclrClears : Prop :=
  encode .fclr = 0x10000000#32 ∧ RejectsReserved 0x10#8 0x00FFFFFF#32 ∧
    ∀ s : State, s.err = 0#8 → ∃ t, exec .fclr s = .next t ∧ (∀ x, countOf t x = 0#32) ∧
      t = { s with ft := t.ft, total := 0#32, cmdCnt := s.cmdCnt + 1#32 }

/-- R132: `FACC s` adds 1 to `FT[s]` and to `TOTAL` and nothing else, exactly where R29 holds; at `CNT_MAX` it faults
`E_FOVF`. -/
def Obligations.FaccCountsOne : Prop :=
  (∀ x : Byte, encode (.facc x) = 0x11000000#32 ||| x.setWidth 32) ∧ RejectsReserved 0x11#8 0x00FFFF00#32 ∧
    ∀ (s : State) (x : Byte), s.err = 0#8 →
      (s.total ≠ 0xFFFFFFFF#32 → ∃ t, exec (.facc x) s = .next t ∧ countOf t x = countOf s x + 1#32 ∧
        (∀ y, y ≠ x → countOf t y = countOf s y) ∧
        (FrequencyOk s → (countOf t x).toNat = (countOf s x).toNat + 1 ∧ t.total.toNat = s.total.toNat + 1) ∧
        t = { s with ft := t.ft, total := s.total + 1#32, cmdCnt := s.cmdCnt + 1#32 }) ∧
      (s.total = 0xFFFFFFFF#32 → exec (.facc x) s = .next (afterFault 0x04#8 (encode (.facc x)) s))

/-- R133: `FRD s` emits `FT[s]` and changes nothing but `RSP` and `CMDCNT`. -/
def Obligations.FrdReturnsTheCount : Prop :=
  (∀ x : Byte, encode (.frd x) = 0x12000000#32 ||| x.setWidth 32) ∧ RejectsReserved 0x12#8 0x00FFFF00#32 ∧
    ∀ (s : State) (x : Byte),
      (s.err = 0#8 → exec (.frd x) s = .next { s with rsp := s.rsp ++ [countOf s x], cmdCnt := s.cmdCnt + 1#32 }) ∧
      (s.err ≠ 0#8 → exec (.frd x) s = .next { s with cmdCnt := s.cmdCnt + 1#32 })

/-- R130: `FCLR` and then one `FACC` per byte of a text, in any order, leave each counter at the number of occurrences of
its symbol and `TOTAL` at the length, and change nothing else. -/
def Obligations.CountingCountsTheText : Prop :=
  ∀ (s : State) (text : List Byte), s.err = 0#8 → text.length ≤ 4294967295 →
    ∃ t, execAll (.fclr :: text.map .facc) s = .next t ∧ (∀ x, (countOf t x).toNat = text.count x) ∧
      t.total.toNat = text.length ∧ t = { s with ft := t.ft, total := t.total, cmdCnt := t.cmdCnt }

/-! ### Tree builder (41_tree_builder.md) -/

/-- R141: `TLOAD` leaves one leaf per present symbol, in ascending order of symbol, each in the queue, every other slot
the zero record, and changes nothing outside the tree. -/
def Obligations.TloadLoadsTheLeaves : Prop :=
  encode .tload = 0x20000000#32 ∧ RejectsReserved 0x20#8 0x00FFFFFF#32 ∧
    ∀ (s : State) (present : List Byte), s.err = 0#8 →
      present.Pairwise (fun x y => x.toNat < y.toNat) → (∀ x, x ∈ present ↔ 1 ≤ (countOf s x).toNat) →
      ∃ t, exec .tload s = .next t ∧
        t.nnode.toNat = present.length ∧ t.nleaf.toNat = present.length ∧ t.qcnt.toNat = present.length ∧
        (∀ j x, present[j]? = some x → nodeAt t j =
          { leaf := true, sym := x, weight := countOf s x, left := 0#9, right := 0#9 } ∧ inQueue t j = true) ∧
        (∀ j, present.length ≤ j → nodeAt t j = Node.zero ∧ inQueue t j = false) ∧
        t = { s with nodes := t.nodes, inq := t.inq, nnode := t.nnode, nleaf := t.nleaf, qcnt := t.qcnt,
                     cmdCnt := s.cmdCnt + 1#32 }

/-- R142, R143: with two queue members or more `TMERGE` joins the two whose keys `(weight, slot)` are least, the first
as left child, in slot `NNODE`; with fewer it has no effect. -/
def Obligations.TmergeJoinsTheLeastTwo : Prop :=
  encode .tmerge = 0x21000000#32 ∧ RejectsReserved 0x21#8 0x00FFFFFF#32 ∧
    ∀ s : State, s.err = 0#8 →
      (2 ≤ s.qcnt.toNat → TreeOk s → ∃ a b t, LeastTwo s a b ∧ exec .tmerge s = .next t ∧
        (nodeAt s a).weight.toNat ≤ (nodeAt s b).weight.toNat ∧ s.nnode.toNat < 511 ∧
        (QueueWeightOk s → ((nodeAt s a).weight + (nodeAt s b).weight).toNat =
          (nodeAt s a).weight.toNat + (nodeAt s b).weight.toNat) ∧
        (∀ i, nodeAt t i = if i = s.nnode.toNat then
          { leaf := false, sym := 0#8, weight := (nodeAt s a).weight + (nodeAt s b).weight,
            left := BitVec.ofNat 9 a, right := BitVec.ofNat 9 b } else nodeAt s i) ∧
        (∀ i, inQueue t i = if i = s.nnode.toNat then true else if i = a ∨ i = b then false else inQueue s i) ∧
        t = { s with nodes := t.nodes, inq := t.inq, nnode := s.nnode + 1#10, qcnt := s.qcnt - 1#9,
                     cmdCnt := s.cmdCnt + 1#32 }) ∧
      (s.qcnt.toNat < 2 → exec .tmerge s = .next { s with cmdCnt := s.cmdCnt + 1#32 })

/-- R144: `BUILD` leaves what `TLOAD` and then `max(NLEAF - 1, 0)` times `TMERGE` leave, as one command: one queue member
or none, `max(2*NLEAF - 1, 0)` nodes, the root in the last of them. -/
def Obligations.BuildIsLoadThenMerges : Prop :=
  encode .build = 0x22000000#32 ∧ RejectsReserved 0x22#8 0x00FFFFFF#32 ∧
    ∀ s : State, s.err = 0#8 → ∃ u v t, exec .tload s = .next u ∧
      execAll (List.replicate (u.nleaf.toNat - 1) .tmerge) u = .next v ∧ exec .build s = .next t ∧
      t = { v with cmdCnt := s.cmdCnt + 1#32 } ∧ t.nleaf = u.nleaf ∧ t.qcnt.toNat = min t.nleaf.toNat 1 ∧
      t.nnode.toNat = 2 * t.nleaf.toNat - 1 ∧ (1 ≤ t.nleaf.toNat → inQueue t (t.nnode.toNat - 1) = true)

/-- R146: the tree after `BUILD` is a function of `FT` alone. -/
def Obligations.BuildDependsOnCountsAlone : Prop :=
  ∀ s u : State, s.err = 0#8 → u.err = 0#8 → (∀ x, countOf s x = countOf u x) →
    ∃ t v, exec .build s = .next t ∧ exec .build u = .next v ∧
      (∀ i, nodeAt t i = nodeAt v i ∧ inQueue t i = inQueue v i) ∧
      t.nnode = v.nnode ∧ t.nleaf = v.nleaf ∧ t.qcnt = v.qcnt

/-- R149 (b), (d): where R29 holds and a symbol is present, the tree `BUILD` leaves is complete, its root weighs `TOTAL`,
and it has one internal node fewer than leaves. -/
def Obligations.BuiltRootWeighsTotal : Prop :=
  ∀ s : State, s.err = 0#8 → FrequencyOk s → s.total ≠ 0#32 → ∃ t, exec .build s = .next t ∧ t.qcnt = 1#9 ∧
    (nodeAt t (t.nnode.toNat - 1)).weight = s.total ∧ t.nnode.toNat - t.nleaf.toNat = t.nleaf.toNat - 1

/-- R36: in a complete tree the one queue member is slot `NNODE - 1`, and `RD 0x0A` returns it; otherwise `RD 0x0A` returns
all ones, and an empty queue means `NNODE = 0`. -/
def Obligations.CompleteTreeHasItsRootLast : Prop :=
  ∀ s : State, TreeOk s → rootValid s = decide (s.qcnt = 1#9) ∧
    (s.qcnt = 1#9 → 1 ≤ s.nnode.toNat ∧ (∀ i, i < 511 → (inQueue s i = true ↔ i = s.nnode.toNat - 1)) ∧
      Reads s 0x0A#8 (BitVec.ofNat 32 (s.nnode.toNat - 1))) ∧
    (s.qcnt ≠ 1#9 → Reads s 0x0A#8 0xFFFFFFFF#32) ∧
    (s.qcnt = 0#9 → s.nnode = 0#10)

/-- R148: `NRD i` emits the node's weight and then its packed fields; a slot not in use is `E_ILLARG`; the fault
state drops it. -/
def Obligations.NrdReturnsTheNode : Prop :=
  (∀ i : BitVec 9, encode (.nrd i) = 0x23000000#32 ||| i.setWidth 32) ∧ RejectsReserved 0x23#8 0x00FFFE00#32 ∧
    (∀ (s : State) (i : BitVec 9), s.err = 0#8 →
      (i.toNat < s.nnode.toNat → ∃ v : Word,
        exec (.nrd i) s =
          .next { s with rsp := s.rsp ++ [(nodeAt s i.toNat).weight, v], cmdCnt := s.cmdCnt + 1#32 } ∧
        v.getLsbD 31 = (nodeAt s i.toNat).leaf ∧ v.getLsbD 30 = inQueue s i.toNat ∧ v.extractLsb' 27 3 = 0#3 ∧
        v.extractLsb' 18 9 = (nodeAt s i.toNat).left ∧ v.extractLsb' 9 9 = (nodeAt s i.toNat).right ∧
        v.getLsbD 8 = false ∧ v.extractLsb' 0 8 = (nodeAt s i.toNat).sym) ∧
      (s.nnode.toNat ≤ i.toNat → exec (.nrd i) s = .next (afterFault 0x02#8 (encode (.nrd i)) s))) ∧
    ∀ (s : State) (i : BitVec 9), s.err ≠ 0#8 → exec (.nrd i) s = .next { s with cmdCnt := s.cmdCnt + 1#32 }

/-! ### Code-table generator (42_code_table.md) -/

/-- R161, R162, R163: `WALK` faults on an incomplete tree; else it discards the old table and stores nothing for the empty
tree, the code `0` for a lone leaf, and otherwise for each leaf the branch bits of its path from the root. -/
def Obligations.WalkDerivesTheCodes : Prop :=
  encode .walk = 0x30000000#32 ∧ RejectsReserved 0x30#8 0x00FFFFFF#32 ∧
    ∀ s : State, s.err = 0#8 →
      (2 ≤ s.qcnt.toNat → exec .walk s = .next (afterFault 0x05#8 (encode .walk) s)) ∧
      (s.qcnt = 0#9 → ∃ t, exec .walk s = .next t ∧ (∀ x, codeOf t x = []) ∧
        t = { s with ct := t.ct, ncode := 0#9, cmdCnt := s.cmdCnt + 1#32 }) ∧
      (s.qcnt = 1#9 → (nodeAt s (s.nnode.toNat - 1)).leaf = true → ∃ t, exec .walk s = .next t ∧
        (∀ x, codeOf t x = if x = (nodeAt s (s.nnode.toNat - 1)).sym then [false] else []) ∧
        t = { s with ct := t.ct, ncode := 1#9, cmdCnt := s.cmdCnt + 1#32 }) ∧
      (s.qcnt = 1#9 → (nodeAt s (s.nnode.toNat - 1)).leaf = false → TreeOk s → ∃ t, exec .walk s = .next t ∧
        (∀ x p, p ≠ [] → (codeOf t x = p ↔ ∃ m, PathTo s (s.nnode.toNat - 1) p m ∧ (nodeAt s m).leaf = true ∧
          (nodeAt s m).sym = x)) ∧
        (∀ x, codeOf t x ≠ [] ↔ ∃ m, m < s.nleaf.toNat ∧ (nodeAt s m).sym = x) ∧
        t = { s with ct := t.ct, ncode := s.nleaf, cmdCnt := s.cmdCnt + 1#32 })

/-- R164 (a), (b): after a `WALK` that does not fault exactly the leaves' symbols have codes, `NCODE = NLEAF`, and no code is
a prefix of another symbol's. -/
def Obligations.WalkIsPrefixFree : Prop :=
  ∀ s : State, s.err = 0#8 → TreeOk s → s.qcnt.toNat < 2 → ∃ t, exec .walk s = .next t ∧ t.err = 0#8 ∧
    t.ncode = s.nleaf ∧ (∀ x, codeOf t x ≠ [] ↔ ∃ m, m < s.nleaf.toNat ∧ (nodeAt s m).sym = x) ∧
    ∀ x y, x ≠ y → codeOf t x ≠ [] → codeOf t y ≠ [] → ¬ codeOf t x <+: codeOf t y

/-- R165: `CCLR` clears the code table and the staging register and nothing else. -/
def Obligations.CclrClears : Prop :=
  encode .cclr = 0x31000000#32 ∧ RejectsReserved 0x31#8 0x00FFFFFF#32 ∧
    ∀ s : State, s.err = 0#8 → ∃ t, exec .cclr s = .next t ∧ (∀ x, codeOf t x = []) ∧
      t = { s with ct := t.ct, ncode := 0#9, cstg := [], cmdCnt := s.cmdCnt + 1#32 }

/-- R166: `CLDB` appends its `k` bits, first digit first, to the staging register, or faults `E_CODELEN` when more than 255
would be staged; a word with `k > 16` or a stray bit is `E_ILLARG`. -/
def Obligations.CldbAppends : Prop :=
  (∀ (k : BitVec 5) (b : BitVec 16), encode (.cldb k b) = 0x32000000#32 ||| (k.setWidth 32 <<< 16) ||| b.setWidth 32) ∧
    RejectsReserved 0x32#8 0x00E00000#32 ∧
    (∀ cw : Word, opcodeOf cw = 0x32#8 → breaksSequence cw → decodeWord cw = .error .illArg) ∧
    ∀ (s : State) (k : BitVec 5) (b : BitVec 16), s.err = 0#8 →
      ((Instr.cldb k b).wellFormed = true → s.cstg.length + k.toNat ≤ 255 →
        ∃ q : Bits, q.length = k.toNat ∧ bitsVal q = b.toNat ∧
          exec (.cldb k b) s = .next { s with cstg := s.cstg ++ q, cmdCnt := s.cmdCnt + 1#32 }) ∧
      ((Instr.cldb k b).wellFormed = true → 255 < s.cstg.length + k.toNat →
        exec (.cldb k b) s = .next (afterFault 0x06#8 (encode (.cldb k b)) s))

/-- R167: `CSET s` commits the staged code, after its checks in the order written. -/
def Obligations.CsetCommits : Prop :=
  (∀ x : Byte, encode (.cset x) = 0x33000000#32 ||| x.setWidth 32) ∧ RejectsReserved 0x33#8 0x00FFFF00#32 ∧
    ∀ (s : State) (x : Byte), s.err = 0#8 →
      (s.cstg = [] → exec (.cset x) s = .next (afterFault 0x07#8 (encode (.cset x)) s)) ∧
      (s.cstg ≠ [] → codeOf s x ≠ [] → exec (.cset x) s = .next (afterFault 0x08#8 (encode (.cset x)) s)) ∧
      (s.cstg ≠ [] → codeOf s x = [] → (∃ y, codeOf s y = s.cstg) →
        exec (.cset x) s = .next (afterFault 0x08#8 (encode (.cset x)) s)) ∧
      (s.cstg ≠ [] → codeOf s x = [] → (∀ y, codeOf s y ≠ s.cstg) → ∃ t, exec (.cset x) s = .next t ∧
        (∀ y, codeOf t y = if y = x then s.cstg else codeOf s y) ∧
        t = { s with ct := t.ct, ncode := s.ncode + 1#9, cstg := [], cmdCnt := s.cmdCnt + 1#32 })

/-- R169, R76: `CRD s` emits nine words: the code's length, then its value as a 256-bit number, most significant word
first; the fault state drops it. -/
def Obligations.CrdReturnsNineWords : Prop :=
  (∀ x : Byte, encode (.crd x) = 0x34000000#32 ||| x.setWidth 32) ∧ RejectsReserved 0x34#8 0x00FFFF00#32 ∧
    (∀ (s : State) (x : Byte), s.err ≠ 0#8 → exec (.crd x) s = .next { s with cmdCnt := s.cmdCnt + 1#32 }) ∧
    ∀ (s : State) (x : Byte), s.err = 0#8 → (codeOf s x).length ≤ 255 → ∃ ws : List Word,
      exec (.crd x) s = .next { s with
        rsp := s.rsp ++ BitVec.ofNat 32 (codeOf s x).length :: ws, cmdCnt := s.cmdCnt + 1#32 } ∧
      ws.length = 8 ∧ ws.foldl (fun n w => 2 ^ 32 * n + w.toNat) 0 = bitsVal (codeOf s x)

/-! ### Bit packer (43_packer.md) -/

/-- R182: `PBEGT` opens a run and announces `8 - L8`, with `L8` the coded length modulo 8, which 3-bit arithmetic gives. -/
def Obligations.PbegtAnnouncesThePadding : Prop :=
  encode .pbegt = 0x40000000#32 ∧ RejectsReserved 0x40#8 0x00FFFFFF#32 ∧
    ∀ (s : State) (L8 : Nat), s.err = 0#8 →
      L8 = (allSymbols.map fun x => (countOf s x).toNat % 8 * ((codeOf s x).length % 8)).sum % 8 →
      L8 = (allSymbols.map fun x => (countOf s x).toNat * (codeOf s x).length).sum % 8 ∧
      (s.pact = false → exec .pbegt s = .next { s with
        obytes := s.obytes ++ [BitVec.ofNat 8 (8 - L8)], padn := BitVec.ofNat 4 (8 - L8), acc := [], pact := true,
        cmdCnt := s.cmdCnt + 1#32 }) ∧
      (s.pact = true → exec .pbegt s = .next (afterFault 0x03#8 (encode .pbegt) s))

/-- R183: `PBEGI i` opens a run and announces `8 - i`. -/
def Obligations.PbegiAnnouncesThePadding : Prop :=
  (∀ n : BitVec 3, encode (.pbegi n) = 0x41000000#32 ||| n.setWidth 32) ∧ RejectsReserved 0x41#8 0x00FFFFF8#32 ∧
    ∀ (s : State) (n : BitVec 3), s.err = 0#8 →
      (s.pact = false → exec (.pbegi n) s = .next { s with
        obytes := s.obytes ++ [BitVec.ofNat 8 (8 - n.toNat)], padn := BitVec.ofNat 4 (8 - n.toNat), acc := [],
        pact := true, cmdCnt := s.cmdCnt + 1#32 }) ∧
      (s.pact = true → exec (.pbegi n) s = .next (afterFault 0x03#8 (encode (.pbegi n)) s))

/-- R184, R181: in a run `ENC s` packs the code of `s`: the bytes it emits and the bits left in `ACC` are the old bits and
the code, in order, less than a byte left over. -/
def Obligations.EncPacksTheCode : Prop :=
  (∀ x : Byte, encode (.enc x) = 0x42000000#32 ||| x.setWidth 32) ∧ RejectsReserved 0x42#8 0x00FFFF00#32 ∧
    ∀ (s : State) (x : Byte), s.err = 0#8 →
      (s.pact = true → codeOf s x ≠ [] → ∃ (t : State) (out : List Byte), exec (.enc x) s = .next t ∧
        t.obytes = s.obytes ++ out ∧ out.flatMap bits8 ++ t.acc = s.acc ++ codeOf s x ∧
        out.length = (s.acc.length + (codeOf s x).length) / 8 ∧
        t.acc.length = (s.acc.length + (codeOf s x).length) % 8 ∧
        t = { s with obytes := t.obytes, acc := t.acc, cmdCnt := s.cmdCnt + 1#32 }) ∧
      (s.pact = false → exec (.enc x) s = .next (afterFault 0x03#8 (encode (.enc x)) s)) ∧
      (s.pact = true → codeOf s x = [] → exec (.enc x) s = .next (afterFault 0x09#8 (encode (.enc x)) s))

/-- R185, R181: in a run `PBITS` packs its `k` bits, first digit first; a word with `k > 16` or a stray bit is `E_ILLARG`. -/
def Obligations.PbitsPacksTheBits : Prop :=
  (∀ (k : BitVec 5) (b : BitVec 16),
      encode (.pbits k b) = 0x43000000#32 ||| (k.setWidth 32 <<< 16) ||| b.setWidth 32) ∧
    RejectsReserved 0x43#8 0x00E00000#32 ∧
    (∀ cw : Word, opcodeOf cw = 0x43#8 → breaksSequence cw → decodeWord cw = .error .illArg) ∧
    ∀ (s : State) (k : BitVec 5) (b : BitVec 16), s.err = 0#8 →
      ((Instr.pbits k b).wellFormed = true → s.pact = true → ∃ (t : State) (out : List Byte) (q : Bits),
        exec (.pbits k b) s = .next t ∧ q.length = k.toNat ∧ bitsVal q = b.toNat ∧
        t.obytes = s.obytes ++ out ∧ out.flatMap bits8 ++ t.acc = s.acc ++ q ∧
        t.acc.length = (s.acc.length + k.toNat) % 8 ∧
        t = { s with obytes := t.obytes, acc := t.acc, cmdCnt := s.cmdCnt + 1#32 }) ∧
      ((Instr.pbits k b).wellFormed = true → s.pact = false →
        exec (.pbits k b) s = .next (afterFault 0x03#8 (encode (.pbits k b)) s))

/-- R186: `PEND` emits the pending bits and the padding as one byte and closes the run, unless the announced pad count is
not the one the bits need. -/
def Obligations.PendPadsAndCloses : Prop :=
  encode .pend = 0x44000000#32 ∧ RejectsReserved 0x44#8 0x00FFFFFF#32 ∧
    ∀ s : State, s.err = 0#8 → s.acc.length ≤ 7 →
      (s.pact = true → s.padn.toNat = 8 - s.acc.length → ∃ b : Byte, bits8 b = s.acc ++ zeroBits (8 - s.acc.length) ∧
        exec .pend s = .next { s with
          obytes := s.obytes ++ [b], acc := [], pact := false, cmdCnt := s.cmdCnt + 1#32 }) ∧
      (s.pact = false → exec .pend s = .next (afterFault 0x03#8 (encode .pend) s)) ∧
      (s.pact = true → s.padn.toNat ≠ 8 - s.acc.length →
        exec .pend s = .next (afterFault 0x0A#8 (encode .pend) s))

/-! ### Bit unpacker and decoder (44_unpacker_decoder.md) -/

/-- R201: `UBEGIN m` opens a run in mode `m` with everything of the unpacker cleared. -/
def Obligations.UbeginOpensARun : Prop :=
  (∀ m : BitVec 1, encode (.ubegin m) = 0x50000000#32 ||| m.setWidth 32) ∧ RejectsReserved 0x50#8 0x00FFFFFE#32 ∧
    ∀ (s : State) (m : BitVec 1), s.err = 0#8 →
      (s.uact = false → exec (.ubegin m) s = .next { s with
        uact := true, umode := decide (m = 1#1), uhdr := false, upadn := 0#8, hb := [], cand := [], candOvf := false,
        cmdCnt := s.cmdCnt + 1#32 }) ∧
      (s.uact = true → exec (.ubegin m) s = .next (afterFault 0x03#8 (encode (.ubegin m)) s))

/-- R202, R203, R204: the first `UBYTE` of a run is the pad count, any value; a body byte's bits go behind the held ones,
bit 7 first, the newest `UPADN` stay held, and in raw mode the others go to `OBITS` oldest first. -/
def Obligations.UbyteHoldsBackAndReleases : Prop :=
  (∀ b : Byte, encode (.ubyte b) = 0x51000000#32 ||| b.setWidth 32) ∧ RejectsReserved 0x51#8 0x00FFFF00#32 ∧
    (∀ b : Byte, bits8 b = [b.getLsbD 7, b.getLsbD 6, b.getLsbD 5, b.getLsbD 4, b.getLsbD 3, b.getLsbD 2,
      b.getLsbD 1, b.getLsbD 0]) ∧
    ∀ (s : State) (b : Byte), s.err = 0#8 →
      (s.uact = false → exec (.ubyte b) s = .next (afterFault 0x03#8 (encode (.ubyte b)) s)) ∧
      (s.uact = true → s.uhdr = false →
        exec (.ubyte b) s = .next { s with upadn := b, uhdr := true, cmdCnt := s.cmdCnt + 1#32 }) ∧
      (s.uact = true → s.uhdr = true → s.umode = true → ∀ (out held : Bits), out ++ held = s.hb ++ bits8 b →
        held.length = min s.upadn.toNat (s.hb.length + 8) →
        exec (.ubyte b) s = .next { s with hb := held, obits := s.obits ++ out, cmdCnt := s.cmdCnt + 1#32 }) ∧
      (UnpackerOk s → (s.hb ++ bits8 b).length ≤ 263)

/-- R205: in decode mode the released bits go, in order, through the greedy decoder over the table as it is now. -/
def Obligations.UbyteDecodesGreedily : Prop :=
  ∀ (s : State) (b : Byte) (out held : Bits), s.err = 0#8 → s.uact = true → s.uhdr = true → s.umode = false →
    out ++ held = s.hb ++ bits8 b → held.length = min s.upadn.toNat (s.hb.length + 8) →
    ∃ (t : State) (syms : List Byte), exec (.ubyte b) s = .next t ∧
      Greedy (codeOf s) s.cand s.candOvf out t.cand t.candOvf syms ∧
      t = { s with hb := held, cand := t.cand, candOvf := t.candOvf, osyms := s.osyms ++ syms,
                   cmdCnt := s.cmdCnt + 1#32 }

/-- R206: `UEND` makes its checks in the order written, then discards the held padding and closes the run. -/
def Obligations.UendChecksAndCloses : Prop :=
  encode .uend = 0x52000000#32 ∧ RejectsReserved 0x52#8 0x00FFFFFF#32 ∧
    (∀ s : State, UnpackerOk s → (s.upadn.toNat ≤ s.hb.length → s.hb.length = s.upadn.toNat) ∧
      (s.candOvf = true → s.cand.length = 255)) ∧
    ∀ s : State, s.err = 0#8 → exec .uend s = .next (
      if s.uact = false then afterFault 0x03#8 (encode .uend) s
      else if s.uhdr = false then afterFault 0x0B#8 (encode .uend) s
      else if s.hb.length < s.upadn.toNat then afterFault 0x0B#8 (encode .uend) s
      else if s.umode = false ∧ 1 ≤ s.cand.length then afterFault 0x0C#8 (encode .uend) s
      else { s with hb := [], uact := false, uhdr := false, cmdCnt := s.cmdCnt + 1#32 })

/-! ### Invariants every step keeps, from every state that has them -/

/-- The model's representation of the four tables, and no rule of the spec (log entry 5, DESIGN CHOICE): the tables of R70,
with the reset values of R58, stay lists in rising order of the entry number that list no entry at its reset value, so that
equal tables are equal data. -/
def Obligations.StepKeepsTablesCanonical : Prop :=
  ∀ s t : State, Memory.wf s = true → step s = .next t → Memory.wf t = true

/-- R23, R24, R25, V6: `ERR` is 0 or a code of R250, and the record is 0 while `ERR` is. -/
def Obligations.StepKeepsFaultRegisters : Prop :=
  ∀ s t : State, FaultRegsOk s → step s = .next t → FaultRegsOk t

/-- R29: `TOTAL` stays the sum of the counters. -/
def Obligations.StepKeepsFrequency : Prop :=
  ∀ s t : State, FrequencyOk s → step s = .next t → FrequencyOk t

/-- R35 (a) to (f): the node table stays a forest over ascending leaves, owned by the queue. -/
def Obligations.StepKeepsTree : Prop :=
  ∀ s t : State, TreeOk s → step s = .next t → TreeOk t

/-- R35 (g), R147: the weights in the queue sum to a count, so no sum of weights wraps. -/
def Obligations.StepKeepsQueueWeight : Prop :=
  ∀ s t : State, FrequencyOk s → TreeOk s → QueueWeightOk s → step s = .next t → QueueWeightOk t

/-- R37 to R40: the codes stay within 255 bits, counted, and pairwise different. -/
def Obligations.StepKeepsCodeTable : Prop :=
  ∀ s t : State, TreeOk s → CodeTableOk s → step s = .next t → CodeTableOk t

/-- R42, R43: the packer's bounds. -/
def Obligations.StepKeepsPacker : Prop :=
  ∀ s t : State, PackerOk s → step s = .next t → PackerOk t

/-- R48, R49, R50, R203: the unpacker's bounds; the held bits never exceed the pad count. -/
def Obligations.StepKeepsUnpacker : Prop :=
  ∀ s t : State, UnpackerOk s → step s = .next t → UnpackerOk t

/-! ### Runs of commands, and the host's functions -/

/-- R187: a packing run of the bit sequence `B`, opened with its length modulo 8, ends without fault and has emitted the
bytes of `bits8(p) ++ B ++ 0^p` with `p = 8 - (|B| mod 8)`; opened with another residue it faults `E_PADMIS`. -/
def Obligations.PackingRunEmitsPaddedBits : Prop :=
  ∀ (s : State) (n : BitVec 3) (body : List Instr) (B : Bits), s.err = 0#8 → s.pact = false →
    PackBody (codeOf s) body B → ∃ t, execAll (.pbegi n :: body ++ [.pend]) s = .next t ∧
      (n.toNat = B.length % 8 → t.err = 0#8 ∧ t.pact = false ∧ ∃ out : List Byte, t.obytes = s.obytes ++ out ∧
        out.flatMap bits8 =
          bits8 (BitVec.ofNat 8 (8 - B.length % 8)) ++ B ++ zeroBits (8 - B.length % 8)) ∧
      (n.toNat ≠ B.length % 8 → t.err = 0x0A#8)

/-- R207 (a), (c): a raw run over a payload emits the body's bits without their last `N`, so over the bytes of
`bits8(p) ++ B ++ 0^p` it emits `B`; with fewer than `N` body bits, or no byte at all, it faults `E_MALFORMED`. -/
def Obligations.RawRunRemovesThePadding : Prop :=
  ∀ s : State, s.err = 0#8 → s.uact = false →
    (∀ (N : Byte) (body : List Byte), ∃ t,
      execAll (.ubegin 1#1 :: .ubyte N :: body.map .ubyte ++ [.uend]) s = .next t ∧
      (N.toNat ≤ 8 * body.length → t.err = 0#8 ∧ t.uact = false ∧
        t.obits = s.obits ++ (body.flatMap bits8).take (8 * body.length - N.toNat)) ∧
      (8 * body.length < N.toNat → t.err = 0x0B#8)) ∧
    (∀ (B : Bits) (payload : List Byte),
      payload.flatMap bits8 = bits8 (BitVec.ofNat 8 (8 - B.length % 8)) ++ B ++ zeroBits (8 - B.length % 8) →
      ∃ t, execAll (.ubegin 1#1 :: payload.map .ubyte ++ [.uend]) s = .next t ∧ t.err = 0#8 ∧
        t.obits = s.obits ++ B) ∧
    ∃ t, execAll [.ubegin 1#1, .uend] s = .next t ∧ t.err = 0x0B#8

/-- R205, R207 (b): where the codes of the table are prefix-free and at most 255 bits long, a decode run over the payload of a
packing run of a text whose symbols all have codes emits the text and does not fault. -/
def Obligations.DecodeRunUndoesPackingRun : Prop :=
  ∀ (s : State) (n : BitVec 3) (text : List Byte), s.err = 0#8 → s.pact = false → s.uact = false →
    (∀ x ∈ text, codeOf s x ≠ []) → (∀ x, (codeOf s x).length ≤ 255) →
    (∀ x y, x ≠ y → codeOf s x ≠ [] → ¬ codeOf s x <+: codeOf s y) →
    n.toNat = (text.flatMap (codeOf s)).length % 8 →
    ∃ (t u : State) (payload : List Byte), execAll (.pbegi n :: text.map .enc ++ [.pend]) s = .next t ∧ t.err = 0#8 ∧
      t.obytes = s.obytes ++ payload ∧ execAll (.ubegin 0#1 :: payload.map .ubyte ++ [.uend]) t = .next u ∧
      u.err = 0#8 ∧ u.osyms = s.osyms ++ text

/-- R187, R207 (d): for every text of at most `CNT_MAX` bytes, counting it, building the tree, walking it and encoding the text
behind `PBEGT` raises no fault, and a decode run over the payload emits the text and raises none. R226, R227, R229, the same
over the container blob: from whatever states of the block, the canonical compression sequence ends with `ERR = 0` and gives
a blob, and the canonical decompression of that blob ends with `ERR = 0` and gives the text. -/
def Obligations.CodecRoundTrip : Prop :=
  (∀ (s : State) (text : List Byte), s.err = 0#8 → s.pact = false → s.uact = false → text.length ≤ 4294967295 →
    ∃ (t u : State) (payload : List Byte),
      execAll (.fclr :: text.map .facc ++ [.build, .walk, .pbegt] ++ text.map .enc ++ [.pend]) s = .next t ∧
      t.err = 0#8 ∧ t.obytes = s.obytes ++ payload ∧
      execAll (.ubegin 0#1 :: payload.map .ubyte ++ [.uend]) t = .next u ∧ u.err = 0#8 ∧ u.osyms = s.osyms ++ text) ∧
    ∀ (s u : State) (text : List Byte), text.length ≤ 4294967295 →
      ∃ (t v : State) (blob : List Byte) (commands : List Instr),
        execAll (compressCommands text) s = .next t ∧ t.err = 0#8 ∧ blob = writeBlob (serializeTable t) t.obytes ∧
        compress text s = .ok blob ∧ decompressBlob blob = .ok commands ∧ execAll commands u = .next v ∧ v.err = 0#8 ∧
        v.osyms = text ∧ decompress blob u = .ok text

/-- R221, R222: `read(write(table, payload)) = (table, payload)`, empty sequences included, and `read` fails exactly on a
blob shorter than its prefix declares. -/
def Obligations.ReadUndoesWrite : Prop :=
  (∀ table payload : List Byte, table.length < 2 ^ 32 → readBlob (writeBlob table payload) = .ok (table, payload)) ∧
    (∀ blob : List Byte, blob.length < 4 → readBlob blob = .error .malformedContainer) ∧
    ∀ (n : Nat) (rest : List Byte), n < 2 ^ 32 → rest.length < n →
      readBlob (le32 n ++ rest) = .error .malformedContainer

/-- R224: deserializing a serialized code table gives its entries back, exactly. -/
def Obligations.DeserializeUndoesSerialize : Prop :=
  ∀ s : State, CodeTableOk s → deserializeTable (serializeTable s) = .ok (tableEntries s)

/-- R225, both directions. In: loading the entries of a code table into the block restores the table without a fault. Out:
the words that `CRD 0 ... CRD 255` return give the table's entries, those with a nonzero first word, and so its serialized
form; the commands change nothing else but `CMDCNT`. -/
def Obligations.LoadingRestoresTheTable : Prop :=
  (∀ s u : State, CodeTableOk s → u.err = 0#8 → ∃ t, execAll (loadTableCommands (tableEntries s)) u = .next t ∧
    t.err = 0#8 ∧ (∀ x, codeOf t x = codeOf s x) ∧ t.ncode = s.ncode ∧ t.cstg = []) ∧
    ∀ s : State, CodeTableOk s → s.err = 0#8 → ∃ ws : List Word,
      execAll (allSymbols.map .crd) s = .next { s with rsp := s.rsp ++ ws, cmdCnt := s.cmdCnt + 256#32 } ∧
      responseEntries allSymbols ws = tableEntries s ∧ serializeResponses ws = serializeTable s
end

