-- ==== Sys2Proof/Laws/Bits.lean ====
section
/-! SUPPORT. Bit sequences and the numbers and bytes they stand for. -/

namespace Sys2Proof.Machine

@[simp] theorem bitsVal_nil : bitsVal [] = 0 := rfl

/-- The last bit is the least significant. -/
theorem bitsVal_concat (s : Bits) (b : Bool) : bitsVal (s ++ [b]) = 2 * bitsVal s + b.toNat := by
  simp [bitsVal]

/-- The value of a concatenation. -/
theorem bitsVal_append (s t : Bits) : bitsVal (s ++ t) = bitsVal s * 2 ^ t.length + bitsVal t := by
  induction t using List.reverseRecOn with
  | nil => simp
  | append_singleton t b ih =>
    rw [← List.append_assoc, bitsVal_concat, ih, bitsVal_concat, List.length_append, List.length_singleton, pow_succ]
    ring

/-- A sequence's value has as many binary digits as the sequence has bits. -/
theorem bitsVal_lt (s : Bits) : bitsVal s < 2 ^ s.length := by
  induction s using List.reverseRecOn with
  | nil => simp
  | append_singleton s b ih =>
    rw [bitsVal_concat, List.length_append, List.length_singleton, pow_succ]
    have := Bool.toNat_lt b
    omega

@[simp] theorem lowBits_length (k n : Nat) : (lowBits k n).length = k := by simp [lowBits]

@[simp] theorem bits8_length (b : Byte) : (bits8 b).length = 8 := lowBits_length 8 _

@[simp] theorem seqOf_length (k : BitVec 5) (bits : BitVec 16) : (seqOf k bits).length = k.toNat := lowBits_length _ _

@[simp] theorem zeroBits_length (p : Nat) : (zeroBits p).length = p := by simp [zeroBits]

@[simp] theorem bitsVal_zeroBits (p : Nat) : bitsVal (zeroBits p) = 0 := by
  induction p with
  | zero => rfl
  | succ p ih => rw [zeroBits, List.replicate_succ', ← zeroBits, bitsVal_concat, ih]; rfl

/-- One bit more, from the most significant end of the numeral. -/
theorem lowBits_succ (k n : Nat) : lowBits (k + 1) n = n.testBit k :: lowBits k n := by
  simp [lowBits, List.range_succ]

/-- One bit more, from the least significant end of the numeral. -/
theorem lowBits_succ' (k n : Nat) : lowBits (k + 1) n = lowBits k (n / 2) ++ [n.testBit 0] := by
  induction k with
  | zero => simp [lowBits]
  | succ k ih =>
    rw [lowBits_succ, ih, lowBits_succ, List.cons_append, Nat.testBit_div_two]

/-- The digits of a number, read back. -/
theorem bitsVal_lowBits (k n : Nat) : bitsVal (lowBits k n) = n % 2 ^ k := by
  induction k generalizing n with
  | zero => simp [lowBits, Nat.mod_one]
  | succ k ih =>
    rw [lowBits_succ', bitsVal_concat, ih, Nat.testBit_zero, pow_succ]
    have h : (decide (n % 2 = 1)).toNat = n % 2 := by rcases Nat.mod_two_eq_zero_or_one n with h | h <;> simp [h]
    rw [h, mul_comm (2 ^ k) 2, Nat.mod_mul]
    omega

/-- The sequence is the numeral of its value. -/
theorem lowBits_bitsVal (s : Bits) : lowBits s.length (bitsVal s) = s := by
  induction s using List.reverseRecOn with
  | nil => rfl
  | append_singleton s b ih =>
    rw [List.length_append, List.length_singleton, lowBits_succ', bitsVal_concat]
    have h1 : (2 * bitsVal s + b.toNat) / 2 = bitsVal s := by have := Bool.toNat_lt b; omega
    have h2 : (2 * bitsVal s + b.toNat).testBit 0 = b := by cases b <;> simp [Nat.testBit_zero]
    rw [h1, h2, ih]

/-- Sequences of one length with one value are the same sequence. -/
theorem bitsVal_inj {s t : Bits} (hl : s.length = t.length) (hv : bitsVal s = bitsVal t) : s = t := by
  rw [← lowBits_bitsVal s, ← lowBits_bitsVal t, hl, hv]

/-- `byte(bits8(b)) = b`. -/
@[simp] theorem byteOf_bits8 (b : Byte) : byteOf (bits8 b) = b := by
  apply BitVec.eq_of_toNat_eq
  have := b.isLt
  simp only [byteOf, bits8, bitsVal_lowBits, BitVec.toNat_ofNat]
  omega

/-- `bits8(byte(s)) = s` for eight bits. -/
theorem bits8_byteOf {s : Bits} (h : s.length = 8) : bits8 (byteOf s) = s := by
  have hlt := bitsVal_lt s
  rw [h] at hlt
  rw [bits8, byteOf, BitVec.toNat_ofNat, Nat.mod_eq_of_lt hlt, ← h, lowBits_bitsVal]

/-- The value of a format `B` sequence is its field (R103). -/
theorem bitsVal_seqOf {k : BitVec 5} {bits : BitVec 16} (h : bits.toNat < 2 ^ k.toNat) :
    bitsVal (seqOf k bits) = bits.toNat := by
  rw [seqOf, bitsVal_lowBits, Nat.mod_eq_of_lt h]

/-- The symbols are all the bytes. -/
@[simp] theorem mem_allSymbols (x : Byte) : x ∈ allSymbols := by
  simp only [allSymbols, List.mem_map, List.mem_range]
  exact ⟨x.toNat, x.isLt, by simp⟩

/-- The symbols rise. -/
theorem allSymbols_pairwise : allSymbols.Pairwise fun x y => x.toNat < y.toNat := by
  simp only [allSymbols, List.pairwise_map]
  refine (List.pairwise_lt_range).imp_of_mem fun {a b} ha hb hab => ?_
  have ha : a < 256 := List.mem_range.mp ha
  have hb : b < 256 := List.mem_range.mp hb
  simp only [BitVec.toNat_ofNat]
  omega

@[simp] theorem allSymbols_length : allSymbols.length = 256 := by simp [allSymbols]

theorem allSymbols_nodup : allSymbols.Nodup :=
  allSymbols_pairwise.imp fun h heq => by rw [heq] at h; omega

end Sys2Proof.Machine
end

