-- ==== Sys2Proof/Laws/Table.lean ====
section
/-! SUPPORT. What a table write does to every read (unconditionally), and that it keeps the canonical form. -/

namespace Sys2Proof

variable {α : Type} {d v : α} {t : Table α} {i j n : Nat}

@[simp] theorem Table.read_nil (d : α) (i : Nat) : Table.read d ([] : Table α) i = d := rfl

theorem Table.read_erase_same (d : α) (t : Table α) (i : Nat) : Table.read d (Table.erase t i) i = d := by
  induction t with
  | nil => rfl
  | cons e rest ih =>
    obtain ⟨k, w⟩ := e
    by_cases h : k = i
    · simpa [Table.erase, h] using ih
    · simp only [Table.erase] at ih ⊢
      simp [h, Table.read, Ne.symm h, ih]

theorem Table.read_erase_other (h : j ≠ i) : Table.read d (Table.erase t i) j = Table.read d t j := by
  induction t with
  | nil => rfl
  | cons e rest ih =>
    obtain ⟨k, w⟩ := e
    simp only [Table.erase] at ih ⊢
    by_cases hk : k = i
    · subst hk
      simp [Table.read, h, ih]
    · simp [hk, Table.read, ih]

theorem Table.read_insert_other (h : j ≠ i) : Table.read d (Table.insert i v t) j = Table.read d t j := by
  induction t with
  | nil => simp [Table.insert, Table.read, h]
  | cons e rest ih =>
    obtain ⟨k, w⟩ := e
    by_cases hk : i < k
    · simp [Table.insert, hk, Table.read, h]
    · simp [Table.insert, hk, Table.read, ih]

theorem Table.read_insert_same (h : ∀ e ∈ t, e.1 ≠ i) : Table.read d (Table.insert i v t) i = v := by
  induction t with
  | nil => simp [Table.insert, Table.read]
  | cons e rest ih =>
    obtain ⟨k, w⟩ := e
    have hk : i ≠ k := fun hik => h (k, w) (by simp) hik.symm
    by_cases hlt : i < k
    · simp [Table.insert, hlt, Table.read]
    · simp [Table.insert, hlt, Table.read, hk, ih fun e he => h e (by simp [he])]

theorem Table.erase_ne (t : Table α) (i : Nat) : ∀ e ∈ Table.erase t i, e.1 ≠ i := by
  simp [Table.erase]

variable [DecidableEq α]

/-- A read after a write to the same entry gives what was written, whatever the table. -/
@[simp] theorem Table.read_write_same (d v : α) (t : Table α) (i : Nat) :
    Table.read d (Table.write d t i v) i = v := by
  unfold Table.write
  split
  · next h => rw [Table.read_erase_same, h]
  · exact Table.read_insert_same (Table.erase_ne t i)

/-- A write leaves every other entry alone, whatever the table. -/
theorem Table.read_write_other (h : j ≠ i) : Table.read d (Table.write d t i v) j = Table.read d t j := by
  unfold Table.write
  split
  · exact Table.read_erase_other h
  · rw [Table.read_insert_other h, Table.read_erase_other h]

/-- Every read after a write. -/
theorem Table.read_write (d v : α) (t : Table α) (i j : Nat) :
    Table.read d (Table.write d t i v) j = if j = i then v else Table.read d t j := by
  split
  · next h => rw [h, Table.read_write_same]
  · next h => exact Table.read_write_other h

omit [DecidableEq α] in
theorem Table.rising_erase (h : Table.rising t = true) : Table.rising (Table.erase t i) = true := by
  induction t with
  | nil => rfl
  | cons e rest ih =>
    obtain ⟨k, w⟩ := e
    simp only [Table.rising, Bool.and_eq_true, List.all_eq_true, decide_eq_true_eq] at h
    have ih' := ih h.2
    simp only [Table.erase] at ih' ⊢
    by_cases hk : k = i
    · simpa [hk] using ih'
    · simp only [List.filter_cons, bne_iff_ne, ne_eq, hk, not_false_iff, if_true, Table.rising,
        Bool.and_eq_true, List.all_eq_true, decide_eq_true_eq]
      exact ⟨fun e he => h.1 e (List.mem_filter.mp he).1, ih'⟩

theorem Table.mem_insert {e : Nat × α} : e ∈ Table.insert i v t ↔ e = (i, v) ∨ e ∈ t := by
  induction t with
  | nil => simp [Table.insert]
  | cons e' rest ih =>
    obtain ⟨k, w⟩ := e'
    by_cases hk : i < k
    · simp [Table.insert, hk]
    · simp only [Table.insert, hk, if_false, List.mem_cons, ih]
      tauto

theorem Table.rising_insert (h : Table.rising t = true) (hne : ∀ e ∈ t, e.1 ≠ i) :
    Table.rising (Table.insert i v t) = true := by
  induction t with
  | nil => rfl
  | cons e rest ih =>
    obtain ⟨k, w⟩ := e
    have hr : (∀ e ∈ rest, k < e.1) ∧ Table.rising rest = true := by
      simpa only [Table.rising, Bool.and_eq_true, List.all_eq_true, decide_eq_true_eq] using h
    have hk : k ≠ i := hne (k, w) (by simp)
    by_cases hlt : i < k
    · simp only [Table.insert, hlt, if_true, Table.rising, Bool.and_eq_true, List.all_eq_true, decide_eq_true_eq,
        List.mem_cons, forall_eq_or_imp]
      exact ⟨⟨trivial, fun e he => hlt.trans (hr.1 e he)⟩, hr.1, hr.2⟩
    · simp only [Table.insert, hlt, if_false, Table.rising, Bool.and_eq_true, List.all_eq_true, decide_eq_true_eq]
      refine ⟨fun e he => ?_, ih hr.2 fun e he => hne e (by simp [he])⟩
      rcases Table.mem_insert.mp he with rfl | he
      · change k < i
        omega
      · exact hr.1 e he

/-- The canonical form, as a proposition about the entries. -/
theorem Table.canonical_iff :
    Table.canonical d n t = true ↔ Table.rising t = true ∧ ∀ e ∈ t, e.1 < n ∧ e.2 ≠ d := by
  simp only [Table.canonical, Bool.and_eq_true, List.all_eq_true, decide_eq_true_eq]

@[simp] theorem Table.canonical_nil (d : α) (n : Nat) : Table.canonical d n ([] : Table α) = true := rfl

/-- A write inside the table's range keeps the canonical form. -/
theorem Table.canonical_write (h : Table.canonical d n t = true) (hi : i < n) :
    Table.canonical d n (Table.write d t i v) = true := by
  rw [Table.canonical_iff] at h ⊢
  unfold Table.write
  split
  · exact ⟨Table.rising_erase h.1, fun e he => h.2 e (List.mem_filter.mp he).1⟩
  · next hv =>
    refine ⟨Table.rising_insert (Table.rising_erase h.1) (Table.erase_ne t i), fun e he => ?_⟩
    rcases Table.mem_insert.mp he with rfl | he
    · exact ⟨hi, hv⟩
    · exact h.2 e (List.mem_filter.mp he).1

omit [DecidableEq α] in
/-- In the canonical form an index that is listed reads as its entry. -/
theorem Table.read_of_mem (h : Table.rising t = true) {w : α} (hm : (i, w) ∈ t) : Table.read d t i = w := by
  induction t with
  | nil => simp at hm
  | cons e rest ih =>
    obtain ⟨k, u⟩ := e
    have hr : (∀ e ∈ rest, k < e.1) ∧ Table.rising rest = true := by
      simpa only [Table.rising, Bool.and_eq_true, List.all_eq_true, decide_eq_true_eq] using h
    rcases List.mem_cons.mp hm with h1 | h1
    · obtain ⟨rfl, rfl⟩ := Prod.mk.injEq .. ▸ h1
      simp [Table.read]
    · have : k < i := hr.1 _ h1
      simp [Table.read, Nat.ne_of_gt this, ih hr.2 h1]

/-- In the canonical form the listed entries are those that do not read as the reset value. -/
theorem Table.mem_iff_read (h : Table.canonical d n t = true) {w : α} :
    (i, w) ∈ t ↔ Table.read d t i = w ∧ w ≠ d := by
  obtain ⟨hr, hb⟩ := Table.canonical_iff.mp h
  constructor
  · exact fun hm => ⟨Table.read_of_mem hr hm, (hb _ hm).2⟩
  · rintro ⟨hw, hd⟩
    clear h hr hb
    induction t with
    | nil => exact absurd hw.symm hd
    | cons e rest ih =>
      obtain ⟨k, u⟩ := e
      by_cases hk : i = k
      · simp [Table.read, hk] at hw
        simp [hk, hw]
      · simp [Table.read, hk] at hw
        exact List.mem_cons_of_mem _ (ih hw)

/-- Canonical tables that read alike everywhere are equal data. -/
theorem Table.ext_of_read {t u : Table α} (ht : Table.canonical d n t = true) (hu : Table.canonical d n u = true)
    (h : ∀ i, Table.read d t i = Table.read d u i) : t = u := by
  have key : ∀ (t : Table α), Table.rising t = true → (t.map Prod.fst).Pairwise (· < ·) := by
    intro t
    induction t with
    | nil => simp
    | cons e rest ih =>
      intro hr
      simp only [Table.rising, Bool.and_eq_true, List.all_eq_true, decide_eq_true_eq] at hr
      simp only [List.map_cons, List.pairwise_cons, List.mem_map, forall_exists_index, and_imp, forall_apply_eq_imp_iff₂]
      exact ⟨hr.1, ih hr.2⟩
  have hp : t.Perm u := by
    refine (List.perm_ext_iff_of_nodup ?_ ?_).mpr fun e => ?_
    · exact (List.Pairwise.imp Nat.ne_of_lt (key t (Table.canonical_iff.mp ht).1)).of_map _ fun _ _ h1 h2 => h1 (by rw [h2])
    · exact (List.Pairwise.imp Nat.ne_of_lt (key u (Table.canonical_iff.mp hu).1)).of_map _ fun _ _ h1 h2 => h1 (by rw [h2])
    · obtain ⟨i, w⟩ := e
      rw [Table.mem_iff_read ht, Table.mem_iff_read hu, h]
  refine hp.eq_of_pairwise (le := fun a b => a.1 < b.1) ?_ ?_ ?_
  · intro a b _ _ h1 h2
    omega
  · exact (key t (Table.canonical_iff.mp ht).1).of_map _ fun _ _ h => h
  · exact (key u (Table.canonical_iff.mp hu).1).of_map _ fun _ _ h => h

end Sys2Proof
end

