-- ==== Sys2Proof/Laws/State.lean ====
section
/-! SUPPORT. What each named update of the state leaves alone, field by field, and what each accessor reads after it. -/

namespace Sys2Proof.Machine

variable (s : State)

/-! ### `setCount` -/

@[simp] theorem setCount_err (sym : Byte) (v : Word) : (setCount s sym v).err = s.err := rfl
@[simp] theorem setCount_errCmd (sym : Byte) (v : Word) : (setCount s sym v).errCmd = s.errCmd := rfl
@[simp] theorem setCount_errIdx (sym : Byte) (v : Word) : (setCount s sym v).errIdx = s.errIdx := rfl
@[simp] theorem setCount_cmdCnt (sym : Byte) (v : Word) : (setCount s sym v).cmdCnt = s.cmdCnt := rfl
@[simp] theorem setCount_total (sym : Byte) (v : Word) : (setCount s sym v).total = s.total := rfl
@[simp] theorem setCount_nodes (sym : Byte) (v : Word) : (setCount s sym v).nodes = s.nodes := rfl
@[simp] theorem setCount_inq (sym : Byte) (v : Word) : (setCount s sym v).inq = s.inq := rfl
@[simp] theorem setCount_nnode (sym : Byte) (v : Word) : (setCount s sym v).nnode = s.nnode := rfl
@[simp] theorem setCount_nleaf (sym : Byte) (v : Word) : (setCount s sym v).nleaf = s.nleaf := rfl
@[simp] theorem setCount_qcnt (sym : Byte) (v : Word) : (setCount s sym v).qcnt = s.qcnt := rfl
@[simp] theorem setCount_ct (sym : Byte) (v : Word) : (setCount s sym v).ct = s.ct := rfl
@[simp] theorem setCount_ncode (sym : Byte) (v : Word) : (setCount s sym v).ncode = s.ncode := rfl
@[simp] theorem setCount_cstg (sym : Byte) (v : Word) : (setCount s sym v).cstg = s.cstg := rfl
@[simp] theorem setCount_pact (sym : Byte) (v : Word) : (setCount s sym v).pact = s.pact := rfl
@[simp] theorem setCount_padn (sym : Byte) (v : Word) : (setCount s sym v).padn = s.padn := rfl
@[simp] theorem setCount_acc (sym : Byte) (v : Word) : (setCount s sym v).acc = s.acc := rfl
@[simp] theorem setCount_uact (sym : Byte) (v : Word) : (setCount s sym v).uact = s.uact := rfl
@[simp] theorem setCount_umode (sym : Byte) (v : Word) : (setCount s sym v).umode = s.umode := rfl
@[simp] theorem setCount_uhdr (sym : Byte) (v : Word) : (setCount s sym v).uhdr = s.uhdr := rfl
@[simp] theorem setCount_upadn (sym : Byte) (v : Word) : (setCount s sym v).upadn = s.upadn := rfl
@[simp] theorem setCount_hb (sym : Byte) (v : Word) : (setCount s sym v).hb = s.hb := rfl
@[simp] theorem setCount_cand (sym : Byte) (v : Word) : (setCount s sym v).cand = s.cand := rfl
@[simp] theorem setCount_candOvf (sym : Byte) (v : Word) : (setCount s sym v).candOvf = s.candOvf := rfl
@[simp] theorem setCount_obytes (sym : Byte) (v : Word) : (setCount s sym v).obytes = s.obytes := rfl
@[simp] theorem setCount_osyms (sym : Byte) (v : Word) : (setCount s sym v).osyms = s.osyms := rfl
@[simp] theorem setCount_obits (sym : Byte) (v : Word) : (setCount s sym v).obits = s.obits := rfl
@[simp] theorem setCount_rsp (sym : Byte) (v : Word) : (setCount s sym v).rsp = s.rsp := rfl
@[simp] theorem setCount_pending (sym : Byte) (v : Word) : (setCount s sym v).pending = s.pending := rfl

/-! ### `setNode` -/

@[simp] theorem setNode_err (i : Nat) (n : Node) : (setNode s i n).err = s.err := by unfold setNode; split <;> rfl
@[simp] theorem setNode_errCmd (i : Nat) (n : Node) : (setNode s i n).errCmd = s.errCmd := by unfold setNode; split <;> rfl
@[simp] theorem setNode_errIdx (i : Nat) (n : Node) : (setNode s i n).errIdx = s.errIdx := by unfold setNode; split <;> rfl
@[simp] theorem setNode_cmdCnt (i : Nat) (n : Node) : (setNode s i n).cmdCnt = s.cmdCnt := by unfold setNode; split <;> rfl
@[simp] theorem setNode_ft (i : Nat) (n : Node) : (setNode s i n).ft = s.ft := by unfold setNode; split <;> rfl
@[simp] theorem setNode_total (i : Nat) (n : Node) : (setNode s i n).total = s.total := by unfold setNode; split <;> rfl
@[simp] theorem setNode_inq (i : Nat) (n : Node) : (setNode s i n).inq = s.inq := by unfold setNode; split <;> rfl
@[simp] theorem setNode_nnode (i : Nat) (n : Node) : (setNode s i n).nnode = s.nnode := by unfold setNode; split <;> rfl
@[simp] theorem setNode_nleaf (i : Nat) (n : Node) : (setNode s i n).nleaf = s.nleaf := by unfold setNode; split <;> rfl
@[simp] theorem setNode_qcnt (i : Nat) (n : Node) : (setNode s i n).qcnt = s.qcnt := by unfold setNode; split <;> rfl
@[simp] theorem setNode_ct (i : Nat) (n : Node) : (setNode s i n).ct = s.ct := by unfold setNode; split <;> rfl
@[simp] theorem setNode_ncode (i : Nat) (n : Node) : (setNode s i n).ncode = s.ncode := by unfold setNode; split <;> rfl
@[simp] theorem setNode_cstg (i : Nat) (n : Node) : (setNode s i n).cstg = s.cstg := by unfold setNode; split <;> rfl
@[simp] theorem setNode_pact (i : Nat) (n : Node) : (setNode s i n).pact = s.pact := by unfold setNode; split <;> rfl
@[simp] theorem setNode_padn (i : Nat) (n : Node) : (setNode s i n).padn = s.padn := by unfold setNode; split <;> rfl
@[simp] theorem setNode_acc (i : Nat) (n : Node) : (setNode s i n).acc = s.acc := by unfold setNode; split <;> rfl
@[simp] theorem setNode_uact (i : Nat) (n : Node) : (setNode s i n).uact = s.uact := by unfold setNode; split <;> rfl
@[simp] theorem setNode_umode (i : Nat) (n : Node) : (setNode s i n).umode = s.umode := by unfold setNode; split <;> rfl
@[simp] theorem setNode_uhdr (i : Nat) (n : Node) : (setNode s i n).uhdr = s.uhdr := by unfold setNode; split <;> rfl
@[simp] theorem setNode_upadn (i : Nat) (n : Node) : (setNode s i n).upadn = s.upadn := by unfold setNode; split <;> rfl
@[simp] theorem setNode_hb (i : Nat) (n : Node) : (setNode s i n).hb = s.hb := by unfold setNode; split <;> rfl
@[simp] theorem setNode_cand (i : Nat) (n : Node) : (setNode s i n).cand = s.cand := by unfold setNode; split <;> rfl
@[simp] theorem setNode_candOvf (i : Nat) (n : Node) : (setNode s i n).candOvf = s.candOvf := by unfold setNode; split <;> rfl
@[simp] theorem setNode_obytes (i : Nat) (n : Node) : (setNode s i n).obytes = s.obytes := by unfold setNode; split <;> rfl
@[simp] theorem setNode_osyms (i : Nat) (n : Node) : (setNode s i n).osyms = s.osyms := by unfold setNode; split <;> rfl
@[simp] theorem setNode_obits (i : Nat) (n : Node) : (setNode s i n).obits = s.obits := by unfold setNode; split <;> rfl
@[simp] theorem setNode_rsp (i : Nat) (n : Node) : (setNode s i n).rsp = s.rsp := by unfold setNode; split <;> rfl
@[simp] theorem setNode_pending (i : Nat) (n : Node) : (setNode s i n).pending = s.pending := by unfold setNode; split <;> rfl

/-! ### `setInQueue` -/

@[simp] theorem setInQueue_err (i : Nat) (b : Bool) : (setInQueue s i b).err = s.err := by unfold setInQueue; split <;> rfl
@[simp] theorem setInQueue_errCmd (i : Nat) (b : Bool) : (setInQueue s i b).errCmd = s.errCmd := by unfold setInQueue; split <;> rfl
@[simp] theorem setInQueue_errIdx (i : Nat) (b : Bool) : (setInQueue s i b).errIdx = s.errIdx := by unfold setInQueue; split <;> rfl
@[simp] theorem setInQueue_cmdCnt (i : Nat) (b : Bool) : (setInQueue s i b).cmdCnt = s.cmdCnt := by unfold setInQueue; split <;> rfl
@[simp] theorem setInQueue_ft (i : Nat) (b : Bool) : (setInQueue s i b).ft = s.ft := by unfold setInQueue; split <;> rfl
@[simp] theorem setInQueue_total (i : Nat) (b : Bool) : (setInQueue s i b).total = s.total := by unfold setInQueue; split <;> rfl
@[simp] theorem setInQueue_nodes (i : Nat) (b : Bool) : (setInQueue s i b).nodes = s.nodes := by unfold setInQueue; split <;> rfl
@[simp] theorem setInQueue_nnode (i : Nat) (b : Bool) : (setInQueue s i b).nnode = s.nnode := by unfold setInQueue; split <;> rfl
@[simp] theorem setInQueue_nleaf (i : Nat) (b : Bool) : (setInQueue s i b).nleaf = s.nleaf := by unfold setInQueue; split <;> rfl
@[simp] theorem setInQueue_qcnt (i : Nat) (b : Bool) : (setInQueue s i b).qcnt = s.qcnt := by unfold setInQueue; split <;> rfl
@[simp] theorem setInQueue_ct (i : Nat) (b : Bool) : (setInQueue s i b).ct = s.ct := by unfold setInQueue; split <;> rfl
@[simp] theorem setInQueue_ncode (i : Nat) (b : Bool) : (setInQueue s i b).ncode = s.ncode := by unfold setInQueue; split <;> rfl
@[simp] theorem setInQueue_cstg (i : Nat) (b : Bool) : (setInQueue s i b).cstg = s.cstg := by unfold setInQueue; split <;> rfl
@[simp] theorem setInQueue_pact (i : Nat) (b : Bool) : (setInQueue s i b).pact = s.pact := by unfold setInQueue; split <;> rfl
@[simp] theorem setInQueue_padn (i : Nat) (b : Bool) : (setInQueue s i b).padn = s.padn := by unfold setInQueue; split <;> rfl
@[simp] theorem setInQueue_acc (i : Nat) (b : Bool) : (setInQueue s i b).acc = s.acc := by unfold setInQueue; split <;> rfl
@[simp] theorem setInQueue_uact (i : Nat) (b : Bool) : (setInQueue s i b).uact = s.uact := by unfold setInQueue; split <;> rfl
@[simp] theorem setInQueue_umode (i : Nat) (b : Bool) : (setInQueue s i b).umode = s.umode := by unfold setInQueue; split <;> rfl
@[simp] theorem setInQueue_uhdr (i : Nat) (b : Bool) : (setInQueue s i b).uhdr = s.uhdr := by unfold setInQueue; split <;> rfl
@[simp] theorem setInQueue_upadn (i : Nat) (b : Bool) : (setInQueue s i b).upadn = s.upadn := by unfold setInQueue; split <;> rfl
@[simp] theorem setInQueue_hb (i : Nat) (b : Bool) : (setInQueue s i b).hb = s.hb := by unfold setInQueue; split <;> rfl
@[simp] theorem setInQueue_cand (i : Nat) (b : Bool) : (setInQueue s i b).cand = s.cand := by unfold setInQueue; split <;> rfl
@[simp] theorem setInQueue_candOvf (i : Nat) (b : Bool) : (setInQueue s i b).candOvf = s.candOvf := by unfold setInQueue; split <;> rfl
@[simp] theorem setInQueue_obytes (i : Nat) (b : Bool) : (setInQueue s i b).obytes = s.obytes := by unfold setInQueue; split <;> rfl
@[simp] theorem setInQueue_osyms (i : Nat) (b : Bool) : (setInQueue s i b).osyms = s.osyms := by unfold setInQueue; split <;> rfl
@[simp] theorem setInQueue_obits (i : Nat) (b : Bool) : (setInQueue s i b).obits = s.obits := by unfold setInQueue; split <;> rfl
@[simp] theorem setInQueue_rsp (i : Nat) (b : Bool) : (setInQueue s i b).rsp = s.rsp := by unfold setInQueue; split <;> rfl
@[simp] theorem setInQueue_pending (i : Nat) (b : Bool) : (setInQueue s i b).pending = s.pending := by unfold setInQueue; split <;> rfl

/-! ### `setCode` -/

@[simp] theorem setCode_err (sym : Byte) (c : Bits) : (setCode s sym c).err = s.err := rfl
@[simp] theorem setCode_errCmd (sym : Byte) (c : Bits) : (setCode s sym c).errCmd = s.errCmd := rfl
@[simp] theorem setCode_errIdx (sym : Byte) (c : Bits) : (setCode s sym c).errIdx = s.errIdx := rfl
@[simp] theorem setCode_cmdCnt (sym : Byte) (c : Bits) : (setCode s sym c).cmdCnt = s.cmdCnt := rfl
@[simp] theorem setCode_ft (sym : Byte) (c : Bits) : (setCode s sym c).ft = s.ft := rfl
@[simp] theorem setCode_total (sym : Byte) (c : Bits) : (setCode s sym c).total = s.total := rfl
@[simp] theorem setCode_nodes (sym : Byte) (c : Bits) : (setCode s sym c).nodes = s.nodes := rfl
@[simp] theorem setCode_inq (sym : Byte) (c : Bits) : (setCode s sym c).inq = s.inq := rfl
@[simp] theorem setCode_nnode (sym : Byte) (c : Bits) : (setCode s sym c).nnode = s.nnode := rfl
@[simp] theorem setCode_nleaf (sym : Byte) (c : Bits) : (setCode s sym c).nleaf = s.nleaf := rfl
@[simp] theorem setCode_qcnt (sym : Byte) (c : Bits) : (setCode s sym c).qcnt = s.qcnt := rfl
@[simp] theorem setCode_ncode (sym : Byte) (c : Bits) : (setCode s sym c).ncode = s.ncode := rfl
@[simp] theorem setCode_cstg (sym : Byte) (c : Bits) : (setCode s sym c).cstg = s.cstg := rfl
@[simp] theorem setCode_pact (sym : Byte) (c : Bits) : (setCode s sym c).pact = s.pact := rfl
@[simp] theorem setCode_padn (sym : Byte) (c : Bits) : (setCode s sym c).padn = s.padn := rfl
@[simp] theorem setCode_acc (sym : Byte) (c : Bits) : (setCode s sym c).acc = s.acc := rfl
@[simp] theorem setCode_uact (sym : Byte) (c : Bits) : (setCode s sym c).uact = s.uact := rfl
@[simp] theorem setCode_umode (sym : Byte) (c : Bits) : (setCode s sym c).umode = s.umode := rfl
@[simp] theorem setCode_uhdr (sym : Byte) (c : Bits) : (setCode s sym c).uhdr = s.uhdr := rfl
@[simp] theorem setCode_upadn (sym : Byte) (c : Bits) : (setCode s sym c).upadn = s.upadn := rfl
@[simp] theorem setCode_hb (sym : Byte) (c : Bits) : (setCode s sym c).hb = s.hb := rfl
@[simp] theorem setCode_cand (sym : Byte) (c : Bits) : (setCode s sym c).cand = s.cand := rfl
@[simp] theorem setCode_candOvf (sym : Byte) (c : Bits) : (setCode s sym c).candOvf = s.candOvf := rfl
@[simp] theorem setCode_obytes (sym : Byte) (c : Bits) : (setCode s sym c).obytes = s.obytes := rfl
@[simp] theorem setCode_osyms (sym : Byte) (c : Bits) : (setCode s sym c).osyms = s.osyms := rfl
@[simp] theorem setCode_obits (sym : Byte) (c : Bits) : (setCode s sym c).obits = s.obits := rfl
@[simp] theorem setCode_rsp (sym : Byte) (c : Bits) : (setCode s sym c).rsp = s.rsp := rfl
@[simp] theorem setCode_pending (sym : Byte) (c : Bits) : (setCode s sym c).pending = s.pending := rfl

/-! ### `emitBytes` -/

@[simp] theorem emitBytes_err (v : List Byte) : (emitBytes s v).err = s.err := rfl
@[simp] theorem emitBytes_errCmd (v : List Byte) : (emitBytes s v).errCmd = s.errCmd := rfl
@[simp] theorem emitBytes_errIdx (v : List Byte) : (emitBytes s v).errIdx = s.errIdx := rfl
@[simp] theorem emitBytes_cmdCnt (v : List Byte) : (emitBytes s v).cmdCnt = s.cmdCnt := rfl
@[simp] theorem emitBytes_ft (v : List Byte) : (emitBytes s v).ft = s.ft := rfl
@[simp] theorem emitBytes_total (v : List Byte) : (emitBytes s v).total = s.total := rfl
@[simp] theorem emitBytes_nodes (v : List Byte) : (emitBytes s v).nodes = s.nodes := rfl
@[simp] theorem emitBytes_inq (v : List Byte) : (emitBytes s v).inq = s.inq := rfl
@[simp] theorem emitBytes_nnode (v : List Byte) : (emitBytes s v).nnode = s.nnode := rfl
@[simp] theorem emitBytes_nleaf (v : List Byte) : (emitBytes s v).nleaf = s.nleaf := rfl
@[simp] theorem emitBytes_qcnt (v : List Byte) : (emitBytes s v).qcnt = s.qcnt := rfl
@[simp] theorem emitBytes_ct (v : List Byte) : (emitBytes s v).ct = s.ct := rfl
@[simp] theorem emitBytes_ncode (v : List Byte) : (emitBytes s v).ncode = s.ncode := rfl
@[simp] theorem emitBytes_cstg (v : List Byte) : (emitBytes s v).cstg = s.cstg := rfl
@[simp] theorem emitBytes_pact (v : List Byte) : (emitBytes s v).pact = s.pact := rfl
@[simp] theorem emitBytes_padn (v : List Byte) : (emitBytes s v).padn = s.padn := rfl
@[simp] theorem emitBytes_acc (v : List Byte) : (emitBytes s v).acc = s.acc := rfl
@[simp] theorem emitBytes_uact (v : List Byte) : (emitBytes s v).uact = s.uact := rfl
@[simp] theorem emitBytes_umode (v : List Byte) : (emitBytes s v).umode = s.umode := rfl
@[simp] theorem emitBytes_uhdr (v : List Byte) : (emitBytes s v).uhdr = s.uhdr := rfl
@[simp] theorem emitBytes_upadn (v : List Byte) : (emitBytes s v).upadn = s.upadn := rfl
@[simp] theorem emitBytes_hb (v : List Byte) : (emitBytes s v).hb = s.hb := rfl
@[simp] theorem emitBytes_cand (v : List Byte) : (emitBytes s v).cand = s.cand := rfl
@[simp] theorem emitBytes_candOvf (v : List Byte) : (emitBytes s v).candOvf = s.candOvf := rfl
@[simp] theorem emitBytes_osyms (v : List Byte) : (emitBytes s v).osyms = s.osyms := rfl
@[simp] theorem emitBytes_obits (v : List Byte) : (emitBytes s v).obits = s.obits := rfl
@[simp] theorem emitBytes_rsp (v : List Byte) : (emitBytes s v).rsp = s.rsp := rfl
@[simp] theorem emitBytes_pending (v : List Byte) : (emitBytes s v).pending = s.pending := rfl

/-! ### `emitSym` -/

@[simp] theorem emitSym_err (v : Byte) : (emitSym s v).err = s.err := rfl
@[simp] theorem emitSym_errCmd (v : Byte) : (emitSym s v).errCmd = s.errCmd := rfl
@[simp] theorem emitSym_errIdx (v : Byte) : (emitSym s v).errIdx = s.errIdx := rfl
@[simp] theorem emitSym_cmdCnt (v : Byte) : (emitSym s v).cmdCnt = s.cmdCnt := rfl
@[simp] theorem emitSym_ft (v : Byte) : (emitSym s v).ft = s.ft := rfl
@[simp] theorem emitSym_total (v : Byte) : (emitSym s v).total = s.total := rfl
@[simp] theorem emitSym_nodes (v : Byte) : (emitSym s v).nodes = s.nodes := rfl
@[simp] theorem emitSym_inq (v : Byte) : (emitSym s v).inq = s.inq := rfl
@[simp] theorem emitSym_nnode (v : Byte) : (emitSym s v).nnode = s.nnode := rfl
@[simp] theorem emitSym_nleaf (v : Byte) : (emitSym s v).nleaf = s.nleaf := rfl
@[simp] theorem emitSym_qcnt (v : Byte) : (emitSym s v).qcnt = s.qcnt := rfl
@[simp] theorem emitSym_ct (v : Byte) : (emitSym s v).ct = s.ct := rfl
@[simp] theorem emitSym_ncode (v : Byte) : (emitSym s v).ncode = s.ncode := rfl
@[simp] theorem emitSym_cstg (v : Byte) : (emitSym s v).cstg = s.cstg := rfl
@[simp] theorem emitSym_pact (v : Byte) : (emitSym s v).pact = s.pact := rfl
@[simp] theorem emitSym_padn (v : Byte) : (emitSym s v).padn = s.padn := rfl
@[simp] theorem emitSym_acc (v : Byte) : (emitSym s v).acc = s.acc := rfl
@[simp] theorem emitSym_uact (v : Byte) : (emitSym s v).uact = s.uact := rfl
@[simp] theorem emitSym_umode (v : Byte) : (emitSym s v).umode = s.umode := rfl
@[simp] theorem emitSym_uhdr (v : Byte) : (emitSym s v).uhdr = s.uhdr := rfl
@[simp] theorem emitSym_upadn (v : Byte) : (emitSym s v).upadn = s.upadn := rfl
@[simp] theorem emitSym_hb (v : Byte) : (emitSym s v).hb = s.hb := rfl
@[simp] theorem emitSym_cand (v : Byte) : (emitSym s v).cand = s.cand := rfl
@[simp] theorem emitSym_candOvf (v : Byte) : (emitSym s v).candOvf = s.candOvf := rfl
@[simp] theorem emitSym_obytes (v : Byte) : (emitSym s v).obytes = s.obytes := rfl
@[simp] theorem emitSym_obits (v : Byte) : (emitSym s v).obits = s.obits := rfl
@[simp] theorem emitSym_rsp (v : Byte) : (emitSym s v).rsp = s.rsp := rfl
@[simp] theorem emitSym_pending (v : Byte) : (emitSym s v).pending = s.pending := rfl

/-! ### `emitBit` -/

@[simp] theorem emitBit_err (v : Bool) : (emitBit s v).err = s.err := rfl
@[simp] theorem emitBit_errCmd (v : Bool) : (emitBit s v).errCmd = s.errCmd := rfl
@[simp] theorem emitBit_errIdx (v : Bool) : (emitBit s v).errIdx = s.errIdx := rfl
@[simp] theorem emitBit_cmdCnt (v : Bool) : (emitBit s v).cmdCnt = s.cmdCnt := rfl
@[simp] theorem emitBit_ft (v : Bool) : (emitBit s v).ft = s.ft := rfl
@[simp] theorem emitBit_total (v : Bool) : (emitBit s v).total = s.total := rfl
@[simp] theorem emitBit_nodes (v : Bool) : (emitBit s v).nodes = s.nodes := rfl
@[simp] theorem emitBit_inq (v : Bool) : (emitBit s v).inq = s.inq := rfl
@[simp] theorem emitBit_nnode (v : Bool) : (emitBit s v).nnode = s.nnode := rfl
@[simp] theorem emitBit_nleaf (v : Bool) : (emitBit s v).nleaf = s.nleaf := rfl
@[simp] theorem emitBit_qcnt (v : Bool) : (emitBit s v).qcnt = s.qcnt := rfl
@[simp] theorem emitBit_ct (v : Bool) : (emitBit s v).ct = s.ct := rfl
@[simp] theorem emitBit_ncode (v : Bool) : (emitBit s v).ncode = s.ncode := rfl
@[simp] theorem emitBit_cstg (v : Bool) : (emitBit s v).cstg = s.cstg := rfl
@[simp] theorem emitBit_pact (v : Bool) : (emitBit s v).pact = s.pact := rfl
@[simp] theorem emitBit_padn (v : Bool) : (emitBit s v).padn = s.padn := rfl
@[simp] theorem emitBit_acc (v : Bool) : (emitBit s v).acc = s.acc := rfl
@[simp] theorem emitBit_uact (v : Bool) : (emitBit s v).uact = s.uact := rfl
@[simp] theorem emitBit_umode (v : Bool) : (emitBit s v).umode = s.umode := rfl
@[simp] theorem emitBit_uhdr (v : Bool) : (emitBit s v).uhdr = s.uhdr := rfl
@[simp] theorem emitBit_upadn (v : Bool) : (emitBit s v).upadn = s.upadn := rfl
@[simp] theorem emitBit_hb (v : Bool) : (emitBit s v).hb = s.hb := rfl
@[simp] theorem emitBit_cand (v : Bool) : (emitBit s v).cand = s.cand := rfl
@[simp] theorem emitBit_candOvf (v : Bool) : (emitBit s v).candOvf = s.candOvf := rfl
@[simp] theorem emitBit_obytes (v : Bool) : (emitBit s v).obytes = s.obytes := rfl
@[simp] theorem emitBit_osyms (v : Bool) : (emitBit s v).osyms = s.osyms := rfl
@[simp] theorem emitBit_rsp (v : Bool) : (emitBit s v).rsp = s.rsp := rfl
@[simp] theorem emitBit_pending (v : Bool) : (emitBit s v).pending = s.pending := rfl

/-! ### `emitRsp` -/

@[simp] theorem emitRsp_err (v : List Word) : (emitRsp s v).err = s.err := rfl
@[simp] theorem emitRsp_errCmd (v : List Word) : (emitRsp s v).errCmd = s.errCmd := rfl
@[simp] theorem emitRsp_errIdx (v : List Word) : (emitRsp s v).errIdx = s.errIdx := rfl
@[simp] theorem emitRsp_cmdCnt (v : List Word) : (emitRsp s v).cmdCnt = s.cmdCnt := rfl
@[simp] theorem emitRsp_ft (v : List Word) : (emitRsp s v).ft = s.ft := rfl
@[simp] theorem emitRsp_total (v : List Word) : (emitRsp s v).total = s.total := rfl
@[simp] theorem emitRsp_nodes (v : List Word) : (emitRsp s v).nodes = s.nodes := rfl
@[simp] theorem emitRsp_inq (v : List Word) : (emitRsp s v).inq = s.inq := rfl
@[simp] theorem emitRsp_nnode (v : List Word) : (emitRsp s v).nnode = s.nnode := rfl
@[simp] theorem emitRsp_nleaf (v : List Word) : (emitRsp s v).nleaf = s.nleaf := rfl
@[simp] theorem emitRsp_qcnt (v : List Word) : (emitRsp s v).qcnt = s.qcnt := rfl
@[simp] theorem emitRsp_ct (v : List Word) : (emitRsp s v).ct = s.ct := rfl
@[simp] theorem emitRsp_ncode (v : List Word) : (emitRsp s v).ncode = s.ncode := rfl
@[simp] theorem emitRsp_cstg (v : List Word) : (emitRsp s v).cstg = s.cstg := rfl
@[simp] theorem emitRsp_pact (v : List Word) : (emitRsp s v).pact = s.pact := rfl
@[simp] theorem emitRsp_padn (v : List Word) : (emitRsp s v).padn = s.padn := rfl
@[simp] theorem emitRsp_acc (v : List Word) : (emitRsp s v).acc = s.acc := rfl
@[simp] theorem emitRsp_uact (v : List Word) : (emitRsp s v).uact = s.uact := rfl
@[simp] theorem emitRsp_umode (v : List Word) : (emitRsp s v).umode = s.umode := rfl
@[simp] theorem emitRsp_uhdr (v : List Word) : (emitRsp s v).uhdr = s.uhdr := rfl
@[simp] theorem emitRsp_upadn (v : List Word) : (emitRsp s v).upadn = s.upadn := rfl
@[simp] theorem emitRsp_hb (v : List Word) : (emitRsp s v).hb = s.hb := rfl
@[simp] theorem emitRsp_cand (v : List Word) : (emitRsp s v).cand = s.cand := rfl
@[simp] theorem emitRsp_candOvf (v : List Word) : (emitRsp s v).candOvf = s.candOvf := rfl
@[simp] theorem emitRsp_obytes (v : List Word) : (emitRsp s v).obytes = s.obytes := rfl
@[simp] theorem emitRsp_osyms (v : List Word) : (emitRsp s v).osyms = s.osyms := rfl
@[simp] theorem emitRsp_obits (v : List Word) : (emitRsp s v).obits = s.obits := rfl
@[simp] theorem emitRsp_pending (v : List Word) : (emitRsp s v).pending = s.pending := rfl

/-! ### `countCommand` -/

@[simp] theorem countCommand_err : (countCommand s).err = s.err := rfl
@[simp] theorem countCommand_errCmd : (countCommand s).errCmd = s.errCmd := rfl
@[simp] theorem countCommand_errIdx : (countCommand s).errIdx = s.errIdx := rfl
@[simp] theorem countCommand_ft : (countCommand s).ft = s.ft := rfl
@[simp] theorem countCommand_total : (countCommand s).total = s.total := rfl
@[simp] theorem countCommand_nodes : (countCommand s).nodes = s.nodes := rfl
@[simp] theorem countCommand_inq : (countCommand s).inq = s.inq := rfl
@[simp] theorem countCommand_nnode : (countCommand s).nnode = s.nnode := rfl
@[simp] theorem countCommand_nleaf : (countCommand s).nleaf = s.nleaf := rfl
@[simp] theorem countCommand_qcnt : (countCommand s).qcnt = s.qcnt := rfl
@[simp] theorem countCommand_ct : (countCommand s).ct = s.ct := rfl
@[simp] theorem countCommand_ncode : (countCommand s).ncode = s.ncode := rfl
@[simp] theorem countCommand_cstg : (countCommand s).cstg = s.cstg := rfl
@[simp] theorem countCommand_pact : (countCommand s).pact = s.pact := rfl
@[simp] theorem countCommand_padn : (countCommand s).padn = s.padn := rfl
@[simp] theorem countCommand_acc : (countCommand s).acc = s.acc := rfl
@[simp] theorem countCommand_uact : (countCommand s).uact = s.uact := rfl
@[simp] theorem countCommand_umode : (countCommand s).umode = s.umode := rfl
@[simp] theorem countCommand_uhdr : (countCommand s).uhdr = s.uhdr := rfl
@[simp] theorem countCommand_upadn : (countCommand s).upadn = s.upadn := rfl
@[simp] theorem countCommand_hb : (countCommand s).hb = s.hb := rfl
@[simp] theorem countCommand_cand : (countCommand s).cand = s.cand := rfl
@[simp] theorem countCommand_candOvf : (countCommand s).candOvf = s.candOvf := rfl
@[simp] theorem countCommand_obytes : (countCommand s).obytes = s.obytes := rfl
@[simp] theorem countCommand_osyms : (countCommand s).osyms = s.osyms := rfl
@[simp] theorem countCommand_obits : (countCommand s).obits = s.obits := rfl
@[simp] theorem countCommand_rsp : (countCommand s).rsp = s.rsp := rfl
@[simp] theorem countCommand_pending : (countCommand s).pending = s.pending := rfl

/-! ### The written field -/

@[simp] theorem countCommand_cmdCnt : (countCommand s).cmdCnt = s.cmdCnt + 1#32 := rfl

@[simp] theorem emitBytes_obytes (v : List Byte) : (emitBytes s v).obytes = s.obytes ++ v := rfl

@[simp] theorem emitSym_osyms (v : Byte) : (emitSym s v).osyms = s.osyms ++ [v] := rfl

@[simp] theorem emitBit_obits (v : Bool) : (emitBit s v).obits = s.obits ++ [v] := rfl

@[simp] theorem emitRsp_rsp (v : List Word) : (emitRsp s v).rsp = s.rsp ++ v := rfl

/-! ### The accessors look at one field -/

variable {s} {t : State}

theorem countOf_congr (h : t.ft = s.ft) (x : Byte) : countOf t x = countOf s x := by
  unfold countOf; rw [h]

theorem nodeAt_congr (h : t.nodes = s.nodes) (i : Nat) : nodeAt t i = nodeAt s i := by
  unfold nodeAt; rw [h]

theorem inQueue_congr (h : t.inq = s.inq) (i : Nat) : inQueue t i = inQueue s i := by
  unfold inQueue; rw [h]

theorem codeOf_congr (h : t.ct = s.ct) (x : Byte) : codeOf t x = codeOf s x := by
  unfold codeOf; rw [h]

/-! ### The accessors after a write -/

variable (s)

/-- Every counter after a counter is written. -/
theorem countOf_setCount (x y : Byte) (v : Word) : countOf (setCount s x v) y = if y = x then v else countOf s y := by
  simp only [countOf, setCount, Table.read_write, BitVec.toNat_inj]

/-- Every code after a code is written. -/
theorem codeOf_setCode (x y : Byte) (c : Bits) : codeOf (setCode s x c) y = if y = x then c else codeOf s y := by
  simp only [codeOf, setCode, Table.read_write, BitVec.toNat_inj]

/-- Every node after a node is written to a slot. -/
theorem nodeAt_setNode {i : Nat} (hi : i < Config.nodeMax) (j : Nat) (n : Node) :
    nodeAt (setNode s i n) j = if j = i then n else nodeAt s j := by
  simp only [nodeAt, setNode, hi, if_true, Table.read_write]

/-- Every queue bit after a slot's queue bit is written. -/
theorem inQueue_setInQueue {i : Nat} (hi : i < Config.nodeMax) (j : Nat) (b : Bool) :
    inQueue (setInQueue s i b) j = if j = i then b else inQueue s j := by
  simp only [inQueue, setInQueue, hi, if_true, Table.read_write]

@[simp] theorem nodeAt_setInQueue (i j : Nat) (b : Bool) : nodeAt (setInQueue s i b) j = nodeAt s j :=
  nodeAt_congr (by simp) j

@[simp] theorem inQueue_setNode (i j : Nat) (n : Node) : inQueue (setNode s i n) j = inQueue s j :=
  inQueue_congr (by simp) j

/-! ### The canonical form of the four tables -/

/-- The canonical form of the tables, table by table. -/
theorem memory_wf_iff : Memory.wf s = true ↔
    Table.canonical 0#32 256 s.ft = true ∧ Table.canonical Node.zero 511 s.nodes = true ∧
      Table.canonical false 511 s.inq = true ∧ Table.canonical [] 256 s.ct = true := by
  simp only [Memory.wf, Bool.and_eq_true, and_assoc]

variable {s}

/-- Two states with the same tables are canonical together. -/
theorem memory_wf_congr (h1 : t.ft = s.ft) (h2 : t.nodes = s.nodes) (h3 : t.inq = s.inq) (h4 : t.ct = s.ct) :
    Memory.wf t = Memory.wf s := by
  unfold Memory.wf; rw [h1, h2, h3, h4]

theorem memory_wf_setCount (h : Memory.wf s = true) (x : Byte) (v : Word) : Memory.wf (setCount s x v) = true := by
  rw [memory_wf_iff] at h ⊢
  exact ⟨Table.canonical_write h.1 x.isLt, h.2⟩

theorem memory_wf_setCode (h : Memory.wf s = true) (x : Byte) (c : Bits) : Memory.wf (setCode s x c) = true := by
  rw [memory_wf_iff] at h ⊢
  exact ⟨h.1, h.2.1, h.2.2.1, Table.canonical_write h.2.2.2 x.isLt⟩

theorem memory_wf_setNode (h : Memory.wf s = true) (i : Nat) (n : Node) : Memory.wf (setNode s i n) = true := by
  unfold setNode
  split
  · next hi =>
    rw [memory_wf_iff] at h ⊢
    exact ⟨h.1, Table.canonical_write h.2.1 hi, h.2.2⟩
  · exact h

theorem memory_wf_setInQueue (h : Memory.wf s = true) (i : Nat) (b : Bool) : Memory.wf (setInQueue s i b) = true := by
  unfold setInQueue
  split
  · next hi =>
    rw [memory_wf_iff] at h ⊢
    exact ⟨h.1, h.2.1, Table.canonical_write h.2.2.1 hi, h.2.2.2⟩
  · exact h

/-- The tables are canonical at reset. -/
theorem memory_wf_reset : Memory.wf State.reset = true := rfl

end Sys2Proof.Machine
end

