-- ==== Sys2Proof/Laws/Commands.lean ====
section
/-! SUPPORT. What surrounds every command: fault entry, the fault state, the command count, and the command port. -/

namespace Sys2Proof.Machine

open Sys2Proof.Safety

variable {s t : State} {i : Instr} {rule : State → Except FaultCode State}

/-- Every fault code is one of `0x01` to `0x0C`. -/
theorem faultNumber_range (e : FaultCode) : 1 ≤ (faultNumber e).toNat ∧ (faultNumber e).toNat ≤ 12 := by
  cases e <;> decide

theorem faultNumber_ne_zero (e : FaultCode) : faultNumber e ≠ 0#8 := by
  cases e <;> decide

/-- Outside the fault state a fault is recorded. -/
theorem takeFault_of_err_zero (h : s.err = 0#8) (e : FaultCode) (cw : Word) :
    takeFault e cw s = { s with err := faultNumber e, errCmd := cw, errIdx := s.cmdCnt } := if_pos h

/-- In the fault state a fault changes nothing. -/
theorem takeFault_of_err_ne (h : s.err ≠ 0#8) (e : FaultCode) (cw : Word) : takeFault e cw s = s := if_neg h

/-- A command always answers a next state. -/
theorem runCommand_eq (i : Instr) (rule : State → Except FaultCode State) (s : State) :
    runCommand i rule s = .next (if s.err = 0#8 then finish (encode i) s (rule s) else countCommand s) := by
  unfold runCommand; split <;> rfl

/-- A command whose rule gives a new state. -/
theorem runCommand_ok (h : s.err = 0#8) (hr : rule s = .ok t) : runCommand i rule s = .next (countCommand t) := by
  rw [runCommand_eq, if_pos h, hr]; rfl

/-- A command whose rule raises a fault. -/
theorem runCommand_error (h : s.err = 0#8) {e : FaultCode} (hr : rule s = .error e) :
    runCommand i rule s = .next (afterFault (faultNumber e) (encode i) s) := by
  rw [runCommand_eq, if_pos h, hr, finish, takeFault_of_err_zero h]; rfl

/-- A command that the fault state drops. -/
theorem runCommand_dropped (h : s.err ≠ 0#8) : runCommand i rule s = .next (countCommand s) := by
  rw [runCommand_eq, if_neg h]

/-- Everything `runCommand` can do. -/
theorem runCommand_cases (h : runCommand i rule s = .next t) :
    (s.err ≠ 0#8 ∧ t = countCommand s) ∨
    (s.err = 0#8 ∧ ∃ u, rule s = .ok u ∧ t = countCommand u) ∨
    (s.err = 0#8 ∧ ∃ e, rule s = .error e ∧ t = afterFault (faultNumber e) (encode i) s) := by
  by_cases hs : s.err = 0#8
  · cases hr : rule s with
    | ok u => rw [runCommand_ok hs hr] at h; cases h; exact .inr (.inl ⟨hs, u, rfl, rfl⟩)
    | error e => rw [runCommand_error hs hr] at h; cases h; exact .inr (.inr ⟨hs, e, rfl, rfl⟩)
  · rw [runCommand_dropped hs] at h; cases h; exact .inl ⟨hs, rfl⟩

/-- `RD` with a legal number, in the fault state too. -/
theorem runAlways_ok (hr : rule s = .ok t) : runAlways i rule s = .next (countCommand t) := by
  simp only [runAlways, hr, finish]

/-- `RD` with a bad number outside the fault state. -/
theorem runAlways_error (h : s.err = 0#8) {e : FaultCode} (hr : rule s = .error e) :
    runAlways i rule s = .next (afterFault (faultNumber e) (encode i) s) := by
  simp only [runAlways, hr, finish, takeFault_of_err_zero h]; rfl

/-- `RD` with a bad number in the fault state is dropped. -/
theorem runAlways_dropped (h : s.err ≠ 0#8) {e : FaultCode} (hr : rule s = .error e) :
    runAlways i rule s = .next (countCommand s) := by
  simp only [runAlways, hr, finish, takeFault_of_err_ne h]

/-- Everything `runAlways` can do. -/
theorem runAlways_cases (h : runAlways i rule s = .next t) :
    (∃ u, rule s = .ok u ∧ t = countCommand u) ∨
    (s.err = 0#8 ∧ ∃ e, rule s = .error e ∧ t = afterFault (faultNumber e) (encode i) s) ∨
    (s.err ≠ 0#8 ∧ t = countCommand s) := by
  cases hr : rule s with
  | ok u => rw [runAlways_ok hr] at h; cases h; exact .inl ⟨u, rfl, rfl⟩
  | error e =>
    by_cases hs : s.err = 0#8
    · rw [runAlways_error hs hr] at h; cases h; exact .inr (.inl ⟨hs, e, rfl, rfl⟩)
    · rw [runAlways_dropped hs hr] at h; cases h; exact .inr (.inr ⟨hs, rfl⟩)

/-- A rejected word outside the fault state. -/
theorem rejectWord_of_err_zero (h : s.err = 0#8) (e : FaultCode) (cw : Word) :
    rejectWord e cw s = .next (afterFault (faultNumber e) cw s) := by
  simp only [rejectWord, takeFault_of_err_zero h]; rfl

/-- A rejected word in the fault state is dropped. -/
theorem rejectWord_of_err_ne (h : s.err ≠ 0#8) (e : FaultCode) (cw : Word) :
    rejectWord e cw s = .next (countCommand s) := by
  simp only [rejectWord, takeFault_of_err_ne h]

/-- A step with a word on the port. -/
theorem step_of_pending {cw : Word} {rest : List Word} (h : s.pending = cw :: rest) :
    step s = match decodeWord cw with
      | .ok i => exec i { s with pending := rest }
      | .error e => rejectWord e cw { s with pending := rest } := by
  simp only [step, takeWord, h] <;> rfl

/-- A step with nothing on the port. -/
theorem step_of_idle (h : s.pending = []) : step s = .next s := by
  simp only [step, takeWord, h, idle]

end Sys2Proof.Machine
end

