-- ==== Sys2Proof/Laws/Code.lean ====
section
/-! SUPPORT. What the tree walk, the storing of codes, and the searches of the code table do. -/

namespace Sys2Proof.Machine

open Sys2Proof.Safety

variable {s : State}

/-- The walk lists a leaf with its path, for every path shorter than the fuel, and nothing else (R162). -/
theorem mem_codesFrom {fuel n : Nat} {q p : Bits} {x : Byte} :
    (x, p) ∈ codesFrom s fuel n q ↔ ∃ r m, p = q ++ r ∧ r.length < fuel ∧ PathTo s n r m ∧
      (nodeAt s m).leaf = true ∧ (nodeAt s m).sym = x := by
  induction fuel generalizing n q with
  | zero => simp [codesFrom]
  | succ fuel ih =>
    rw [codesFrom]
    by_cases hl : (nodeAt s n).leaf = true
    · rw [if_pos hl, List.mem_singleton]
      constructor
      · intro h
        cases h
        exact ⟨[], n, by simp, by simp, .here n, hl, rfl⟩
      · rintro ⟨r, m, rfl, -, hp, -, rfl⟩
        cases hp with
        | here => simp
        | left hn => rw [hl] at hn; cases hn
        | right hn => rw [hl] at hn; cases hn
    · rw [if_neg hl, List.mem_append, ih, ih]
      have hl' : (nodeAt s n).leaf = false := by simpa using hl
      constructor
      · rintro (⟨r, m, rfl, hr, hp, h⟩ | ⟨r, m, rfl, hr, hp, h⟩)
        · exact ⟨false :: r, m, by simp, by simpa using hr, .left hl' hp, h⟩
        · exact ⟨true :: r, m, by simp, by simpa using hr, .right hl' hp, h⟩
      · rintro ⟨r, m, rfl, hr, hp, h⟩
        cases hp with
        | here => exact absurd h.1 hl
        | left hn hp => exact .inl ⟨_, m, by simp, by simpa using hr, hp, h⟩
        | right hn hp => exact .inr ⟨_, m, by simp, by simpa using hr, hp, h⟩

/-- Storing codes writes `CT` alone. -/
theorem storeCodes_frame (s : State) (l : List (Byte × Bits)) :
    storeCodes s l = { s with ct := (storeCodes s l).ct } := by
  induction l generalizing s with
  | nil => rfl
  | cons e l ih =>
    have h := ih (setCode s e.1 e.2)
    simp only [storeCodes, List.foldl_cons] at h ⊢
    rw [h]
    rfl

/-- A symbol no entry names keeps its code. -/
theorem codeOf_storeCodes_of_not_mem {l : List (Byte × Bits)} {x : Byte} (h : ∀ p, (x, p) ∉ l) :
    codeOf (storeCodes s l) x = codeOf s x := by
  induction l generalizing s with
  | nil => rfl
  | cons e l ih =>
    have hx : x ≠ e.1 := fun hx => h e.2 (by rw [hx]; simp)
    have h' : ∀ p, (x, p) ∉ l := fun p hp => h p (List.mem_cons_of_mem _ hp)
    simp only [storeCodes, List.foldl_cons]
    exact (ih (s := setCode s e.1 e.2) h').trans (by rw [codeOf_setCode, if_neg hx])

/-- Where no two entries name one symbol, each symbol named gets its code. -/
theorem codeOf_storeCodes_of_mem {l : List (Byte × Bits)} (hl : (l.map Prod.fst).Nodup) {x : Byte} {p : Bits}
    (h : (x, p) ∈ l) : codeOf (storeCodes s l) x = p := by
  induction l generalizing s with
  | nil => cases h
  | cons e l ih =>
    rw [List.map_cons, List.nodup_cons] at hl
    simp only [storeCodes, List.foldl_cons]
    rcases List.mem_cons.mp h with rfl | h
    · have hn : ∀ p', (x, p') ∉ l := fun p' hp => hl.1 (List.mem_map.mpr ⟨_, hp, rfl⟩)
      exact (codeOf_storeCodes_of_not_mem (s := setCode s x p) hn).trans (by rw [codeOf_setCode, if_pos rfl])
    · exact ih (s := setCode s e.1 e.2) hl.2 h

/-- Storing codes keeps the canonical form. -/
theorem memory_wf_storeCodes (h : Memory.wf s = true) (l : List (Byte × Bits)) : Memory.wf (storeCodes s l) = true := by
  induction l generalizing s with
  | nil => exact h
  | cons e l ih => exact ih (memory_wf_setCode h e.1 e.2)

/-- No symbol has a code in a cleared table. -/
@[simp] theorem codeOf_clearCodes (x : Byte) : codeOf (clearCodes s) x = [] := rfl

/-- The search of the reverse direction (R160). -/
theorem codeTaken_iff {c : Bits} : codeTaken s c = true ↔ ∃ t, codeOf s t = c := by
  simp [codeTaken]

/-- The decoder's search of the reverse direction: its hit has the code. -/
theorem codeOf_of_symbolOf {c : Bits} {t : Byte} (h : symbolOf s c = some t) : codeOf s t = c := by
  have := List.find?_some h
  simpa using this

/-- The decoder's search of the reverse direction: a miss means no symbol has the code. -/
theorem symbolOf_eq_none {c : Bits} : symbolOf s c = none ↔ ∀ t, codeOf s t ≠ c := by
  simp [symbolOf]

/-- Where the codes are pairwise different the search has at most one hit (R40, R160). -/
theorem symbolOf_eq_some (hd : ∀ x y, codeOf s x = codeOf s y → codeOf s x ≠ [] → x = y) {c : Bits} (hc : c ≠ [])
    {t : Byte} : symbolOf s c = some t ↔ codeOf s t = c := by
  refine ⟨codeOf_of_symbolOf, fun h => ?_⟩
  cases hs : symbolOf s c with
  | none => exact absurd h (symbolOf_eq_none.mp hs t)
  | some u =>
    have hu := codeOf_of_symbolOf hs
    rw [hd u t (hu.trans h.symm) (by rw [hu]; exact hc)]

end Sys2Proof.Machine
end

