-- ==== Sys2Proof/Laws/Encoding.lean ====
section
/-! SUPPORT. The fields of an assembled command word, field by field. -/

namespace Sys2Proof

/-- The opcode field of an assembled word. -/
@[simp] theorem opcodeOf_assemble (op : Byte) (arg : BitVec 24) : opcodeOf (assemble op arg) = op := by
  apply BitVec.eq_of_getLsbD_eq
  intro k hk
  have h : 24 + k < 32 := by omega
  simp [opcodeOf, assemble, hk, h]

/-- A field of the operand of an assembled word. -/
theorem extract_assemble (op : Byte) (arg : BitVec 24) (lo len : Nat) (h : lo + len ≤ 24) :
    (assemble op arg).extractLsb' lo len = arg.extractLsb' lo len := by
  apply BitVec.eq_of_getLsbD_eq
  intro k hk
  have h1 : lo + k < 24 := by omega
  have h2 : lo + k < 32 := by omega
  simp [assemble, hk, h1, h2]

/-- A word is its opcode and its operand. -/
theorem assemble_fields (cw : Word) : assemble (opcodeOf cw) (cw.extractLsb' 0 24) = cw := by
  apply BitVec.eq_of_getLsbD_eq
  intro k hk
  by_cases h : k < 24
  · simp [opcodeOf, assemble, hk, h]
  · have h1 : k - 24 < 8 := by omega
    have h2 : 24 + (k - 24) = k := by omega
    simp [opcodeOf, assemble, hk, h, h1, h2]

/-- The fields of a format `S` operand. -/
theorem operandS_fields (v : Byte) :
    (v.setWidth 24).extractLsb' 8 16 = 0#16 ∧ (v.setWidth 24).extractLsb' 0 8 = v := by
  constructor <;> (apply BitVec.eq_of_getLsbD_eq; intro k hk; simp [hk]; try omega)

/-- The fields of a format `N` operand. -/
theorem operandN_fields (i : BitVec 9) :
    (i.setWidth 24).extractLsb' 9 15 = 0#15 ∧ (i.setWidth 24).extractLsb' 0 9 = i := by
  constructor <;> (apply BitVec.eq_of_getLsbD_eq; intro k hk; simp [hk]; try omega)

/-- The fields of a format `I` operand. -/
theorem operandI_fields (i : BitVec 3) :
    (i.setWidth 24).extractLsb' 3 21 = 0#21 ∧ (i.setWidth 24).extractLsb' 0 3 = i := by
  constructor <;> (apply BitVec.eq_of_getLsbD_eq; intro k hk; simp [hk]; try omega)

/-- The fields of a format `M` operand. -/
theorem operandM_fields (m : BitVec 1) :
    (m.setWidth 24).extractLsb' 1 23 = 0#23 ∧ (m.setWidth 24).extractLsb' 0 1 = m := by
  constructor <;> (apply BitVec.eq_of_getLsbD_eq; intro k hk; simp [hk]; try omega)

/-- The fields of a format `B` operand. -/
theorem operandB_fields (k : BitVec 5) (b : BitVec 16) :
    ((k.setWidth 24 <<< 16) ||| b.setWidth 24).extractLsb' 21 3 = 0#3 ∧
      ((k.setWidth 24 <<< 16) ||| b.setWidth 24).extractLsb' 16 5 = k ∧
      ((k.setWidth 24 <<< 16) ||| b.setWidth 24).extractLsb' 0 16 = b := by
  refine ⟨?_, ?_, ?_⟩ <;> (apply BitVec.eq_of_getLsbD_eq; intro j hj; simp [hj])
  · exact ⟨fun _ _ _ => BitVec.getLsbD_of_ge _ _ (by omega), fun _ => BitVec.getLsbD_of_ge _ _ (by omega)⟩
  · have h1 : 16 + j < 24 := by omega
    have h2 : j < 24 := by omega
    simp [h1, h2]
  · omega

/-- A field is zero when each of its bits is. -/
theorem extract_eq_zero_iff (cw : Word) (lo len : Nat) :
    cw.extractLsb' lo len = 0#len ↔ ∀ k, lo ≤ k → k < lo + len → cw.getLsbD k = false := by
  constructor
  · intro hz k h1 h2
    have hk := congrArg (fun b => b.getLsbD (k - lo)) hz
    simp only [BitVec.getLsbD_extractLsb', BitVec.getLsbD_zero, Bool.and_eq_false_imp, decide_eq_true_eq] at hk
    have h3 := hk (by omega)
    rwa [show lo + (k - lo) = k by omega] at h3
  · intro hz
    apply BitVec.eq_of_getLsbD_eq
    intro k hk
    simp only [BitVec.getLsbD_extractLsb', hk, decide_true, Bool.true_and, BitVec.getLsbD_zero]
    exact hz _ (by omega) (by omega)

/-- The reserved-bit test of R107 by mask is the test of the field `[hi-1:lo]`. -/
theorem and_mask_eq_zero_iff (cw : Word) (lo hi : Nat) (h : lo ≤ hi) (hh : hi ≤ 24) :
    cw &&& BitVec.ofNat 32 (2 ^ hi - 2 ^ lo) = 0#32 ↔ cw.extractLsb' lo (hi - lo) = 0#(hi - lo) := by
  rw [extract_eq_zero_iff]
  have hb : ∀ k, k < 32 → (BitVec.ofNat 32 (2 ^ hi - 2 ^ lo)).getLsbD k = (decide (lo ≤ k) && decide (k < hi)) := by
    intro k hk
    have h1 : 2 ^ hi - 2 ^ lo = (2 ^ (hi - lo) - 1) * 2 ^ lo := by
      rw [Nat.sub_mul, one_mul, ← pow_add]; congr 2; omega
    rw [BitVec.getLsbD_ofNat, h1, Nat.testBit_mul_two_pow, Nat.testBit_two_pow_sub_one]
    by_cases h2 : lo ≤ k <;> by_cases h3 : k < hi <;> simp [hk, h2, h3] <;> omega
  constructor
  · intro hz k h1 h2
    have hk := congrArg (fun b => b.getLsbD k) hz
    simp only [BitVec.getLsbD_and, hb k (by omega)] at hk
    simpa [h1, show k < hi by omega] using hk
  · intro hz
    apply BitVec.eq_of_getLsbD_eq
    intro k hk
    simp only [BitVec.getLsbD_and, hb k hk]
    by_cases h1 : lo ≤ k <;> by_cases h2 : k < hi <;> simp [h1, h2]
    exact hz k h1 (by omega)

/-- The stray-bit test of R103 by value is the test bit by bit. -/
theorem bits_lt_iff (cw : Word) (k : Nat) :
    (cw.extractLsb' 0 16).toNat < 2 ^ k ↔ ∀ j, k ≤ j → j ≤ 15 → cw.getLsbD j = false := by
  constructor
  · intro h j h1 h2
    have hj := Nat.testBit_lt_two_pow (lt_of_lt_of_le h (Nat.pow_le_pow_right (by decide) h1))
    rw [BitVec.testBit_toNat] at hj
    simpa [show j < 16 by omega] using hj
  · intro h
    apply Nat.lt_pow_two_of_testBit
    intro i hi
    rw [BitVec.testBit_toNat]
    by_cases h16 : i < 16
    · simp only [BitVec.getLsbD_extractLsb', h16, decide_true, Bool.true_and, Nat.zero_add]
      exact h i hi (by omega)
    · simp [h16]

/-- The decoder's test of a format `B` operand is `WellFormed`'s. -/
theorem seqFieldOk_eq (k : BitVec 5) (bits : BitVec 16) :
    seqFieldOk k bits = (countFits k && noStrayBits k bits) := rfl

end Sys2Proof
end

