-- ==== Sys2Proof/Laws/Packer.lean ====
section
/-! SUPPORT. What cutting a bit sequence into bytes and packing it do. -/

namespace Sys2Proof.Machine

/-- With enough turns the cut loses no bit, keeps the order, and leaves less than a byte. -/
theorem cutBytes_spec {fuel : Nat} {S : Bits} (h : S.length < 8 * (fuel + 1)) :
    (cutBytes fuel S).1.flatMap bits8 ++ (cutBytes fuel S).2 = S ∧ (cutBytes fuel S).1.length = S.length / 8 ∧
      (cutBytes fuel S).2.length = S.length % 8 := by
  induction fuel generalizing S with
  | zero =>
    simp only [cutBytes, List.flatMap_nil, List.nil_append, List.length_nil, true_and]
    omega
  | succ fuel ih =>
    by_cases h8 : 8 ≤ S.length
    · have hd : (S.drop 8).length < 8 * (fuel + 1) := by rw [List.length_drop]; omega
      obtain ⟨h1, h2, h3⟩ := ih hd
      have ht : (S.take 8).length = 8 := by rw [List.length_take]; omega
      simp only [cutBytes, h8, if_true, List.flatMap_cons, List.append_assoc, h1, bits8_byteOf ht, List.take_append_drop,
        List.length_cons, h2, h3, List.length_drop, true_and]
      omega
    · simp only [cutBytes, h8, if_false, List.flatMap_nil, List.nil_append, List.length_nil, true_and]
      omega

/-- Everything `pack` does (R181). -/
theorem pack_spec (q : Bits) (s : State) :
    ∃ out, pack q s = { s with obytes := s.obytes ++ out, acc := (pack q s).acc } ∧
      out.flatMap bits8 ++ (pack q s).acc = s.acc ++ q ∧ out.length = (s.acc.length + q.length) / 8 ∧
      (pack q s).acc.length = (s.acc.length + q.length) % 8 := by
  have h := cutBytes_spec (fuel := (s.acc ++ q).length) (S := s.acc ++ q) (by omega)
  exact ⟨(cutBytes (s.acc ++ q).length (s.acc ++ q)).1, rfl, h.1, h.2.1.trans (by rw [List.length_append]),
    h.2.2.trans (by rw [List.length_append])⟩

/-- Less than a byte is left over. -/
theorem pack_acc_length_lt (q : Bits) (s : State) : (pack q s).acc.length < 8 := by
  obtain ⟨_, _, _, _, h⟩ := pack_spec q s
  omega

end Sys2Proof.Machine
end

