-- ==== Sys2Proof/Laws/Tree.lean ====
section
/-! SUPPORT. What the queue, the extraction, the merge and the leaf insertion do. -/

namespace Sys2Proof.Machine

open Sys2Proof.Safety

variable {s t : State}

/-! ### The queue -/

@[simp] theorem mem_queueMembers {i : Nat} : i ∈ queueMembers s ↔ i < 511 ∧ inQueue s i = true := by
  simp [queueMembers]

theorem queueMembers_pairwise (s : State) : (queueMembers s).Pairwise (· < ·) :=
  List.pairwise_lt_range.filter _

theorem queueMembers_nodup (s : State) : (queueMembers s).Nodup := List.nodup_range.filter _

theorem queueMembers_congr (h : ∀ i, i < 511 → inQueue t i = inQueue s i) : queueMembers t = queueMembers s := by
  refine List.filter_congr fun i hi => ?_
  exact h i (List.mem_range.mp hi)

theorem keyLess_iff {i j : Nat} : keyLess s i j = true ↔ KeyBefore s i j := by
  simp only [keyLess, KeyBefore, Bool.or_eq_true, Bool.and_eq_true, decide_eq_true_eq, beq_iff_eq, BitVec.toNat_inj]

theorem keyBefore_total {i j : Nat} (h : i ≠ j) : KeyBefore s i j ∨ KeyBefore s j i := by
  simp only [KeyBefore]; omega

theorem keyBefore_trans {i j k : Nat} (h1 : KeyBefore s i j) (h2 : KeyBefore s j k) : KeyBefore s i k := by
  simp only [KeyBefore] at *; omega

theorem keyBefore_irrefl (i : Nat) : ¬ KeyBefore s i i := by
  simp only [KeyBefore]; omega

theorem keyBefore_congr (h : ∀ i, nodeAt t i = nodeAt s i) (i j : Nat) : KeyBefore t i j ↔ KeyBefore s i j := by
  simp only [KeyBefore, h]

/-- The scan from a first best slot ends in the least of all the slots it saw. -/
theorem foldl_lesser (s : State) (l : List Nat) (b : Nat) :
    ∃ a, l.foldl (lesser s) (some b) = some a ∧ (a = b ∨ a ∈ l) ∧
      ∀ i, (i = b ∨ i ∈ l) → i ≠ a → KeyBefore s a i := by
  induction l generalizing b with
  | nil => exact ⟨b, rfl, .inl rfl, fun i hi hne => absurd (by simpa using hi) hne⟩
  | cons x l ih =>
    have hstep : (x :: l).foldl (lesser s) (some b) = l.foldl (lesser s) (some (if keyLess s x b then x else b)) := by
      simp only [List.foldl_cons, lesser]; split <;> rfl
    rw [hstep]
    obtain ⟨a, ha, hmem, hmin⟩ := ih (if keyLess s x b then x else b)
    refine ⟨a, ha, ?_, fun i hi hne => ?_⟩
    · split at hmem <;> simp only [List.mem_cons] <;> tauto
    · by_cases hk : keyLess s x b = true
      · rw [if_pos hk] at hmin hmem
        rw [keyLess_iff] at hk
        rcases hi with rfl | hi
        · by_cases hxa : x = a
          · exact hxa ▸ hk
          · exact keyBefore_trans (hmin x (.inl rfl) hxa) hk
        · exact hmin i (by simpa using hi) hne
      · rw [if_neg hk] at hmin hmem
        rw [keyLess_iff] at hk
        rcases hi with rfl | hi
        · exact hmin i (.inl rfl) hne
        · rcases List.mem_cons.mp hi with rfl | hi
          · by_cases hib : i = b
            · exact hmin i (.inl hib) hne
            · have hbi : KeyBefore s b i := (keyBefore_total hib).resolve_left hk
              by_cases hba : b = a
              · exact hba ▸ hbi
              · exact keyBefore_trans (hmin b (.inl rfl) hba) hbi
          · exact hmin i (.inr hi) hne

/-- The least member exists exactly when the queue is not empty. -/
theorem leastMember_eq_none : leastMember s = none ↔ queueMembers s = [] := by
  unfold leastMember
  cases h : queueMembers s with
  | nil => simp
  | cons x l =>
    obtain ⟨a, ha, _⟩ := foldl_lesser s l x
    simp only [List.foldl_cons, lesser]
    rw [ha]; simp

/-- The least member is the queue member whose key comes before every other's. -/
theorem leastMember_spec {a : Nat} : leastMember s = some a ↔
    (a < 511 ∧ inQueue s a = true) ∧ ∀ i, i < 511 → inQueue s i = true → i ≠ a → KeyBefore s a i := by
  have hex : queueMembers s ≠ [] → ∃ b, leastMember s = some b ∧ b ∈ queueMembers s ∧
      ∀ i ∈ queueMembers s, i ≠ b → KeyBefore s b i := by
    intro hne
    unfold leastMember
    cases h : queueMembers s with
    | nil => exact absurd h hne
    | cons x l =>
      obtain ⟨b, hb, hmem, hmin⟩ := foldl_lesser s l x
      exact ⟨b, by simpa [lesser] using hb, List.mem_cons.mpr hmem, fun i hi => hmin i (List.mem_cons.mp hi)⟩
  constructor
  · intro h
    have hne : queueMembers s ≠ [] := fun h0 => by rw [leastMember_eq_none.mpr h0] at h; cases h
    obtain ⟨b, hb, hmem, hmin⟩ := hex hne
    rw [h] at hb
    cases hb
    exact ⟨mem_queueMembers.mp hmem, fun i hi hq => hmin i (mem_queueMembers.mpr ⟨hi, hq⟩)⟩
  · rintro ⟨hmem, hmin⟩
    have hmem' : a ∈ queueMembers s := mem_queueMembers.mpr hmem
    obtain ⟨b, hb, hbm, hbmin⟩ := hex (fun h0 => by rw [h0] at hmem'; cases hmem')
    by_cases hab : a = b
    · rw [hb, hab]
    · have h1 := hbmin a hmem' hab
      have h2 := hmin b (mem_queueMembers.mp hbm).1 (mem_queueMembers.mp hbm).2 (Ne.symm hab)
      exact absurd (keyBefore_trans h1 h2) (keyBefore_irrefl b)

/-- Everything `extractMin` does on a queue that has a member. -/
theorem extractMin_of_least {a : Nat} (h : leastMember s = some a) : extractMin s = some (a, setInQueue s a false) := by
  simp only [extractMin, h, Option.map_some]

/-- The two extractions of a merge, from the two least members (R142, R143). -/
theorem leastTwo_extract {a b : Nat} (h : LeastTwo s a b) :
    leastMember s = some a ∧ leastMember (setInQueue s a false) = some b := by
  have hab : a ≠ b := fun hab => keyBefore_irrefl (s := s) a (by have := h.first; rwa [← hab] at this)
  have hq : ∀ i, inQueue (setInQueue s a false) i = if i = a then false else inQueue s i :=
    fun i => inQueue_setInQueue s h.slots.1 i false
  constructor
  · refine leastMember_spec.mpr ⟨⟨h.slots.1, h.members.1⟩, fun i hi hm hne => ?_⟩
    by_cases hib : i = b
    · exact hib ▸ h.first
    · exact keyBefore_trans h.first (h.rest i hi hm hne hib)
  · refine leastMember_spec.mpr ⟨⟨h.slots.2, by rw [hq, if_neg (Ne.symm hab)]; exact h.members.2⟩, fun i hi hm hne => ?_⟩
    rw [hq] at hm
    by_cases hia : i = a
    · rw [if_pos hia] at hm; cases hm
    · rw [if_neg hia] at hm
      exact (keyBefore_congr (fun k => nodeAt_setInQueue s a k false) b i).mpr (h.rest i hi hm hia hne)

/-- A merge takes the two least members (R143). -/
theorem mergeOnce_of_leastTwo {a b : Nat} (hq : 2 ≤ s.qcnt.toNat) (h : LeastTwo s a b) :
    mergeOnce s = insertJoined (setInQueue (setInQueue s a false) b false) a b := by
  obtain ⟨h1, h2⟩ := leastTwo_extract h
  simp only [mergeOnce, hq, if_true, mergeTwo, extractMin_of_least h1, extractMin_of_least h2, Option.bind_some,
    Option.map_some, Option.getD_some]

/-- Below two members a merge does nothing (R143). -/
theorem mergeOnce_of_lt (hq : s.qcnt.toNat < 2) : mergeOnce s = s := if_neg (by omega)

/-- A queue of two members or more has a least and a second least. -/
theorem exists_leastTwo (h : 2 ≤ (queueMembers s).length) : ∃ a b, LeastTwo s a b := by
  have hne : queueMembers s ≠ [] := fun h0 => by rw [h0] at h; simp at h
  obtain ⟨a, ha⟩ := Option.ne_none_iff_exists'.mp (mt leastMember_eq_none.mp hne)
  obtain ⟨⟨ha1, ha2⟩, hamin⟩ := leastMember_spec.mp ha
  have hq : ∀ i, inQueue (setInQueue s a false) i = if i = a then false else inQueue s i :=
    fun i => inQueue_setInQueue s ha1 i false
  have hne2 : queueMembers (setInQueue s a false) ≠ [] := by
    intro h0
    have hsub : ∀ i ∈ queueMembers s, i = a := by
      intro i hi
      by_contra hia
      obtain ⟨hi1, hi2⟩ := mem_queueMembers.mp hi
      have : i ∈ queueMembers (setInQueue s a false) := mem_queueMembers.mpr ⟨hi1, by rw [hq, if_neg hia]; exact hi2⟩
      rw [h0] at this; cases this
    have hnd := queueMembers_nodup s
    have hle : (queueMembers s).length ≤ [a].length :=
      (List.Nodup.subperm hnd fun i hi => by simpa using hsub i hi).length_le
    simp at hle; omega
  obtain ⟨b, hb⟩ := Option.ne_none_iff_exists'.mp (mt leastMember_eq_none.mp hne2)
  obtain ⟨⟨hb1, hb2⟩, hbmin⟩ := leastMember_spec.mp hb
  rw [hq] at hb2
  have hba : b ≠ a := fun hba => by rw [if_pos hba] at hb2; cases hb2
  rw [if_neg hba] at hb2
  refine ⟨a, b, ⟨ha1, hb1⟩, ⟨ha2, hb2⟩, hamin b hb1 hb2 hba, fun i hi hm hia hib => ?_⟩
  have := hbmin i hi (by rw [hq, if_neg hia]; exact hm) hib
  exact (keyBefore_congr (fun k => nodeAt_setInQueue s a k false) b i).mp this

/-- The end of a merge, read through the accessors. -/
theorem insertJoined_spec (a b : Nat) (hn : s.nnode.toNat < 511) :
    (∀ i, nodeAt (insertJoined s a b) i = if i = s.nnode.toNat then joinNode s a b else nodeAt s i) ∧
      (∀ i, inQueue (insertJoined s a b) i = if i = s.nnode.toNat then true else inQueue s i) ∧
      insertJoined s a b = { s with
        nodes := (insertJoined s a b).nodes, inq := (insertJoined s a b).inq,
        nnode := s.nnode + 1#10, qcnt := s.qcnt - 1#9 } := by
  refine ⟨fun i => ?_, fun i => ?_, ?_⟩
  · rw [show nodeAt (insertJoined s a b) i = nodeAt (setInQueue (setNode s s.nnode.toNat (joinNode s a b)) s.nnode.toNat true) i
      from rfl, nodeAt_setInQueue, nodeAt_setNode s hn]
  · rw [show inQueue (insertJoined s a b) i = inQueue (setInQueue (setNode s s.nnode.toNat (joinNode s a b)) s.nnode.toNat true) i
      from rfl, inQueue_setInQueue _ hn, inQueue_setNode]
  · simp only [insertJoined, setInQueue, setNode, show s.nnode.toNat < Config.nodeMax from hn, if_true]

/-! ### What R35 says at once of every queue member and of the room that is left -/

/-- A queue member is a slot in use (R35 (b)). -/
theorem lt_nnode_of_queued (h : TreeOk s) {i : Nat} (hi : i < 511) (hq : inQueue s i = true) : i < s.nnode.toNat := by
  by_contra hlt
  have h0 := (h.unused i hi (by omega)).2
  rw [hq] at h0
  cases h0

/-- A tree with a queue member has a leaf. -/
theorem one_le_nleaf (h : TreeOk s) (hq : 1 ≤ s.qcnt.toNat) : 1 ≤ s.nleaf.toNat := by
  by_contra h0
  have hs := h.sizes
  have hn : s.nnode.toNat = 0 := by omega
  have hz : queueMembers s = [] := by
    rw [List.eq_nil_iff_forall_not_mem]
    intro i hi
    have := lt_nnode_of_queued h (mem_queueMembers.mp hi).1 (mem_queueMembers.mp hi).2
    omega
  have hc := h.queueCount
  rw [hz, List.length_nil] at hc
  omega

/-- A queue of two members or more leaves a free slot (R35 (c), (d)). -/
theorem nnode_lt_of_two_le (h : TreeOk s) (hq : 2 ≤ s.qcnt.toNat) : s.nnode.toNat < 511 := by
  have hs := h.sizes
  have hm := h.merges (one_le_nleaf h (by omega))
  have h4 : s.nleaf.toNat ≤ 256 := hs.2.2
  omega

/-! ### The leaf insertion -/

/-- The present symbols, ascending (R27, R141). -/
def presentSymbols (s : State) : List Byte := allSymbols.filter fun x => decide (countOf s x ≠ 0#32)

theorem presentSymbols_length_le (s : State) : (presentSymbols s).length ≤ 256 := by
  have := List.length_filter_le (fun x => decide (countOf s x ≠ 0#32)) allSymbols
  rw [allSymbols_length] at this
  exact this

/-- The leaf `TLOAD` makes for a symbol (R141). -/
def leafFor (s : State) (x : Byte) : Node :=
  { leaf := true, sym := x, weight := countOf s x, left := 0#9, right := 0#9 }

/-- The tree after the leaves of the symbols `done` were inserted into the empty tree of `s`. -/
structure Loaded (s t : State) (done : List Byte) : Prop where
  frame : t = { s with nodes := t.nodes, inq := t.inq, nnode := t.nnode, nleaf := t.nleaf, qcnt := t.qcnt }
  nnode : t.nnode.toNat = done.length
  nleaf : t.nleaf.toNat = done.length
  qcnt : t.qcnt.toNat = done.length
  node : ∀ i, nodeAt t i = (done[i]?.map (leafFor s)).getD Node.zero
  queued : ∀ i, inQueue t i = decide (i < done.length)

theorem loaded_clearTree (s : State) : Loaded s (clearTree s) [] where
  frame := rfl
  nnode := rfl
  nleaf := rfl
  qcnt := rfl
  node := fun i => by simp [nodeAt, clearTree]
  queued := fun i => by simp [inQueue, clearTree]

theorem loaded_loadLeaf {done : List Byte} {x : Byte} (h : Loaded s t done) (hlt : done.length < 256) :
    Loaded s (loadLeaf t x) (if countOf s x = 0#32 then done else done ++ [x]) := by
  have hc : countOf t x = countOf s x := countOf_congr (by rw [h.frame]) x
  by_cases h0 : countOf s x = 0#32
  · simpa only [loadLeaf, hc, h0, if_true] using h
  · have hn : t.nnode.toNat < 511 := by rw [h.nnode]; omega
    have e1 := h.nnode
    have e2 := h.nleaf
    have e3 := h.qcnt
    rw [if_neg h0]
    have hload : loadLeaf t x =
        { setInQueue (setNode t t.nnode.toNat (leafFor s x)) t.nnode.toNat true with
          nnode := t.nnode + 1#10, nleaf := t.nleaf + 1#9, qcnt := t.qcnt + 1#9 } := by
      simp only [loadLeaf, hc, h0, if_false, leafFor]
    refine ⟨?_, ?_, ?_, ?_, fun i => ?_, fun i => ?_⟩
    · rw [hload]
      simp only [setInQueue, setNode, show t.nnode.toNat < Config.nodeMax from hn, if_true]
      rw [h.frame]
    · rw [hload]; simp only [BitVec.toNat_add, BitVec.toNat_ofNat, List.length_append, List.length_singleton]; omega
    · rw [hload]; simp only [BitVec.toNat_add, BitVec.toNat_ofNat, List.length_append, List.length_singleton]; omega
    · rw [hload]; simp only [BitVec.toNat_add, BitVec.toNat_ofNat, List.length_append, List.length_singleton]; omega
    · rw [show nodeAt (loadLeaf t x) i = nodeAt (setInQueue (setNode t t.nnode.toNat (leafFor s x)) t.nnode.toNat true) i
        from nodeAt_congr (by rw [hload]) i, nodeAt_setInQueue, nodeAt_setNode t hn, h.node, e1]
      rcases Nat.lt_trichotomy i done.length with hi | hi | hi
      · rw [if_neg (by omega), List.getElem?_append_left hi]
      · rw [if_pos hi, hi]; simp
      · rw [if_neg (by omega), List.getElem?_eq_none (by omega), List.getElem?_eq_none (by simp; omega)]
    · rw [show inQueue (loadLeaf t x) i = inQueue (setInQueue (setNode t t.nnode.toNat (leafFor s x)) t.nnode.toNat true) i
        from inQueue_congr (by rw [hload]) i, inQueue_setInQueue _ hn, inQueue_setNode, h.queued, e1]
      simp only [List.length_append, List.length_singleton]
      by_cases hi : i = done.length
      · simp [hi]
      · rw [if_neg hi]; simp; omega

theorem loaded_foldl (l : List Byte) {done : List Byte} (h : Loaded s t done) (hlt : done.length + l.length ≤ 256) :
    Loaded s (l.foldl loadLeaf t) (done ++ l.filter fun x => decide (countOf s x ≠ 0#32)) := by
  induction l generalizing t done with
  | nil => simpa using h
  | cons x l ih =>
    simp only [List.length_cons] at hlt
    have h1 := loaded_loadLeaf (x := x) h (by omega)
    by_cases h0 : countOf s x = 0#32
    · rw [if_pos h0] at h1
      have h2 := ih h1 (by omega)
      simpa [h0] using h2
    · rw [if_neg h0] at h1
      have h2 := ih h1 (by simp; omega)
      simpa [h0] using h2

/-- Everything `TLOAD` does (R141): one leaf per present symbol, ascending, each queued. -/
theorem loadTree_spec (s : State) : Loaded s (loadTree s) (presentSymbols s) := by
  have h := loaded_foldl allSymbols (loaded_clearTree s) (by simp)
  simpa [loadTree, presentSymbols] using h

end Sys2Proof.Machine
end

