-- ==== Sys2Proof/Laws/Unpacker.lean ====
section
/-! SUPPORT. What delivering and releasing bits do. -/

namespace Sys2Proof.Machine

open Sys2Proof.Safety

variable {s : State} {x : Bool}

/-! ### Delivering one bit -/

/-- Raw mode: the bit goes out (R204). -/
theorem deliver_raw (h : s.umode = true) : deliver s x = { s with obits := s.obits ++ [x] } := by
  simp only [deliver, h, if_true, emitBit]

/-- Decode mode after an overflow: the bit is dropped (R205). -/
theorem deliver_dropped (h : s.umode = false) (ho : s.candOvf = true) : deliver s x = s := by
  simp [deliver, decodeBit, h, ho]

/-- Decode mode with a full candidate: the bit is dropped and the overflow remembered (R205). -/
theorem deliver_full (h : s.umode = false) (ho : s.candOvf = false) (hc : s.cand.length = 255) :
    deliver s x = { s with candOvf := true } := by
  simp [deliver, decodeBit, h, ho, hc]

/-- Decode mode, the candidate matches: the symbol goes out and the candidate is emptied (R205). -/
theorem deliver_hit (h : s.umode = false) (ho : s.candOvf = false) (hc : s.cand.length ≠ 255) {t : Byte}
    (ht : symbolOf s (s.cand ++ [x]) = some t) :
    deliver s x = { s with osyms := s.osyms ++ [t], cand := [] } := by
  simp [deliver, decodeBit, h, ho, hc, ht, emitSym]

/-- Decode mode, no match: the candidate grows (R205). -/
theorem deliver_miss (h : s.umode = false) (ho : s.candOvf = false) (hc : s.cand.length ≠ 255)
    (ht : symbolOf s (s.cand ++ [x]) = none) : deliver s x = { s with cand := s.cand ++ [x] } := by
  simp [deliver, decodeBit, h, ho, hc, ht]

/-- Everything delivering a bit can do. -/
theorem deliver_cases (s : State) (x : Bool) :
    (s.umode = true ∧ deliver s x = { s with obits := s.obits ++ [x] }) ∨
    (s.umode = false ∧ s.candOvf = true ∧ deliver s x = s) ∨
    (s.umode = false ∧ s.candOvf = false ∧ s.cand.length = 255 ∧ deliver s x = { s with candOvf := true }) ∨
    (s.umode = false ∧ s.candOvf = false ∧ s.cand.length ≠ 255 ∧ ∃ t, symbolOf s (s.cand ++ [x]) = some t ∧
      deliver s x = { s with osyms := s.osyms ++ [t], cand := [] }) ∨
    (s.umode = false ∧ s.candOvf = false ∧ s.cand.length ≠ 255 ∧ symbolOf s (s.cand ++ [x]) = none ∧
      deliver s x = { s with cand := s.cand ++ [x] }) := by
  rcases Bool.eq_false_or_eq_true s.umode with h | h
  · exact .inl ⟨h, deliver_raw h⟩
  · rcases Bool.eq_false_or_eq_true s.candOvf with ho | ho
    · exact .inr (.inl ⟨h, ho, deliver_dropped h ho⟩)
    · by_cases hc : s.cand.length = 255
      · exact .inr (.inr (.inl ⟨h, ho, hc, deliver_full h ho hc⟩))
      · cases ht : symbolOf s (s.cand ++ [x]) with
        | none => exact .inr (.inr (.inr (.inr ⟨h, ho, hc, rfl, deliver_miss h ho hc ht⟩)))
        | some t => exact .inr (.inr (.inr (.inl ⟨h, ho, hc, t, rfl, deliver_hit h ho hc ht⟩)))

/-- Delivering a bit writes the decoder's state and the two streams, and nothing else (R204, R205). -/
theorem deliver_frame (s : State) (x : Bool) : ∃ cand candOvf osyms obits, deliver s x =
    { s with cand := cand, candOvf := candOvf, osyms := osyms, obits := obits } := by
  rcases deliver_cases s x with ⟨-, h⟩ | ⟨-, -, h⟩ | ⟨-, -, -, h⟩ | ⟨-, -, -, t, -, h⟩ | ⟨-, -, -, -, h⟩ <;>
    exact ⟨_, _, _, _, h⟩

@[simp] theorem deliver_hb : (deliver s x).hb = s.hb := by obtain ⟨_, _, _, _, h⟩ := deliver_frame s x; rw [h]

@[simp] theorem deliver_upadn : (deliver s x).upadn = s.upadn := by
  obtain ⟨_, _, _, _, h⟩ := deliver_frame s x; rw [h]

@[simp] theorem deliver_umode : (deliver s x).umode = s.umode := by
  obtain ⟨_, _, _, _, h⟩ := deliver_frame s x; rw [h]

@[simp] theorem deliver_ct : (deliver s x).ct = s.ct := by obtain ⟨_, _, _, _, h⟩ := deliver_frame s x; rw [h]

theorem symbolOf_congr {t : State} (h : t.ct = s.ct) (c : Bits) : symbolOf t c = symbolOf s c := by
  simp only [symbolOf, codeOf, h]

/-- Delivery does not look at the hold-back FIFO. -/
theorem deliver_holdBits (s : State) (x : Bool) (h : Bits) :
    deliver (holdBits s h) x = holdBits (deliver s x) h := by
  have hs : symbolOf (holdBits s h) (s.cand ++ [x]) = symbolOf s (s.cand ++ [x]) := symbolOf_congr rfl _
  rcases deliver_cases s x with ⟨h1, e⟩ | ⟨h1, h2, e⟩ | ⟨h1, h2, h3, e⟩ | ⟨h1, h2, h3, t, h4, e⟩ | ⟨h1, h2, h3, h4, e⟩ <;>
    rw [e]
  · exact deliver_raw (s := holdBits s h) h1
  · exact deliver_dropped (s := holdBits s h) h1 h2
  · exact deliver_full (s := holdBits s h) h1 h2 h3
  · exact deliver_hit (s := holdBits s h) h1 h2 h3 (hs.trans h4)
  · exact deliver_miss (s := holdBits s h) h1 h2 h3 (hs.trans h4)

@[simp] theorem holdBits_hb (h : Bits) : (holdBits s h).hb = h := rfl

@[simp] theorem holdBits_upadn (h : Bits) : (holdBits s h).upadn = s.upadn := rfl

@[simp] theorem holdBits_holdBits (h h' : Bits) : holdBits (holdBits s h) h' = holdBits s h' := rfl

@[simp] theorem holdBits_self : holdBits s s.hb = s := rfl

/-! ### Delivering many bits -/

/-- Delivering bits in order writes the decoder's state and the two streams, and nothing else. -/
theorem foldl_deliver_frame (s : State) (xs : Bits) : ∃ cand candOvf osyms obits, xs.foldl deliver s =
    { s with cand := cand, candOvf := candOvf, osyms := osyms, obits := obits } := by
  induction xs generalizing s with
  | nil => exact ⟨_, _, _, _, rfl⟩
  | cons x xs ih =>
    obtain ⟨a, b, c, d, h⟩ := deliver_frame s x
    rw [List.foldl_cons, h]
    exact ih _

theorem foldl_deliver_holdBits (s : State) (xs h : Bits) :
    xs.foldl deliver (holdBits s h) = holdBits (xs.foldl deliver s) h := by
  induction xs generalizing s with
  | nil => rfl
  | cons x xs ih => rw [List.foldl_cons, List.foldl_cons, deliver_holdBits, ih]

/-- Raw mode: all the bits go out in order (R204). -/
theorem foldl_deliver_raw (xs : Bits) (h : s.umode = true) : xs.foldl deliver s = { s with obits := s.obits ++ xs } := by
  induction xs generalizing s with
  | nil => simp
  | cons x xs ih =>
    rw [List.foldl_cons, deliver_raw h]
    exact (ih (s := { s with obits := s.obits ++ [x] }) h).trans (by simp)

/-- Decode mode: the bits go through the greedy decoder (R205). -/
theorem foldl_deliver_decode (xs : Bits) (h : s.umode = false) : ∃ cand candOvf ys,
    xs.foldl deliver s = { s with cand := cand, candOvf := candOvf, osyms := s.osyms ++ ys } ∧
      Greedy (codeOf s) s.cand s.candOvf xs cand candOvf ys := by
  induction xs generalizing s with
  | nil => exact ⟨s.cand, s.candOvf, [], by simp, .done _ _⟩
  | cons x xs ih =>
    rw [List.foldl_cons]
    rcases deliver_cases s x with ⟨h1, -⟩ | ⟨-, h2, e⟩ | ⟨-, h2, h3, e⟩ | ⟨-, h2, h3, t, h4, e⟩ | ⟨-, h2, h3, h4, e⟩
    · rw [h] at h1; cases h1
    · obtain ⟨c, o, ys, e', g⟩ := ih h
      rw [e]
      exact ⟨c, o, ys, e', by rw [h2] at g ⊢; exact .dropped x g⟩
    · obtain ⟨c, o, ys, e', g⟩ := ih (s := { s with candOvf := true }) h
      rw [e]
      exact ⟨c, o, ys, e', by rw [h2]; exact .full x h3 g⟩
    · obtain ⟨c, o, ys, e', g⟩ := ih (s := { s with osyms := s.osyms ++ [t], cand := [] }) h
      rw [e]
      refine ⟨c, o, t :: ys, by rw [e']; simp, ?_⟩
      rw [h2] at g ⊢
      exact .hit x t h3 (codeOf_of_symbolOf h4) g
    · obtain ⟨c, o, ys, e', g⟩ := ih (s := { s with cand := s.cand ++ [x] }) h
      rw [e]
      refine ⟨c, o, ys, e', ?_⟩
      rw [h2] at g ⊢
      exact .miss x h3 (symbolOf_eq_none.mp h4) g

/-! ### The hold-back FIFO -/

/-- The loop of `UBYTE` releases, oldest first, the bits above the newest `UPADN` and delivers them (R202, R203). -/
theorem releaseBits_spec {fuel : Nat} (h : s.hb.length ≤ fuel + s.upadn.toNat) :
    releaseBits fuel s = (s.hb.take (s.hb.length - s.upadn.toNat)).foldl deliver
      (holdBits s (s.hb.drop (s.hb.length - s.upadn.toNat))) := by
  induction fuel generalizing s with
  | zero => simp [releaseBits, show s.hb.length - s.upadn.toNat = 0 by omega]
  | succ fuel ih =>
    by_cases hlt : s.upadn.toNat < s.hb.length
    · obtain ⟨x, rest, hx⟩ : ∃ x rest, s.hb = x :: rest := by
        cases hb : s.hb with
        | nil => rw [hb] at hlt; simp at hlt
        | cons x rest => exact ⟨x, rest, rfl⟩
      have hl : s.hb.length = rest.length + 1 := by rw [hx]; rfl
      have hrel : releaseBits (fuel + 1) s = releaseBits fuel (holdBits (deliver s x) rest) := by
        rw [← deliver_holdBits, releaseBits, if_pos hlt, hx]
      have hn : s.hb.length - s.upadn.toNat = (rest.length - s.upadn.toNat) + 1 := by omega
      rw [hrel, ih (by simp only [holdBits_hb, holdBits_upadn, deliver_upadn]; omega), hn, hx, List.take_succ_cons,
        List.drop_succ_cons, List.foldl_cons, deliver_holdBits, holdBits_hb, holdBits_upadn, deliver_upadn,
        holdBits_holdBits]
    · simp [releaseBits, hlt, show s.hb.length - s.upadn.toNat = 0 by omega]

end Sys2Proof.Machine
end

