-- ==== Sys2Proof/Laws/Frames.lean ====
section
/-! SUPPORT. Which elements each command's rule can write when it raises no fault, said once per rule, and the three shapes
a command has. -/

namespace Sys2Proof.Machine

open Sys2Proof.Safety

variable {s t : State}

/-! ### The shapes of a command -/

/-- Every command but `RST` and `RD` is its rule behind the fault state's gate (R240, R257). -/
theorem exec_shape (i : Instr) :
    i = .rst ∨ (∃ r, i = .rd r) ∨ ∃ rule : State → Except FaultCode State, ∀ s, exec i s = runCommand i rule s := by
  cases i <;> first | exact .inl rfl | exact .inr (.inl ⟨_, rfl⟩) | exact .inr (.inr ⟨_, fun _ => rfl⟩)

/-- The register numbers of R54 are those up to `0x11`. -/
theorem registerValue_isSome (s : State) (r : Byte) : (registerValue s r).isSome = true ↔ r.toNat ≤ 0x11 := by
  have key : ∀ r : Byte, r.toNat ≤ 0x11 ↔ r ∈ [0x00#8, 0x01#8, 0x02#8, 0x03#8, 0x04#8, 0x05#8, 0x06#8, 0x07#8, 0x08#8,
      0x09#8, 0x0A#8, 0x0B#8, 0x0C#8, 0x0D#8, 0x0E#8, 0x0F#8, 0x10#8, 0x11#8] := by decide +kernel
  rw [key]
  unfold registerValue
  split <;> first | exact ⟨fun _ => by simp, fun _ => rfl⟩ | skip
  simp_all

/-- `RD` of a register of R54. -/
theorem readRegister_ok {r : Byte} {v : Word} (h : registerValue s r = some v) :
    readRegister r s = .ok (emitRsp s [v]) := by
  simp only [readRegister, h]

/-- `RD` of a number above `0x11`. -/
theorem readRegister_error {r : Byte} (h : 0x11 < r.toNat) : readRegister r s = .error .illArg := by
  have hn : registerValue s r = none := by
    rw [← Option.not_isSome_iff_eq_none, registerValue_isSome]; omega
  simp only [readRegister, hn]

/-! ### The tree builder -/

/-- `TLOAD` writes the tree and the queue. -/
theorem loadTree_frame (s : State) : loadTree s = { s with
    nodes := (loadTree s).nodes, inq := (loadTree s).inq, nnode := (loadTree s).nnode, nleaf := (loadTree s).nleaf,
    qcnt := (loadTree s).qcnt } := (loadTree_spec s).frame

theorem setNode_frame (s : State) (i : Nat) (n : Node) : setNode s i n = { s with nodes := (setNode s i n).nodes } := by
  unfold setNode; split <;> rfl

theorem setInQueue_frame (s : State) (i : Nat) (b : Bool) :
    setInQueue s i b = { s with inq := (setInQueue s i b).inq } := by
  unfold setInQueue; split <;> rfl

theorem insertJoined_frame (s : State) (a b : Nat) : insertJoined s a b = { s with
    nodes := (insertJoined s a b).nodes, inq := (insertJoined s a b).inq, nnode := s.nnode + 1#10,
    qcnt := s.qcnt - 1#9 } := by
  unfold insertJoined
  rw [setInQueue_frame, setNode_frame]

/-- `TMERGE` writes the nodes, the queue, and their two counters. -/
theorem mergeOnce_frame (s : State) : mergeOnce s = { s with
    nodes := (mergeOnce s).nodes, inq := (mergeOnce s).inq, nnode := (mergeOnce s).nnode,
    qcnt := (mergeOnce s).qcnt } := by
  unfold mergeOnce
  split
  · unfold mergeTwo extractMin
    cases leastMember s with
    | none => rfl
    | some a =>
      simp only [Option.map_some, Option.bind_some]
      cases leastMember (setInQueue s a false) with
      | none => rfl
      | some b =>
        simp only [Option.map_some, Option.getD_some]
        rw [insertJoined_frame, setInQueue_frame, setInQueue_frame s a false]
  · rfl

theorem mergeWhile_frame (fuel : Nat) (s : State) : mergeWhile fuel s = { s with
    nodes := (mergeWhile fuel s).nodes, inq := (mergeWhile fuel s).inq, nnode := (mergeWhile fuel s).nnode,
    qcnt := (mergeWhile fuel s).qcnt } := by
  induction fuel generalizing s with
  | zero => rfl
  | succ fuel ih =>
    rw [mergeWhile]
    split
    · have h := ih (mergeOnce s)
      rw [mergeOnce_frame s] at h
      rw [mergeOnce_frame s]
      exact h
    · rfl

/-- `BUILD` writes the tree and the queue. -/
theorem buildTree_frame (s : State) : buildTree s = { s with
    nodes := (buildTree s).nodes, inq := (buildTree s).inq, nnode := (buildTree s).nnode, nleaf := (buildTree s).nleaf,
    qcnt := (buildTree s).qcnt } := by
  unfold buildTree
  rw [mergeWhile_frame, loadTree_frame]

/-! ### The code table -/

/-- `WALK` writes `CT` and `NCODE`. -/
theorem walkTree_frame (h : walkTree s = .ok t) : t = { s with ct := t.ct, ncode := t.ncode } := by
  unfold walkTree at h
  split at h
  · cases h
  · split at h
    · split at h
      · cases h; rfl
      · cases h
        rw [storeCodes_frame]
        rfl
    · cases h; rfl

/-- `CLDB` appends to `CSTG`. -/
theorem stageBits_frame {k : BitVec 5} {bits : BitVec 16} (h : stageBits k bits s = .ok t) :
    t = { s with cstg := s.cstg ++ seqOf k bits } := by
  unfold stageBits at h
  split at h
  · cases h
  · split at h <;> cases h
    rfl

/-- `CSET` writes `CT`, `NCODE` and `CSTG`. -/
theorem commitCode_frame {x : Byte} (h : commitCode x s = .ok t) :
    t = { setCode s x s.cstg with ncode := s.ncode + 1#9, cstg := [] } := by
  unfold commitCode at h
  split at h
  · cases h
  · split at h
    · cases h
    · split at h <;> cases h
      rfl

/-! ### The packer -/

/-- `PBEGT` and `PBEGI` open a run. -/
theorem openPacking_frame {n : Nat} (h : openPacking n s = .ok t) : s.pact = false ∧
    t = { s with obytes := s.obytes ++ [BitVec.ofNat 8 (8 - n)], padn := BitVec.ofNat 4 (8 - n), acc := [], pact := true } := by
  unfold openPacking at h
  split at h <;> cases h
  next hp => exact ⟨by simpa using hp, rfl⟩

/-- Packing writes `OBYTES` and `ACC`, and only adds to `OBYTES`. -/
theorem pack_frame (q : Bits) (s : State) : ∃ out, pack q s = { s with obytes := s.obytes ++ out, acc := (pack q s).acc } :=
  ⟨_, rfl⟩

/-- `ENC` packs the symbol's code. -/
theorem encodeSymbol_frame {x : Byte} (h : encodeSymbol x s = .ok t) : s.pact = true ∧ t = pack (codeOf s x) s := by
  unfold encodeSymbol at h
  split at h
  · cases h
  · next hp => split at h <;> cases h; exact ⟨by simpa using hp, rfl⟩

/-- `PBITS` packs its bits. -/
theorem packBits_frame {k : BitVec 5} {bits : BitVec 16} (h : packBits k bits s = .ok t) :
    s.pact = true ∧ t = pack (seqOf k bits) s := by
  unfold packBits at h
  split at h
  · cases h
  · split at h <;> cases h
    next hp => exact ⟨by simpa using hp, rfl⟩

/-- `PEND` emits the last byte and closes the run. -/
theorem closePacking_frame (h : closePacking s = .ok t) : s.pact = true ∧ t = { s with
    obytes := s.obytes ++ [byteOf (s.acc ++ zeroBits (8 - s.acc.length))], acc := [], pact := false } := by
  unfold closePacking at h
  split at h
  · cases h
  · next hp => split at h <;> cases h; exact ⟨by simpa using hp, rfl⟩

/-! ### The unpacker -/

/-- `UBEGIN` opens a run. -/
theorem openUnpacking_frame {m : BitVec 1} (h : openUnpacking m s = .ok t) : s.uact = false ∧ t = { s with
    uact := true, umode := m == 1#1, uhdr := false, upadn := 0#8, hb := [], cand := [], candOvf := false } := by
  unfold openUnpacking at h
  split at h <;> cases h
  next hp => exact ⟨by simpa using hp, rfl⟩

/-- A body byte: its bits go behind the held ones, and all but the newest `UPADN` are delivered (R202, R203). -/
theorem takeBody_spec (b : Byte) (s : State) :
    takeBody b s = ((s.hb ++ bits8 b).take ((s.hb ++ bits8 b).length - s.upadn.toNat)).foldl deliver
      (holdBits s ((s.hb ++ bits8 b).drop ((s.hb ++ bits8 b).length - s.upadn.toNat))) := by
  unfold takeBody
  rw [releaseBits_spec (by simp only [holdBits_hb]; omega)]
  rfl

/-- A body byte writes `HB`, the decoder's state and its two streams. -/
theorem takeBody_frame (b : Byte) (s : State) : takeBody b s = { s with
    hb := (takeBody b s).hb, cand := (takeBody b s).cand, candOvf := (takeBody b s).candOvf,
    osyms := (takeBody b s).osyms, obits := (takeBody b s).obits } := by
  obtain ⟨_, _, _, _, h⟩ := foldl_deliver_frame
    (holdBits s ((s.hb ++ bits8 b).drop ((s.hb ++ bits8 b).length - s.upadn.toNat)))
    ((s.hb ++ bits8 b).take ((s.hb ++ bits8 b).length - s.upadn.toNat))
  rw [takeBody_spec, h]
  rfl

/-- `UBYTE` takes the pad count or a body byte. -/
theorem takeByte_frame {b : Byte} (h : takeByte b s = .ok t) : s.uact = true ∧
    (s.uhdr = false ∧ t = { s with upadn := b, uhdr := true } ∨ s.uhdr = true ∧ t = takeBody b s) := by
  unfold takeByte at h
  split at h
  · cases h
  · next hp =>
    split at h <;> cases h
    · next hh => exact ⟨by simpa using hp, .inl ⟨hh, rfl⟩⟩
    · next hh => exact ⟨by simpa using hp, .inr ⟨by simpa using hh, rfl⟩⟩

/-- `UEND` discards the held bits and closes the run. -/
theorem closeUnpacking_frame (h : closeUnpacking s = .ok t) : s.uact = true ∧ s.uhdr = true ∧
    t = { s with hb := [], uact := false, uhdr := false } := by
  unfold closeUnpacking at h
  split at h
  · cases h
  · next hp =>
    split at h
    · cases h
    · next hh =>
      split at h
      · cases h
      · split at h <;> cases h
        exact ⟨by simpa using hp, by simpa using hh, rfl⟩

end Sys2Proof.Machine
end

