-- ==== Sys2Proof/Laws/Exec.lean ====
section
/-! SUPPORT. Everything executing a command can do, said once: what every invariant and every frame is proved from. -/

namespace Sys2Proof.Machine

open Sys2Proof.Safety

variable {s t : State}

/-! ### Each command as its rule behind the gate -/

theorem exec_rst (s : State) : exec .rst s = .next (resetBlock s) := rfl

theorem exec_rd (r : Byte) (s : State) : exec (.rd r) s = runAlways (.rd r) (readRegister r) s := rfl

theorem exec_nop (s : State) : exec .nop s = runCommand .nop (fun s => .ok s) s := rfl

theorem exec_fclr (s : State) : exec .fclr s =
    runCommand .fclr (fun s => .ok { s with ft := [], total := 0#32 }) s := rfl

theorem exec_facc (x : Byte) (s : State) : exec (.facc x) s = runCommand (.facc x) (countSymbol x) s := rfl

theorem exec_frd (x : Byte) (s : State) : exec (.frd x) s =
    runCommand (.frd x) (fun s => .ok (emitRsp s [countOf s x])) s := rfl

theorem exec_tload (s : State) : exec .tload s = runCommand .tload (fun s => .ok (loadTree s)) s := rfl

theorem exec_tmerge (s : State) : exec .tmerge s = runCommand .tmerge (fun s => .ok (mergeOnce s)) s := rfl

theorem exec_build (s : State) : exec .build s = runCommand .build (fun s => .ok (buildTree s)) s := rfl

theorem exec_nrd (i : BitVec 9) (s : State) : exec (.nrd i) s = runCommand (.nrd i) (readNode i) s := rfl

theorem exec_walk (s : State) : exec .walk s = runCommand .walk walkTree s := rfl

theorem exec_cclr (s : State) : exec .cclr s =
    runCommand .cclr (fun s => .ok { clearCodes s with cstg := [] }) s := rfl

theorem exec_cldb (k : BitVec 5) (b : BitVec 16) (s : State) : exec (.cldb k b) s =
    runCommand (.cldb k b) (stageBits k b) s := rfl

theorem exec_cset (x : Byte) (s : State) : exec (.cset x) s = runCommand (.cset x) (commitCode x) s := rfl

theorem exec_crd (x : Byte) (s : State) : exec (.crd x) s =
    runCommand (.crd x) (fun s => .ok (emitRsp s (lengthWord (codeOf s x) :: codeWords (codeOf s x)))) s := rfl

theorem exec_pbegt (s : State) : exec .pbegt s =
    runCommand .pbegt (fun s => openPacking (codedLength s % 8) s) s := rfl

theorem exec_pbegi (n : BitVec 3) (s : State) : exec (.pbegi n) s =
    runCommand (.pbegi n) (openPacking n.toNat) s := rfl

theorem exec_enc (x : Byte) (s : State) : exec (.enc x) s = runCommand (.enc x) (encodeSymbol x) s := rfl

theorem exec_pbits (k : BitVec 5) (b : BitVec 16) (s : State) : exec (.pbits k b) s =
    runCommand (.pbits k b) (packBits k b) s := rfl

theorem exec_pend (s : State) : exec .pend s = runCommand .pend closePacking s := rfl

theorem exec_ubegin (m : BitVec 1) (s : State) : exec (.ubegin m) s =
    runCommand (.ubegin m) (openUnpacking m) s := rfl

theorem exec_ubyte (b : Byte) (s : State) : exec (.ubyte b) s = runCommand (.ubyte b) (takeByte b) s := rfl

theorem exec_uend (s : State) : exec .uend s = runCommand .uend closeUnpacking s := rfl

/-! ### Everything a command can do -/

/-- The effect of a command that is executed and raises no fault, with the checks it passed, before it is counted. -/
inductive Effect (s : State) : Instr → State → Prop where
  | nop : Effect s .nop s
  | rd {r : Byte} {v : Word} : registerValue s r = some v → Effect s (.rd r) (emitRsp s [v])
  | fclr : Effect s .fclr { s with ft := [], total := 0#32 }
  | facc {x : Byte} : s.total ≠ 0xFFFFFFFF#32 →
      Effect s (.facc x) { setCount s x (countOf s x + 1#32) with total := s.total + 1#32 }
  | frd {x : Byte} : Effect s (.frd x) (emitRsp s [countOf s x])
  | tload : Effect s .tload (loadTree s)
  | tmerge : Effect s .tmerge (mergeOnce s)
  | build : Effect s .build (buildTree s)
  | nrd {i : BitVec 9} : i.toNat < s.nnode.toNat →
      Effect s (.nrd i) (emitRsp s [(nodeAt s i.toNat).weight, nodeWord s i.toNat])
  | walk {t : State} : walkTree s = .ok t → Effect s .walk t
  | cclr : Effect s .cclr { s with ct := [], ncode := 0#9, cstg := [] }
  | cldb {k : BitVec 5} {b : BitVec 16} : seqFieldOk k b = true → s.cstg.length + k.toNat ≤ 255 →
      Effect s (.cldb k b) { s with cstg := s.cstg ++ seqOf k b }
  | cset {x : Byte} : s.cstg ≠ [] → codeOf s x = [] → (∀ y, codeOf s y ≠ s.cstg) →
      Effect s (.cset x) { setCode s x s.cstg with ncode := s.ncode + 1#9, cstg := [] }
  | crd {x : Byte} : Effect s (.crd x) (emitRsp s (lengthWord (codeOf s x) :: codeWords (codeOf s x)))
  | pbegt : s.pact = false → Effect s .pbegt { s with
      obytes := s.obytes ++ [BitVec.ofNat 8 (8 - codedLength s % 8)], padn := BitVec.ofNat 4 (8 - codedLength s % 8),
      acc := [], pact := true }
  | pbegi {n : BitVec 3} : s.pact = false → Effect s (.pbegi n) { s with
      obytes := s.obytes ++ [BitVec.ofNat 8 (8 - n.toNat)], padn := BitVec.ofNat 4 (8 - n.toNat), acc := [],
      pact := true }
  | enc {x : Byte} : s.pact = true → codeOf s x ≠ [] → Effect s (.enc x) (pack (codeOf s x) s)
  | pbits {k : BitVec 5} {b : BitVec 16} : seqFieldOk k b = true → s.pact = true →
      Effect s (.pbits k b) (pack (seqOf k b) s)
  | pend : s.pact = true → 8 - s.acc.length = s.padn.toNat → Effect s .pend { s with
      obytes := s.obytes ++ [byteOf (s.acc ++ zeroBits (8 - s.acc.length))], acc := [], pact := false }
  | ubegin {m : BitVec 1} : s.uact = false → Effect s (.ubegin m) { s with
      uact := true, umode := m == 1#1, uhdr := false, upadn := 0#8, hb := [], cand := [], candOvf := false }
  | header {b : Byte} : s.uact = true → s.uhdr = false → Effect s (.ubyte b) { s with upadn := b, uhdr := true }
  | body {b : Byte} : s.uact = true → s.uhdr = true → Effect s (.ubyte b) (takeBody b s)
  | uend : s.uact = true → s.uhdr = true → s.upadn.toNat ≤ s.hb.length → (s.umode = false → s.cand = []) →
      Effect s .uend { s with hb := [], uact := false, uhdr := false }

/-- The rule of `FACC` (R132). -/
theorem countSymbol_ok {x : Byte} (h : countSymbol x s = .ok t) : Effect s (.facc x) t := by
  unfold countSymbol at h
  split at h <;> cases h
  next hp => exact .facc hp

/-- The rule of `NRD` (R148). -/
theorem readNode_ok {i : BitVec 9} (h : readNode i s = .ok t) : Effect s (.nrd i) t := by
  unfold readNode at h
  split at h <;> cases h
  next hp => exact .nrd (by omega)

/-- The rule of `RD` (R243). -/
theorem readRegister_effect {r : Byte} (h : readRegister r s = .ok t) : Effect s (.rd r) t := by
  unfold readRegister at h
  split at h <;> cases h
  next hp => exact .rd hp

/-- The rule of `CLDB` (R166). -/
theorem stageBits_ok {k : BitVec 5} {b : BitVec 16} (h : stageBits k b s = .ok t) : Effect s (.cldb k b) t := by
  unfold stageBits at h
  split at h
  · cases h
  · next hf =>
    split at h <;> cases h
    next hl => exact .cldb (by simpa using hf) (not_lt.mp hl)

/-- The rule of `CSET` (R167). -/
theorem commitCode_ok {x : Byte} (h : commitCode x s = .ok t) : Effect s (.cset x) t := by
  unfold commitCode at h
  split at h
  · cases h
  · next h1 =>
    split at h
    · cases h
    · next h2 =>
      split at h <;> cases h
      next h3 =>
        rw [codeTaken_iff] at h3
        exact .cset (fun h0 => h1 (by rw [h0]; rfl)) (List.length_eq_zero_iff.mp (by omega)) (by simpa using h3)

/-- The rule of `ENC` (R184). -/
theorem encodeSymbol_ok {x : Byte} (h : encodeSymbol x s = .ok t) : Effect s (.enc x) t := by
  unfold encodeSymbol at h
  split at h
  · cases h
  · next hp =>
    split at h <;> cases h
    next hc => exact .enc (by simpa using hp) fun h0 => hc (by rw [h0]; rfl)

/-- The rule of `PBITS` (R185). -/
theorem packBits_ok {k : BitVec 5} {b : BitVec 16} (h : packBits k b s = .ok t) : Effect s (.pbits k b) t := by
  unfold packBits at h
  split at h
  · cases h
  · next hf =>
    split at h <;> cases h
    next hp => exact .pbits (by simpa using hf) (by simpa using hp)

/-- The rule of `PEND` (R186). -/
theorem closePacking_ok (h : closePacking s = .ok t) : Effect s .pend t := by
  unfold closePacking at h
  split at h
  · cases h
  · next hp =>
    split at h <;> cases h
    next hn => exact .pend (by simpa using hp) (not_not.mp hn)

/-- The rule of `UBYTE` (R202). -/
theorem takeByte_ok {b : Byte} (h : takeByte b s = .ok t) : Effect s (.ubyte b) t := by
  obtain ⟨ha, ⟨hh, rfl⟩ | ⟨hh, rfl⟩⟩ := takeByte_frame h
  · exact .header ha hh
  · exact .body ha hh

/-- The rule of `UEND` (R206). -/
theorem closeUnpacking_ok (h : closeUnpacking s = .ok t) : Effect s .uend t := by
  unfold closeUnpacking at h
  split at h
  · cases h
  · next hp =>
    split at h
    · cases h
    · next hh =>
      split at h
      · cases h
      · next hl =>
        split at h <;> cases h
        next hc =>
          refine .uend (by simpa using hp) (by simpa using hh) (by omega) fun hm => ?_
          exact List.length_eq_zero_iff.mp (by simp only [hm, true_and] at hc; omega)

/-- Everything executing a command can do: the reset, the drop, the fault entry, or the command's effect. -/
theorem exec_cases {i : Instr} (h : exec i s = .next t) :
    (i = .rst ∧ t = resetBlock s) ∨ (i ≠ .rst ∧ s.err ≠ 0#8 ∧ t = countCommand s) ∨
    (i ≠ .rst ∧ s.err = 0#8 ∧ ∃ e, t = afterFault (faultNumber e) (encode i) s) ∨
    ∃ u, Effect s i u ∧ t = countCommand u := by
  have gate : ∀ rule : State → Except FaultCode State, runCommand i rule s = .next t → i ≠ .rst →
      (∀ u, rule s = .ok u → Effect s i u) →
      (i ≠ .rst ∧ s.err ≠ 0#8 ∧ t = countCommand s) ∨
        (i ≠ .rst ∧ s.err = 0#8 ∧ ∃ e, t = afterFault (faultNumber e) (encode i) s) ∨
        ∃ u, Effect s i u ∧ t = countCommand u := by
    intro rule hr hi he
    rcases runCommand_cases hr with ⟨h1, h2⟩ | ⟨-, u, hu, h2⟩ | ⟨h1, e, -, h2⟩
    · exact .inl ⟨hi, h1, h2⟩
    · exact .inr (.inr ⟨u, he u hu, h2⟩)
    · exact .inr (.inl ⟨hi, h1, e, h2⟩)
  cases i with
  | rst => cases h; exact .inl ⟨rfl, rfl⟩
  | rd r =>
    rcases runAlways_cases (i := .rd r) h with ⟨u, hu, h2⟩ | ⟨h1, e, -, h2⟩ | ⟨h1, h2⟩
    · exact .inr (.inr (.inr ⟨u, readRegister_effect hu, h2⟩))
    · exact .inr (.inr (.inl ⟨by simp, h1, e, h2⟩))
    · exact .inr (.inl ⟨by simp, h1, h2⟩)
  | nop =>
    simp only [exec, execNop] at h
    exact .inr (gate _ h (by simp) fun u hu => by cases hu; exact .nop)
  | fclr =>
    simp only [exec, execFclr] at h
    exact .inr (gate _ h (by simp) fun u hu => by cases hu; exact .fclr)
  | facc x => exact .inr (gate _ h (by simp) fun u hu => countSymbol_ok hu)
  | frd x =>
    simp only [exec, execFrd] at h
    exact .inr (gate _ h (by simp) fun u hu => by cases hu; exact .frd)
  | tload =>
    simp only [exec, execTload] at h
    exact .inr (gate _ h (by simp) fun u hu => Except.ok.inj hu ▸ .tload)
  | tmerge =>
    simp only [exec, execTmerge] at h
    exact .inr (gate _ h (by simp) fun u hu => by cases hu; exact .tmerge)
  | build =>
    simp only [exec, execBuild] at h
    exact .inr (gate _ h (by simp) fun u hu => Except.ok.inj hu ▸ .build)
  | nrd i => exact .inr (gate _ h (by simp) fun u hu => readNode_ok hu)
  | walk => exact .inr (gate _ h (by simp) fun u hu => .walk hu)
  | cclr =>
    simp only [exec, execCclr] at h
    exact .inr (gate _ h (by simp) fun u hu => by cases hu; exact .cclr)
  | cldb k b => exact .inr (gate _ h (by simp) fun u hu => stageBits_ok hu)
  | cset x => exact .inr (gate _ h (by simp) fun u hu => commitCode_ok hu)
  | crd x =>
    simp only [exec, execCrd] at h
    exact .inr (gate _ h (by simp) fun u hu => by cases hu; exact .crd)
  | pbegt =>
    simp only [exec, execPbegt] at h
    refine .inr (gate _ h (by simp) fun u hu => ?_)
    obtain ⟨hp, rfl⟩ := openPacking_frame hu
    exact .pbegt hp
  | pbegi n =>
    refine .inr (gate _ h (by simp) fun u hu => ?_)
    obtain ⟨hp, rfl⟩ := openPacking_frame hu
    exact .pbegi hp
  | enc x => exact .inr (gate _ h (by simp) fun u hu => encodeSymbol_ok hu)
  | pbits k b => exact .inr (gate _ h (by simp) fun u hu => packBits_ok hu)
  | pend => exact .inr (gate _ h (by simp) fun u hu => closePacking_ok hu)
  | ubegin m =>
    refine .inr (gate _ h (by simp) fun u hu => ?_)
    obtain ⟨hp, rfl⟩ := openUnpacking_frame hu
    exact .ubegin hp
  | ubyte b => exact .inr (gate _ h (by simp) fun u hu => takeByte_ok hu)
  | uend => exact .inr (gate _ h (by simp) fun u hu => closeUnpacking_ok hu)

/-- Outside the fault state a command whose checks pass has its effect and is counted. -/
theorem exec_of_effect {i : Instr} (he : s.err = 0#8) (h : Effect s i t) : exec i s = .next (countCommand t) := by
  cases h with
  | nop => rw [exec_nop]; exact runCommand_ok he rfl
  | rd hv => rw [exec_rd]; exact runAlways_ok (readRegister_ok hv)
  | fclr => rw [exec_fclr]; exact runCommand_ok he rfl
  | facc hx => rw [exec_facc]; exact runCommand_ok he (if_neg hx)
  | frd => rw [exec_frd]; exact runCommand_ok he rfl
  | tload => rw [exec_tload, runCommand_eq, if_pos he, finish]
  | tmerge => rw [exec_tmerge, runCommand_eq, if_pos he, finish]
  | build => rw [exec_build, runCommand_eq, if_pos he, finish]
  | nrd hi => rw [exec_nrd]; exact runCommand_ok he (if_neg (by omega))
  | walk hw => rw [exec_walk]; exact runCommand_ok he hw
  | cclr => rw [exec_cclr]; exact runCommand_ok he rfl
  | cldb hf hl =>
    rw [exec_cldb]
    exact runCommand_ok he (by simp only [stageBits, hf, Bool.true_eq_false, if_false]; exact if_neg (not_lt.mpr hl))
  | cset h1 h2 h3 =>
    have hc : ¬ codeTaken s s.cstg = true := by rw [codeTaken_iff]; rintro ⟨y, hy⟩; exact h3 y hy
    rw [exec_cset]
    exact runCommand_ok he (by
      simp only [commitCode, h2, List.length_nil, List.length_eq_zero_iff, h1, hc, if_false]
      rfl)
  | crd => rw [exec_crd]; exact runCommand_ok he rfl
  | pbegt hp => rw [exec_pbegt]; exact runCommand_ok he (by simp only [openPacking, hp]; rfl)
  | pbegi hp => rw [exec_pbegi]; exact runCommand_ok he (by simp only [openPacking, hp]; rfl)
  | enc hp hc =>
    rw [exec_enc]
    exact runCommand_ok he (by
      simp only [encodeSymbol, hp, Bool.true_eq_false, if_false, List.length_eq_zero_iff, hc])
  | pbits hf hp => rw [exec_pbits]; exact runCommand_ok he (by simp only [packBits, hf, hp, Bool.true_eq_false, if_false])
  | pend hp hn =>
    rw [exec_pend]
    exact runCommand_ok he (by simp only [closePacking, hp, hn, ne_eq, not_true_eq_false, Bool.true_eq_false, if_false]; rfl)
  | ubegin hp => rw [exec_ubegin]; exact runCommand_ok he (by simp only [openUnpacking, hp]; rfl)
  | header ha hh => rw [exec_ubyte]; exact runCommand_ok he (by simp only [takeByte, ha, hh]; rfl)
  | body ha hh => rw [exec_ubyte]; exact runCommand_ok he (by simp only [takeByte, ha, hh, Bool.true_eq_false, if_false])
  | uend ha hh hl hc =>
    have hc' : ¬ (s.umode = false ∧ 1 ≤ s.cand.length) := by
      rintro ⟨hm, h1⟩; rw [hc hm] at h1; simp at h1
    rw [exec_uend]
    exact runCommand_ok he (by
      simp only [closeUnpacking, ha, hh, Bool.true_eq_false, if_false, not_lt.mpr hl, hc'])

/-- An effect never touches the fault registers, the command count, or what the host has presented. -/
theorem Effect.frame {i : Instr} (h : Effect s i t) :
    t.err = s.err ∧ t.errCmd = s.errCmd ∧ t.errIdx = s.errIdx ∧ t.cmdCnt = s.cmdCnt ∧ t.pending = s.pending := by
  cases h with
  | tload => rw [loadTree_frame]; exact ⟨rfl, rfl, rfl, rfl, rfl⟩
  | tmerge => rw [mergeOnce_frame]; exact ⟨rfl, rfl, rfl, rfl, rfl⟩
  | build => rw [buildTree_frame]; exact ⟨rfl, rfl, rfl, rfl, rfl⟩
  | walk h => rw [walkTree_frame h]; exact ⟨rfl, rfl, rfl, rfl, rfl⟩
  | enc => obtain ⟨_, h⟩ := pack_frame (codeOf s _) s; rw [h]; exact ⟨rfl, rfl, rfl, rfl, rfl⟩
  | pbits => obtain ⟨_, h⟩ := pack_frame (seqOf _ _) s; rw [h]; exact ⟨rfl, rfl, rfl, rfl, rfl⟩
  | body => rw [takeBody_frame]; exact ⟨rfl, rfl, rfl, rfl, rfl⟩
  | _ => exact ⟨rfl, rfl, rfl, rfl, rfl⟩

end Sys2Proof.Machine
end

