-- ==== Sys2Proof/Laws/Host.lean ====
section
/-! SUPPORT. Lists of commands in order, and what the host makes of the streams they leave (45_container_host.md). -/

namespace Sys2Proof.Machine

@[simp] theorem execAll_nil (s : State) : execAll [] s = .next s := rfl

/-- A command that answers a next state is followed by the rest of the list. -/
theorem execAll_cons {i : Instr} {s t : State} (h : exec i s = .next t) (rest : List Instr) :
    execAll (i :: rest) s = execAll rest t := by
  simp [execAll, h]

/-- A list that answers a next state is followed by the list behind it. -/
theorem execAll_append {l : List Instr} {s t : State} (h : execAll l s = .next t) (rest : List Instr) :
    execAll (l ++ rest) s = execAll rest t := by
  induction l generalizing s with
  | nil => cases h; rfl
  | cons i l ih =>
    cases hi : exec i s with
    | next u => rw [execAll_cons hi] at h; rw [List.cons_append, execAll_cons hi, ih h]
    | fault r => simp [execAll, hi] at h
    | refused r => simp [execAll, hi] at h

/-- The first of `CRD`'s words decides whether there is an entry (R225). -/
@[simp] theorem responseEntry_zero (x : Byte) (value : List Word) : responseEntry x (0#32 :: value) = none := by
  simp [responseEntry]

/-- The entry of a code, from its length and any words that stand for its value (R169, R225). -/
theorem responseEntry_code (x : Byte) {c : Bits} {value : List Word} (hne : c ≠ []) (hlen : c.length < 2 ^ 32)
    (hv : wordsVal value = bitsVal c) : responseEntry x (lengthWord c :: value) = some (x, c) := by
  have hl : (lengthWord c).toNat = c.length := by rw [lengthWord, BitVec.toNat_ofNat, Nat.mod_eq_of_lt hlen]
  have h0 : lengthWord c ≠ 0#32 := fun h => hne (List.length_eq_zero_iff.mp (by rw [← hl, h]; rfl))
  rw [responseEntry, if_neg h0, hl, hv, lowBits_bitsVal]

/-- The words of one `CRD` give its symbol's entry, and the rest the entries of the symbols behind it (R225). -/
theorem responseEntries_cons (x : Byte) (xs : List Byte) {ws : List Word} (h : ws.length = 9) (rest : List Word) :
    responseEntries (x :: xs) (ws ++ rest) = (responseEntry x ws).toList ++ responseEntries xs rest := by
  rw [responseEntries, List.take_left' h, List.drop_left' h]

/-- `RD ERR` that returns 0 lets the result stand (R226, R227). -/
@[simp] theorem ifNoFault_zero {α : Type} (rsp : List Word) (r : α) : ifNoFault (rsp ++ [0#32]) r = .ok r := by
  simp [ifNoFault]

/-- `RD ERR` that returns a code voids the result (R227, R230). -/
theorem ifNoFault_fault {α : Type} (rsp : List Word) {err : Word} (h : err ≠ 0#32) (r : α) :
    ifNoFault (rsp ++ [err]) r = .error (errorKind err) := by
  simp [ifNoFault, h]

/-- A host operation whose commands answer a next state makes its result from that state. -/
theorem hostOperation_next {commands : List Instr} {s t : State} (h : execAll commands s = .next t)
    (result : State → Except HostError (List Byte)) : hostOperation commands result s = result t := by
  rw [hostOperation, h]

end Sys2Proof.Machine
end

