-- ==== Sys2Proof/Laws/PerInstr.lean ====
section
/-! SUPPORT. The family `OpcodeByte`, one lemma per constructor: the word a command is encoded as carries the opcode of its
row (spec 30_encoding.md R100, R104) in bits 31:24. -/

namespace Sys2Proof.Laws.OpcodeByte

/-- The opcode field of the encoded command is its row's opcode. -/
def Statement (i : Instr) : Prop := opcodeOf (encode i) = opcodeFor i

theorem nop : Statement (.nop) := opcodeOf_assemble _ _

theorem rst : Statement (.rst) := opcodeOf_assemble _ _

theorem rd (r : Byte) : Statement (.rd r) := opcodeOf_assemble _ _

theorem fclr : Statement (.fclr) := opcodeOf_assemble _ _

theorem facc (sym : Byte) : Statement (.facc sym) := opcodeOf_assemble _ _

theorem frd (sym : Byte) : Statement (.frd sym) := opcodeOf_assemble _ _

theorem tload : Statement (.tload) := opcodeOf_assemble _ _

theorem tmerge : Statement (.tmerge) := opcodeOf_assemble _ _

theorem build : Statement (.build) := opcodeOf_assemble _ _

theorem nrd (idx : BitVec 9) : Statement (.nrd idx) := opcodeOf_assemble _ _

theorem walk : Statement (.walk) := opcodeOf_assemble _ _

theorem cclr : Statement (.cclr) := opcodeOf_assemble _ _

theorem cldb (k : BitVec 5) (bits : BitVec 16) : Statement (.cldb k bits) := opcodeOf_assemble _ _

theorem cset (sym : Byte) : Statement (.cset sym) := opcodeOf_assemble _ _

theorem crd (sym : Byte) : Statement (.crd sym) := opcodeOf_assemble _ _

theorem pbegt : Statement (.pbegt) := opcodeOf_assemble _ _

theorem pbegi (imm3 : BitVec 3) : Statement (.pbegi imm3) := opcodeOf_assemble _ _

theorem enc (sym : Byte) : Statement (.enc sym) := opcodeOf_assemble _ _

theorem pbits (k : BitVec 5) (bits : BitVec 16) : Statement (.pbits k bits) := opcodeOf_assemble _ _

theorem pend : Statement (.pend) := opcodeOf_assemble _ _

theorem ubegin (m : BitVec 1) : Statement (.ubegin m) := opcodeOf_assemble _ _

theorem ubyte (b : Byte) : Statement (.ubyte b) := opcodeOf_assemble _ _

theorem uend : Statement (.uend) := opcodeOf_assemble _ _

end Sys2Proof.Laws.OpcodeByte
end

