-- ==== Sys2Proof/Tests/Slice0.lean ====
section
/-! SUPPORT. The model's own tests: ill-formed terms, decoded words, one step per command, all with results of the spec
(its examples and 95_test_vectors.md), and for every obligation that has hypotheses a witness that meets them. -/

namespace Sys2Proof.Tests

open Sys2Proof.Machine Sys2Proof.Safety

set_option Elab.async false

/-! ### Well-formedness: each check refuses a term -/

theorem test_wf_count : (Instr.cldb 17#5 0#16).wellFormed = false ∧ (Instr.pbits 31#5 0#16).wellFormed = false ∧
    (Instr.cldb 16#5 0xFFFF#16).wellFormed = true ∧ countFits 17#5 = false ∧ countFits 16#5 = true := by decide

theorem test_wf_stray : (Instr.cldb 2#5 4#16).wellFormed = false ∧ (Instr.pbits 0#5 1#16).wellFormed = false ∧
    (Instr.pbits 2#5 3#16).wellFormed = true ∧ noStrayBits 15#5 0x8000#16 = false ∧ noStrayBits 0#5 0#16 = true := by
  decide

/-! ### Decoding: a word per command, written out from R101 and R104 -/

theorem test_decode_system : decodeWord 0x00000000#32 = .ok .nop ∧ decodeWord 0x01000000#32 = .ok .rst ∧
    decodeWord 0x02000002#32 = .ok (.rd 2#8) := by decide +kernel

theorem test_decode_frequency : decodeWord 0x10000000#32 = .ok .fclr ∧ decodeWord 0x11000061#32 = .ok (.facc 0x61#8) ∧
    decodeWord 0x120000FF#32 = .ok (.frd 255#8) := by decide +kernel

theorem test_decode_tree : decodeWord 0x20000000#32 = .ok .tload ∧ decodeWord 0x21000000#32 = .ok .tmerge ∧
    decodeWord 0x22000000#32 = .ok .build ∧ decodeWord 0x230001FE#32 = .ok (.nrd 510#9) := by decide +kernel

/-- R103's second example among them: `1,1` is `k = 2`, `bits = 0x0003`. -/
theorem test_decode_code : decodeWord 0x30000000#32 = .ok .walk ∧ decodeWord 0x31000000#32 = .ok .cclr ∧
    decodeWord 0x32020003#32 = .ok (.cldb 2#5 3#16) ∧ decodeWord 0x33000062#32 = .ok (.cset 0x62#8) ∧
    decodeWord 0x34000063#32 = .ok (.crd 0x63#8) := by decide +kernel

/-- R103: `1,0,1,1,0,0,1,1,1,0,1` is `k = 11`, `bits = 0x059D`. -/
theorem test_decode_packer : decodeWord 0x40000000#32 = .ok .pbegt ∧ decodeWord 0x41000005#32 = .ok (.pbegi 5#3) ∧
    decodeWord 0x42000061#32 = .ok (.enc 0x61#8) ∧ decodeWord 0x430B059D#32 = .ok (.pbits 11#5 0x059D#16) ∧
    decodeWord 0x44000000#32 = .ok .pend := by decide +kernel

theorem test_decode_unpacker : decodeWord 0x50000001#32 = .ok (.ubegin 1#1) ∧
    decodeWord 0x5100001F#32 = .ok (.ubyte 0x1F#8) ∧ decodeWord 0x52000000#32 = .ok .uend := by decide +kernel

/-- R106, R107: one reserved bit per format, and both conditions of format `B`. -/
theorem test_decode_rejects : decodeWord 0x03000000#32 = .error .illCmd ∧ decodeWord 0xFFFFFFFF#32 = .error .illCmd ∧
    decodeWord 0x00000001#32 = .error .illArg ∧ decodeWord 0x02000100#32 = .error .illArg ∧
    decodeWord 0x23000200#32 = .error .illArg ∧ decodeWord 0x32200000#32 = .error .illArg ∧
    decodeWord 0x43110000#32 = .error .illArg ∧ decodeWord 0x32020004#32 = .error .illArg ∧
    decodeWord 0x41000008#32 = .error .illArg ∧ decodeWord 0x50000002#32 = .error .illArg := by decide +kernel

/-- R109: `CLDB "11"` is `0x32020003`; R110: `CODE 'b', "11"` is the words `0x32020003`, `0x33000062`. -/
theorem test_assembler : (assembleLine "CLDB" (.digits [true, true])).map encode = some 0x32020003#32 ∧
    (assembleLine "RD" (.register "ERR")).map encode = some 0x02000002#32 ∧ assembleLine "PBEGI" (.number 8) = none ∧
    (codeCommands 0x62#8 [true, true]).map encode = [0x32020003#32, 0x33000062#32] := by decide +kernel

/-- The first step of the machine runs the word placed for it, whatever the row. -/
theorem test_fetch : (match step (State.reset.withFetchWord 32 0x11000061) with
      | .next t => t.total == 1#32 && t.pending == []
      | _ => false) = true ∧
    decodeTableWord 32 0x22000000 = some .build ∧ decodeTableWord 32 0x05000000 = none := by decide +kernel

/-! ### Helpers -/

/-- What `f` reads of the next state a command answers. -/
def after {α : Type} (i : Instr) (s : State) (f : State → α) : Option α :=
  match exec i s with
  | .next t => some (f t)
  | _ => none

/-- The frequency table of `"aaabbc"` (R134). -/
def counted : State :=
  { State.reset with ft := [(0x61, 3#32), (0x62, 2#32), (0x63, 1#32)], total := 6#32 }

/-- A leaf. -/
def leafNode (x : Byte) (w : Word) : Node := { leaf := true, sym := x, weight := w, left := 0#9, right := 0#9 }

/-- An internal node. -/
def innerNode (w : Word) (l r : BitVec 9) : Node := { leaf := false, sym := 0#8, weight := w, left := l, right := r }

/-- `counted` after `TLOAD` (R141's example). -/
def loaded : State := { counted with
  nodes := [(0, leafNode 0x61#8 3#32), (1, leafNode 0x62#8 2#32), (2, leafNode 0x63#8 1#32)]
  inq := [(0, true), (1, true), (2, true)], nnode := 3#10, nleaf := 3#9, qcnt := 3#9 }

/-- `loaded` after one `TMERGE` (R143's example). -/
def merged : State := { loaded with
  nodes := loaded.nodes ++ [(3, innerNode 3#32 2#9 1#9)]
  inq := [(0, true), (3, true)], nnode := 4#10, qcnt := 2#9 }

/-- `counted` after `BUILD` (R144's example). -/
def built : State := { merged with
  nodes := merged.nodes ++ [(4, innerNode 6#32 0#9 3#9)], inq := [(4, true)], nnode := 5#10, qcnt := 1#9 }

/-- One symbol counted and built: a lone leaf (R145 (b)). -/
def lone : State := { State.reset with
  ft := [(0x7A, 4#32)], total := 4#32, nodes := [(0, leafNode 0x7A#8 4#32)], inq := [(0, true)], nnode := 1#10,
  nleaf := 1#9, qcnt := 1#9 }

/-- `built` after `WALK` (R161's example). -/
def coded : State := { built with
  ct := [(0x61, [false]), (0x62, [true, true]), (0x63, [true, false])], ncode := 3#9 }

/-- A code of 255 bits, staged. -/
def staged (n : Nat) : State := { State.reset with cstg := List.replicate n true }

/-- A packing run with `PADN = 7`, as R186's example closes it, with some bits pending. -/
def packing (acc : Bits) : State := { coded with pact := true, padn := 7#4, acc := acc, obytes := [0x07#8] }

/-- A decode run over `coded` with pad count 7 and some held bits. -/
def decoding (hb : Bits) : State := { coded with uact := true, uhdr := true, upadn := 7#8, hb := hb }

/-- The fault state left by the `CSET` of R167's example. -/
def faulted : State := { State.reset with err := 0x08#8, errCmd := 0x33000063#32, errIdx := 3#32, cmdCnt := 4#32 }

/-! ### One step per command -/

/-- R241: `NOP` at index 4 leaves `CMDCNT = 5`. -/
theorem test_nop : after .nop { coded with cmdCnt := 4#32 } id = some { coded with cmdCnt := 5#32 } := by decide +kernel

/-- R242: `RST` in the fault state. -/
theorem test_rst : after .rst { faulted with obytes := [1#8] } id = some State.reset := by decide +kernel

/-- R243: from reset `RD ID` emits `0x48554607`; in the fault state `RD ERR` emits 8. -/
theorem test_rd : after (.rd 0#8) State.reset (·.rsp) = some [0x48554607#32] ∧
    after (.rd 2#8) faulted (·.rsp) = some [0x00000008#32] ∧
    after (.rd 1#8) faulted (·.rsp) = some [0x00000001#32] := by decide +kernel

/-- R243, R257: a bad number is `E_ILLARG`, and in the fault state is dropped. -/
theorem test_rd_bad : after (.rd 0x12#8) State.reset (fun t => (t.err, t.errCmd)) = some (0x02#8, 0x02000012#32) ∧
    after (.rd 0x12#8) faulted (fun t => (t.err, t.rsp, t.cmdCnt)) = some (0x08#8, [], 5#32) := by decide +kernel

theorem test_fclr : after .fclr counted (fun t => (t.ft, t.total)) = some ([], 0#32) := by decide +kernel

/-- R132: from reset `FACC 0x61` gives `FT[0x61] = 1`, `TOTAL = 1`; at `CNT_MAX` it faults. -/
theorem test_facc : after (.facc 0x61#8) State.reset (fun t => (countOf t 0x61#8, t.total)) = some (1#32, 1#32) ∧
    after (.facc 0#8) { State.reset with total := 0xFFFFFFFF#32 } (fun t => (t.err, t.total)) =
      some (0x04#8, 0xFFFFFFFF#32) := by decide +kernel

/-- R133: `FRD 'a'` emits `0x00000003`. -/
theorem test_frd : after (.frd 0x61#8) counted (·.rsp) = some [0x00000003#32] ∧
    after (.frd 0x61#8) { counted with err := 1#8 } (·.rsp) = some [] := by decide +kernel

/-- R141's example. -/
theorem test_tload : after .tload counted id = some { loaded with cmdCnt := 1#32 } := by decide +kernel

/-- R143's example, both merges: the second meets the tie `(3, 0)` against `(3, 3)`. -/
theorem test_tmerge : after .tmerge loaded id = some { merged with cmdCnt := 1#32 } ∧
    after .tmerge merged id = some { built with cmdCnt := 1#32 } := by decide +kernel

/-- R144's example. -/
theorem test_build : after .build counted id = some { built with cmdCnt := 1#32 } := by decide +kernel

/-- R148's examples. -/
theorem test_nrd : after (.nrd 3#9) built (·.rsp) = some [0x00000003#32, 0x00080200#32] ∧
    after (.nrd 4#9) built (·.rsp) = some [0x00000006#32, 0x40000600#32] ∧
    after (.nrd 0#9) built (·.rsp) = some [0x00000003#32, 0x80000061#32] := by decide +kernel

theorem test_nrd_unused : after (.nrd 5#9) built (·.err) = some 0x02#8 ∧ after (.nrd 511#9) built (·.err) = some 0x02#8 := by
  decide +kernel

/-- R161's example; R163: the lone leaf has the code `0`. -/
theorem test_walk : after .walk built id = some { coded with cmdCnt := 1#32 } ∧
    after .walk lone (fun t => (t.ct, t.ncode)) = some ([(0x7A, [false])], 1#9) := by decide +kernel

theorem test_walk_incomplete : after .walk merged (·.err) = some 0x05#8 := by decide +kernel

theorem test_cclr : after .cclr coded (fun t => (t.ct, t.ncode, t.cstg)) = some ([], 0#9, []) := by decide +kernel

/-- R166: from `[1]`, `CLDB "10"` gives `[1,1,0]`; a 256th bit faults. -/
theorem test_cldb : after (.cldb 2#5 2#16) (staged 1) (·.cstg) = some [true, true, false] ∧
    after (.cldb 1#5 1#16) (staged 255) (fun t => (t.err, t.cstg.length)) = some (0x06#8, 255) := by decide +kernel

/-- R167's example: `CSET 'b'` of `11` commits it, and `11` once more for `'c'` is a duplicate. -/
theorem test_cset : after (.cset 0x62#8) (staged 2) (fun t => (t.ct, t.ncode, t.cstg)) =
      some ([(0x62, [true, true])], 1#9, []) ∧
    after (.cset 0x64#8) { coded with cstg := [true, true] } (·.err) = some 0x08#8 := by decide +kernel

/-- R169's example. -/
theorem test_crd : after (.crd 0x63#8) coded (·.rsp) =
    some [2#32, 0#32, 0#32, 0#32, 0#32, 0#32, 0#32, 0#32, 2#32] := by decide +kernel

/-- R182's example: `3*1 + 2*2 + 1*2 = 9`, so `PADN = 7`; R188: empty tables give 8. -/
theorem test_pbegt : after .pbegt coded (fun t => (t.obytes, t.padn, t.pact)) = some ([0x07#8], 7#4, true) ∧
    after .pbegt State.reset (·.obytes) = some [0x08#8] := by decide +kernel

/-- R183: `PBEGI 3` emits `0x05`. -/
theorem test_pbegi : after (.pbegi 3#3) State.reset (·.obytes) = some [0x05#8] ∧
    after (.pbegi 3#3) (packing []) (·.err) = some 0x03#8 := by decide +kernel

/-- R184's examples. -/
theorem test_enc : after (.enc 0x63#8) (packing [false, false, false, true, true, true, true])
      (fun t => (t.obytes, t.acc)) = some ([0x07#8, 0x1F#8], [false]) ∧
    after (.enc 0x64#8) (packing []) (·.err) = some 0x09#8 := by decide +kernel

/-- R185's example: `PBITS "10110011101"` emits `0xB3` and leaves `[1,0,1]`. -/
theorem test_pbits : after (.pbits 11#5 0x059D#16) { State.reset with pact := true, padn := 5#4, obytes := [0x05#8] }
      (fun t => (t.obytes, t.acc)) = some ([0x05#8, 0xB3#8], [true, false, true]) := by decide +kernel

/-- R186's example, and an announced count that does not fit. -/
theorem test_pend : after .pend (packing [false]) (fun t => (t.obytes, t.acc, t.pact)) = some ([0x07#8, 0x00#8], [], false) ∧
    after .pend (packing []) (fun t => (t.err, t.pact)) = some (0x0A#8, true) := by decide +kernel

theorem test_ubegin : after (.ubegin 1#1) { State.reset with cand := [true], candOvf := true }
      (fun t => (t.uact, t.umode, t.cand, t.candOvf)) = some (true, true, [], false) ∧
    after (.ubegin 0#1) (decoding []) (·.err) = some 0x03#8 := by decide +kernel

/-- R202's example: the second body byte releases 8 bits and decodes `a a b b c`, 7 bits stay held. -/
theorem test_ubyte : after (.ubyte 0x00#8) { decoding [false, false, true, true, true, true, true] with osyms := [0x61#8] }
      (fun t => (t.osyms, t.hb.length, t.cand)) =
        some ([0x61#8, 0x61#8, 0x61#8, 0x62#8, 0x62#8, 0x63#8], 7, []) := by decide +kernel

/-- R205: a bit released while `CAND` holds 255 unmatched bits is dropped and remembered. -/
theorem test_ubyte_overflow : after (.ubyte 0xFF#8) { decoding [] with cand := List.replicate 255 false }
      (fun t => (t.candOvf, t.cand.length, t.osyms, t.hb.length)) = some (true, 255, [], 7) := by decide +kernel

/-- R206's example, and its checks in order: no header, too few held bits, a leftover candidate. -/
theorem test_uend : after .uend (decoding (zeroBits 7)) (fun t => (t.uact, t.uhdr, t.hb, t.err)) =
      some (false, false, [], 0#8) ∧
    after .uend { decoding [] with uhdr := false } (·.err) = some 0x0B#8 ∧
    after .uend { decoding (zeroBits 6) with cand := [true] } (·.err) = some 0x0B#8 ∧
    after .uend { decoding (zeroBits 7) with cand := [true] } (·.err) = some 0x0C#8 := by decide +kernel

/-- R222, R224's example: the table `a = 0`, `b = 11`, `c = 10` and its container. -/
theorem test_container : serializeTable coded =
      [0x01#8, 3#8, 0#8, 0x61#8, 1#8, 0x00#8, 0x62#8, 2#8, 0xC0#8, 0x63#8, 2#8, 0x80#8] ∧
    serializeTable State.reset = [0x01#8, 0#8, 0#8] ∧ (writeBlob [] [0x07#8]).length = 5 := by decide +kernel

/-- R169 and R225: `CRD` of `c` in that table, of a symbol without a code, and of a code of one zero bit. -/
theorem test_responseEntry :
    responseEntry 0x63#8 [2#32, 0#32, 0#32, 0#32, 0#32, 0#32, 0#32, 0#32, 2#32] = some (0x63#8, [true, false]) ∧
    responseEntry 0x64#8 (List.replicate 9 0#32) = none ∧
    responseEntry 0x7A#8 (1#32 :: List.replicate 8 0#32) = some (0x7A#8, [false]) := by decide +kernel

/-- The streams of the block after the compression of `aaabbc` up to the word that `RD ERR` returns (R226). -/
def compressed (err : Word) : State := { State.reset with
  rsp := List.replicate (9 * 0x61) 0#32 ++ (1#32 :: List.replicate 8 0#32) ++ (2#32 :: List.replicate 7 0#32 ++ [3#32]) ++
    (2#32 :: List.replicate 7 0#32 ++ [2#32]) ++ List.replicate (9 * 156) 0#32 ++ [err],
  obytes := [0x07#8, 0x1F#8, 0x00#8] }

/-- R226: the container of 95_test_vectors.md for `aaabbc`, and none where `RD ERR` did not return 0. -/
theorem test_compressResult : compressResult (compressed 0#32) = .ok
      ([0x0C#8, 0#8, 0#8, 0#8] ++
        [0x01#8, 3#8, 0#8, 0x61#8, 1#8, 0x00#8, 0x62#8, 2#8, 0xC0#8, 0x63#8, 2#8, 0x80#8] ++ [0x07#8, 0x1F#8, 0x00#8]) ∧
    compressResult (compressed 0x04#32) = .error (.blockFault 0x04#32) := by decide +kernel

/-- R227 and R230: the text where `RD ERR` returned 0; else no output and the error kind of the code. -/
theorem test_decompressResult :
    decompressResult { State.reset with osyms := [0x61#8], rsp := [0#32] } = .ok [0x61#8] ∧
    decompressResult { State.reset with osyms := [0x61#8], rsp := [0x0C#32] } = .error .unknownCodeSequence ∧
    decompressResult { State.reset with osyms := [0x61#8], rsp := [0x08#32] } = .error .malformedContainer := by decide

/-- R222 and R230: a blob of three bytes fails before any command. -/
theorem test_decompress_truncated : decompress [0#8, 0#8, 0#8] State.reset = .error .malformedContainer := rfl

/-! ### Witnesses: for every obligation with hypotheses, states and operands that meet them, clause by clause -/

/-- Two leaves left in the queue: the boundary of `TMERGE`'s check. -/
theorem treeOk_merged : TreeOk merged := by constructor <;> decide +kernel

theorem treeOk_loaded : TreeOk loaded := by constructor <;> decide +kernel

theorem treeOk_built : TreeOk built := by constructor <;> decide +kernel

theorem treeOk_lone : TreeOk lone := by constructor <;> decide +kernel

theorem treeOk_reset : TreeOk State.reset := by constructor <;> decide +kernel

/-- Slots that no run fills in this order, and an unequal pair of weights: not only reachable states are meant. -/
theorem treeOk_unreached : TreeOk { built with
    nodes := [(0, leafNode 0x61#8 9#32), (1, leafNode 0x62#8 2#32), (2, leafNode 0x63#8 0xFFFFFFFF#32),
      (3, innerNode 11#32 1#9 0#9), (4, innerNode 10#32 3#9 2#9)] } := by constructor <;> decide +kernel

theorem frequencyOk_counted : FrequencyOk counted := ⟨by decide +kernel⟩

theorem codeTableOk_reset : CodeTableOk State.reset :=
  ⟨fun _ _ => Nat.zero_le _, fun _ _ _ _ _ h => absurd rfl h, by decide +kernel, by decide +kernel⟩

/-- A table with a code of 255 bits. -/
def longest : State :=
  { State.reset with ct := [(0x00, List.replicate 255 true), (0xFF, [false])], ncode := 2#9, cstg := List.replicate 255 true }

theorem codeTableOk_longest : CodeTableOk longest := by
  have hl : ∀ x : Byte, (codeOf longest x).length ≤ 255 := by decide +kernel
  refine ⟨fun x _ => hl x, ?_, by decide +kernel, by decide +kernel⟩
  have h : ∀ x : Byte, codeOf longest x = [] ∨ x = 0x00#8 ∨ x = 0xFF#8 := by decide +kernel
  have h0 : codeOf longest 0x00#8 ≠ codeOf longest 0xFF#8 := by decide +kernel
  intro x _ y _ hxy hne
  rcases h x with hx | rfl | rfl
  · exact absurd hx hne
  · rcases h y with hy | rfl | rfl
    · exact absurd (hxy.trans hy) hne
    · rfl
    · exact absurd hxy h0
  · rcases h y with hy | rfl | rfl
    · exact absurd (hxy.trans hy) hne
    · exact absurd hxy.symm h0
    · rfl

theorem witness_decodeInvertsEncode : (Instr.cldb 16#5 0xFFFF#16).wellFormed = true ∧
    (Instr.pbits 0#5 0#16).wellFormed = true ∧ (Instr.nrd 511#9).wellFormed = true := by decide

theorem witness_encodeInvertsDecode : decodeWord 0x3210FFFF#32 = .ok (.cldb 16#5 0xFFFF#16) ∧
    decodeWord 0x02000012#32 = .ok (.rd 0x12#8) := by decide +kernel

/-- Both ends of the six ranges, and the opcodes just outside them. -/
theorem witness_illegalOpcodesFault :
    ([0x03#8, 0x0F#8, 0x13#8, 0x1F#8, 0x24#8, 0x2F#8, 0x35#8, 0x3F#8, 0x45#8, 0x4F#8, 0x53#8, 0xFF#8].all
        illegalOpcode) = true ∧
    ([0x00#8, 0x02#8, 0x10#8, 0x12#8, 0x20#8, 0x23#8, 0x30#8, 0x34#8, 0x40#8, 0x44#8, 0x50#8, 0x52#8].any
        illegalOpcode) = false ∧
    illegalOpcode (opcodeOf 0x530000FF#32) = true ∧ State.reset.err = 0#8 ∧
    (presentWord State.reset 0x530000FF#32).pending = [0x530000FF#32] := by decide +kernel

theorem witness_reservedBitsFault :
    illegalOpcode (opcodeOf 0x00800000#32) = false ∧ 0x00800000#32 &&& reservedMask (opcodeOf 0x00800000#32) ≠ 0#32 ∧
    0x41000008#32 &&& reservedMask (opcodeOf 0x41000008#32) ≠ 0#32 ∧
    breaksSequence 0x32110000#32 ∧ breaksSequence 0x43020004#32 ∧ breaksSequence 0x320F8000#32 ∧
    State.reset.err = 0#8 ∧ (presentWord State.reset 0x00800000#32).pending = [0x00800000#32] ∧
    0x11 < (0x12#8).toNat ∧ State.reset.nnode.toNat ≤ (0#9).toNat ∧ built.nnode.toNat ≤ (5#9).toNat := by
  refine ⟨by decide +kernel, by decide +kernel, by decide +kernel, ⟨by decide +kernel, .inl (by decide +kernel)⟩,
    ⟨by decide +kernel, .inr ⟨2, by decide +kernel⟩⟩, ⟨by decide +kernel, .inr ⟨15, by decide +kernel⟩⟩, rfl, rfl,
    by decide, by decide, by decide⟩

theorem witness_stepRunsTheDecodedCommand :
    (presentWord built 0x30000000#32).pending = [0x30000000#32] ∧ decodeWord 0x30000000#32 = .ok .walk ∧
    decodeWord 0xFF000000#32 = .error .illCmd ∧ built.err = 0#8 ∧ faulted.err ≠ 0#8 ∧ built.pending = [] := by
  decide +kernel

theorem witness_faultsArePreciseAndSticky : (presentWord built 0x22000000#32).pending = [0x22000000#32] ∧
    (presentWord built 0x22000000#32).err = 0#8 ∧ (presentWord faulted 0x22000000#32).err ≠ 0#8 := by decide +kernel

/-- The three clauses: the reset, the last register, and a word that is neither, `RD 0x12`. -/
theorem witness_faultStateDropsCommands : (presentWord faulted 0x01000000#32).pending = [0x01000000#32] ∧
    faulted.err ≠ 0#8 ∧ 0x02000011#32 = 0x02000000#32 ||| (0x11#8).setWidth 32 ∧ (0x11#8).toNat ≤ 0x11 ∧
    0x02000012#32 ≠ 0x01000000#32 ∧
    ∀ r : Byte, r.toNat ≤ 0x11 → 0x02000012#32 ≠ 0x02000000#32 ||| r.setWidth 32 := by decide +kernel

/-- The count wraps. -/
theorem witness_commandCountAdvances :
    (presentWord { coded with cmdCnt := 0xFFFFFFFF#32 } 0x00000000#32).pending = [0x00000000#32] ∧
    after .nop { coded with cmdCnt := 0xFFFFFFFF#32 } (·.cmdCnt) = some 0#32 := by decide +kernel

/-- Next states of a writer, of a fault, and of the reset: the hypotheses of the five frame statements. -/
theorem witness_writers : (∃ t, exec .walk built = .next t ∧ t.err = 0#8) ∧
    (∃ t, exec .pbegt built = .next t ∧ built.err = 0#8 ∧ t.err = 0#8) ∧
    (∃ t, exec .uend built = .next t ∧ built.err = 0#8 ∧ t.err ≠ 0#8) ∧ (∃ t, exec .rst faulted = .next t) ∧
    writesFrequency .walk = false ∧ writesTree .walk = false ∧ writesCodes .build = false ∧
    writesStaging .walk = false ∧ writesPadn .pend = false ∧ writesPacker .walk = false ∧
    writesUnpacker .pend = false ∧ writesDecoded .uend = false ∧ writesResponses .walk = false ∧
    (decoding []).umode = false ∧ { decoding [] with umode := true }.umode = true := by
  refine ⟨⟨_, rfl, by decide +kernel⟩, ⟨_, rfl, by decide +kernel⟩, ⟨_, rfl, by decide +kernel⟩, ⟨_, rfl⟩, ?_⟩
  decide +kernel

/-- A bit of each command's reserved mask: `RejectsReserved` speaks of words that exist. -/
theorem witness_rejectsReserved : opcodeOf 0x00000001#32 = 0x00#8 ∧ 0x00000001#32 &&& 0x00FFFFFF#32 ≠ 0#32 ∧
    opcodeOf 0x02000100#32 = 0x02#8 ∧ 0x02000100#32 &&& 0x00FFFF00#32 ≠ 0#32 ∧
    opcodeOf 0x23000200#32 = 0x23#8 ∧ 0x23000200#32 &&& 0x00FFFE00#32 ≠ 0#32 ∧
    opcodeOf 0x32200000#32 = 0x32#8 ∧ 0x32200000#32 &&& 0x00E00000#32 ≠ 0#32 ∧
    opcodeOf 0x41000008#32 = 0x41#8 ∧ 0x41000008#32 &&& 0x00FFFFF8#32 ≠ 0#32 ∧
    opcodeOf 0x50000002#32 = 0x50#8 ∧ 0x50000002#32 &&& 0x00FFFFFE#32 ≠ 0#32 := by decide +kernel

theorem witness_rdReturnsTheRegister : 0x11 < (0x12#8).toNat ∧ 0x11 < (0xFF#8).toNat ∧ State.reset.err = 0#8 ∧
    faulted.err ≠ 0#8 ∧ lone.qcnt = 1#9 ∧ loaded.qcnt ≠ 1#9 := by decide +kernel

theorem witness_statusAndPaccShowTheBits : (packing (List.replicate 7 true)).acc.length ≤ 7 ∧
    (packing []).acc.length ≤ 7 := by decide

theorem witness_fclrClears : counted.err = 0#8 := rfl

/-- Counting up to the last count, and at it. -/
theorem witness_faccCountsOne : counted.err = 0#8 ∧ counted.total ≠ 0xFFFFFFFF#32 ∧
    FrequencyOk { State.reset with ft := [(0x61, 0xFFFFFFFE#32)], total := 0xFFFFFFFE#32 } ∧
    { State.reset with ft := [(0x61, 0xFFFFFFFF#32)], total := 0xFFFFFFFF#32 }.total = 0xFFFFFFFF#32 :=
  ⟨rfl, by decide, ⟨by decide +kernel⟩, rfl⟩

theorem witness_frdReturnsTheCount : counted.err = 0#8 ∧ faulted.err ≠ 0#8 := by decide

theorem witness_countingCountsTheText : faulted.err ≠ 0#8 ∧ coded.err = 0#8 ∧
    ([] : List Byte).length ≤ 4294967295 ∧ [0x61#8, 0x62#8].length ≤ 4294967295 := by decide

/-- Every symbol present. -/
def crowded : State := { State.reset with ft := (List.range 256).map fun i => (i, 1#32), total := 256#32 }

/-- No symbol, three, and all 256. -/
theorem witness_tloadLoadsTheLeaves : counted.err = 0#8 ∧
    (∀ x, x ∈ ([] : List Byte) ↔ 1 ≤ (countOf State.reset x).toNat) ∧
    [0x61#8, 0x62#8, 0x63#8].Pairwise (fun x y => x.toNat < y.toNat) ∧
    (∀ x, x ∈ [0x61#8, 0x62#8, 0x63#8] ↔ 1 ≤ (countOf counted x).toNat) ∧
    allSymbols.Pairwise (fun x y => x.toNat < y.toNat) ∧ (∀ x, x ∈ allSymbols ↔ 1 ≤ (countOf crowded x).toNat) := by
  have h : ∀ x : Byte, 1 ≤ (countOf crowded x).toNat := by decide +kernel
  exact ⟨rfl, by decide +kernel, by decide +kernel, by decide +kernel, allSymbols_pairwise,
    fun x => ⟨fun _ => h x, fun _ => mem_allSymbols x⟩⟩

theorem witness_tmergeJoinsTheLeastTwo : loaded.err = 0#8 ∧ 2 ≤ loaded.qcnt.toNat ∧ TreeOk loaded ∧
    QueueWeightOk loaded ∧ 2 ≤ merged.qcnt.toNat ∧ TreeOk merged ∧ built.qcnt.toNat < 2 ∧ State.reset.qcnt.toNat < 2 :=
  ⟨rfl, by decide, treeOk_loaded, ⟨by decide +kernel, by decide +kernel⟩, by decide, treeOk_merged, by decide, by decide⟩

theorem witness_buildIsLoadThenMerges : counted.err = 0#8 ∧ State.reset.err = 0#8 := ⟨rfl, rfl⟩

theorem witness_buildDependsOnCountsAlone : coded.err = 0#8 ∧ counted.err = 0#8 ∧
    (∀ x, countOf coded x = countOf counted x) ∧ coded ≠ counted := ⟨rfl, rfl, fun _ => rfl, by decide +kernel⟩

theorem witness_builtRootWeighsTotal : counted.err = 0#8 ∧ FrequencyOk counted ∧ counted.total ≠ 0#32 ∧
    FrequencyOk lone ∧ lone.total ≠ 0#32 := ⟨rfl, frequencyOk_counted, by decide, ⟨by decide +kernel⟩, by decide⟩

theorem witness_completeTreeHasItsRootLast : TreeOk built ∧ built.qcnt = 1#9 ∧ TreeOk lone ∧ lone.qcnt = 1#9 ∧
    TreeOk merged ∧ merged.qcnt ≠ 1#9 ∧ TreeOk State.reset ∧ State.reset.qcnt = 0#9 :=
  ⟨treeOk_built, rfl, treeOk_lone, rfl, treeOk_merged, by decide, treeOk_reset, rfl⟩

theorem witness_nrdReturnsTheNode : built.err = 0#8 ∧ (4#9).toNat < built.nnode.toNat ∧
    built.nnode.toNat ≤ (5#9).toNat ∧ built.nnode.toNat ≤ (511#9).toNat ∧ faulted.err ≠ 0#8 := by decide

theorem witness_walkDerivesTheCodes : merged.err = 0#8 ∧ 2 ≤ merged.qcnt.toNat ∧ State.reset.qcnt = 0#9 ∧
    lone.qcnt = 1#9 ∧ (nodeAt lone (lone.nnode.toNat - 1)).leaf = true ∧
    built.qcnt = 1#9 ∧ (nodeAt built (built.nnode.toNat - 1)).leaf = false ∧ TreeOk built :=
  ⟨rfl, by decide, rfl, rfl, rfl, rfl, rfl, treeOk_built⟩

theorem witness_walkIsPrefixFree : built.err = 0#8 ∧ TreeOk built ∧ built.qcnt.toNat < 2 ∧ TreeOk State.reset ∧
    State.reset.qcnt.toNat < 2 ∧ 0x61#8 ≠ 0x62#8 ∧ codeOf coded 0x61#8 ≠ [] ∧ codeOf coded 0x62#8 ≠ [] :=
  ⟨rfl, treeOk_built, by decide, treeOk_reset, by decide, by decide, by decide, by decide⟩

theorem witness_cclrClears : coded.err = 0#8 := rfl

/-- The last length that fits, the first that does not, and a word for each way of breaking R103. -/
theorem witness_cldbAppends : (staged 239).err = 0#8 ∧ (Instr.cldb 16#5 0xFFFF#16).wellFormed = true ∧
    (staged 239).cstg.length + (16#5).toNat ≤ 255 ∧ (staged 255).cstg.length + (0#5).toNat ≤ 255 ∧
    255 < (staged 240).cstg.length + (16#5).toNat ∧ opcodeOf 0x32110000#32 = 0x32#8 ∧ breaksSequence 0x32110000#32 ∧
    opcodeOf 0x32000001#32 = 0x32#8 ∧ breaksSequence 0x32000001#32 :=
  ⟨rfl, by decide, by decide +kernel, by decide +kernel, by decide +kernel, by decide,
    ⟨by decide +kernel, .inl (by decide +kernel)⟩, by decide, ⟨by decide +kernel, .inr ⟨0, by decide +kernel⟩⟩⟩

theorem witness_csetCommits : (staged 0).err = 0#8 ∧ (staged 0).cstg = [] ∧
    { coded with cstg := [false, true] }.cstg ≠ [] ∧ codeOf { coded with cstg := [false, true] } 0x61#8 ≠ [] ∧
    codeOf { coded with cstg := [true, true] } 0x64#8 = [] ∧
    (∃ y, codeOf { coded with cstg := [true, true] } y = [true, true]) ∧
    (staged 255).cstg ≠ [] ∧ codeOf (staged 255) 0x64#8 = [] ∧ ∀ y, codeOf (staged 255) y ≠ (staged 255).cstg :=
  ⟨rfl, rfl, by decide, by decide, rfl, ⟨0x62#8, rfl⟩, by decide +kernel, rfl, by decide +kernel⟩

theorem witness_crdReturnsNineWords : longest.err = 0#8 ∧ (codeOf longest 0x00#8).length = 255 ∧
    (codeOf longest 0x01#8).length ≤ 255 ∧ faulted.err ≠ 0#8 := by decide +kernel

theorem witness_pbegtAnnouncesThePadding : coded.err = 0#8 ∧
    1 = (allSymbols.map fun x => (countOf coded x).toNat % 8 * ((codeOf coded x).length % 8)).sum % 8 ∧
    coded.pact = false ∧ (packing []).pact = true := by decide +kernel

theorem witness_pbegiAnnouncesThePadding : coded.err = 0#8 ∧ coded.pact = false ∧ (packing []).pact = true := by decide

theorem witness_encPacksTheCode : (packing []).err = 0#8 ∧ (packing []).pact = true ∧
    codeOf (packing []) 0x61#8 ≠ [] ∧ coded.pact = false ∧ codeOf (packing []) 0x64#8 = [] ∧
    codeOf { longest with pact := true } 0x00#8 ≠ [] := by decide +kernel

theorem witness_pbitsPacksTheBits : (packing []).err = 0#8 ∧ (Instr.pbits 16#5 0xFFFF#16).wellFormed = true ∧
    (Instr.pbits 0#5 0#16).wellFormed = true ∧ (packing []).pact = true ∧ coded.pact = false ∧
    opcodeOf 0x43110000#32 = 0x43#8 ∧ breaksSequence 0x43110000#32 :=
  ⟨rfl, by decide, by decide, rfl, rfl, by decide, ⟨by decide +kernel, .inl (by decide +kernel)⟩⟩

/-- The fullest and the emptiest accumulator that end a run. -/
theorem witness_pendPadsAndCloses : { packing (List.replicate 7 true) with padn := 1#4 }.acc.length ≤ 7 ∧
    { packing (List.replicate 7 true) with padn := 1#4 }.padn.toNat = 8 - 7 ∧
    { packing [] with padn := 8#4 }.padn.toNat = 8 - 0 ∧ (packing []).pact = true ∧ (packing []).err = 0#8 ∧
    coded.pact = false ∧ coded.acc.length ≤ 7 ∧ (packing []).padn.toNat ≠ 8 - (packing []).acc.length := by decide

theorem witness_ubeginOpensARun : coded.err = 0#8 ∧ coded.uact = false ∧ (decoding []).uact = true := by decide

/-- The largest pad count with as many bits held, the largest state of the FIFO. -/
theorem witness_ubyteHoldsBackAndReleases : coded.err = 0#8 ∧ coded.uact = false ∧
    { decoding [] with uhdr := false }.uhdr = false ∧ (decoding []).uact = true ∧ (decoding []).uhdr = true ∧
    { decoding [] with umode := true }.umode = true ∧
    [false] ++ zeroBits 7 = (decoding []).hb ++ bits8 0x00#8 ∧
    (zeroBits 7).length = min (decoding []).upadn.toNat ((decoding []).hb.length + 8) ∧
    UnpackerOk { decoding (zeroBits 255) with upadn := 255#8 } :=
  ⟨rfl, rfl, rfl, rfl, rfl, rfl, by decide +kernel, by decide +kernel, by constructor <;> decide +kernel⟩

theorem witness_ubyteDecodesGreedily : (decoding [true]).err = 0#8 ∧ (decoding [true]).uact = true ∧
    (decoding [true]).uhdr = true ∧ (decoding [true]).umode = false ∧
    [true, false] ++ zeroBits 7 = (decoding [true]).hb ++ bits8 0x00#8 ∧
    (zeroBits 7).length = min (decoding [true]).upadn.toNat ((decoding [true]).hb.length + 8) := by decide +kernel

/-- One state for each arm of the chain. -/
theorem witness_uendChecksAndCloses : UnpackerOk (decoding (zeroBits 7)) ∧
    (decoding (zeroBits 7)).upadn.toNat ≤ (decoding (zeroBits 7)).hb.length ∧
    UnpackerOk { decoding [] with cand := List.replicate 255 false, candOvf := true } ∧ coded.uact = false ∧ { decoding [] with uhdr := false }.uhdr = false ∧
    (decoding (zeroBits 6)).hb.length < (decoding (zeroBits 6)).upadn.toNat ∧
    1 ≤ { decoding (zeroBits 7) with cand := [true] }.cand.length ∧ (decoding (zeroBits 7)).umode = false ∧
    ¬ (decoding (zeroBits 7)).hb.length < (decoding (zeroBits 7)).upadn.toNat ∧ (decoding (zeroBits 7)).err = 0#8 := by
  refine ⟨by constructor <;> decide +kernel, by decide +kernel, by constructor <;> decide +kernel, ?_⟩
  decide +kernel

/-- A state with every invariant, and the step that runs `TMERGE` on it. -/
theorem witness_invariants : Memory.wf (presentWord merged 0x21000000#32) = true ∧
    FaultRegsOk (presentWord merged 0x21000000#32) ∧ FrequencyOk (presentWord merged 0x21000000#32) ∧
    TreeOk (presentWord merged 0x21000000#32) ∧ QueueWeightOk (presentWord merged 0x21000000#32) ∧
    ∃ t, step (presentWord merged 0x21000000#32) = .next t :=
  ⟨by decide +kernel, ⟨by decide +kernel, by decide +kernel⟩, ⟨by decide +kernel⟩, by constructor <;> decide +kernel,
    ⟨by decide +kernel, by decide +kernel⟩, _, rfl⟩

/-- The heaviest queue: `CNT_MAX` in all. -/
theorem witness_queueWeight : QueueWeightOk { loaded with nodes := [(0, leafNode 0x61#8 0xFFFFFFFD#32),
    (1, leafNode 0x62#8 1#32), (2, leafNode 0x63#8 1#32)] } := ⟨by decide +kernel, by decide +kernel⟩

/-- The bounds of the registers of the other units, each at its limit. -/
theorem witness_unitInvariants : CodeTableOk longest ∧ TreeOk longest ∧ FaultRegsOk faulted ∧
    PackerOk { packing (List.replicate 7 true) with padn := 8#4 } ∧
    UnpackerOk { decoding [] with cand := List.replicate 255 false, candOvf := true } ∧
    (∃ t, step (presentWord longest 0x33000001#32) = .next t) :=
  ⟨codeTableOk_longest, by constructor <;> decide +kernel, by constructor <;> decide +kernel,
    by constructor <;> decide +kernel, by constructor <;> decide +kernel, _, rfl⟩

/-- A body of one code and one raw sequence, with the right and a wrong residue; and an empty body. -/
theorem witness_packingRun : coded.err = 0#8 ∧ coded.pact = false ∧
    PackBody (codeOf coded) [.enc 0x62#8, .pbits 3#5 5#16] [true, true, true, false, true] ∧
    (5#3).toNat = [true, true, true, false, true].length % 8 ∧ (4#3).toNat ≠ [true, true, true, false, true].length % 8 ∧
    PackBody (codeOf coded) [] [] :=
  ⟨rfl, rfl, .enc 0x62#8 (by decide) (.pbits 3#5 5#16 [true, false, true] (by decide) rfl rfl .nil), by decide, by decide,
    .nil⟩

/-- A body as long as the pad count, one shorter, and the payload of the empty sequence. -/
theorem witness_rawRun : coded.err = 0#8 ∧ coded.uact = false ∧ (8#8).toNat ≤ 8 * [0x00#8].length ∧
    8 * [0x00#8].length < (9#8).toNat ∧
    [0x08#8, 0x00#8].flatMap bits8 = bits8 (BitVec.ofNat 8 (8 - 0 % 8)) ++ [] ++ zeroBits (8 - 0 % 8) := by decide +kernel

/-- The derived table is prefix-free (R164 (b)). -/
theorem prefixFree_coded :
    ∀ x y, x ≠ y → codeOf coded x ≠ [] → ¬ codeOf coded x <+: codeOf coded y := by
  have h : ∀ x : Byte, codeOf coded x = [] ∨ x = 0x61#8 ∨ x = 0x62#8 ∨ x = 0x63#8 := by decide +kernel
  intro x y hxy hne
  rcases h x with hx | rfl | rfl | rfl
  · exact absurd hx hne
  all_goals
    rcases h y with hy | rfl | rfl | rfl
    · rw [hy, List.prefix_nil]; exact hne
    all_goals first | exact absurd rfl hxy | decide +kernel

theorem witness_decodeRun : coded.err = 0#8 ∧ coded.pact = false ∧ coded.uact = false ∧
    (∀ x ∈ [0x61#8, 0x63#8], codeOf coded x ≠ []) ∧ (∀ x, (codeOf coded x).length ≤ 255) ∧
    (∀ x y, x ≠ y → codeOf coded x ≠ [] → ¬ codeOf coded x <+: codeOf coded y) ∧
    (3#3).toNat = ([0x61#8, 0x63#8].flatMap (codeOf coded)).length % 8 :=
  ⟨rfl, rfl, rfl, by decide +kernel, by decide +kernel, prefixFree_coded, by decide +kernel⟩

theorem witness_codecRoundTrip : State.reset.err = 0#8 ∧ State.reset.pact = false ∧ State.reset.uact = false ∧
    ([] : List Byte).length ≤ 4294967295 ∧ [0x61#8].length ≤ 4294967295 := by decide

theorem witness_readUndoesWrite : ([] : List Byte).length < 2 ^ 32 ∧ [1#8, 0#8, 0#8].length < 4 ∧ 1 < 2 ^ 32 ∧
    ([] : List Byte).length < 1 := by decide

theorem witness_tableTransport : CodeTableOk longest ∧ CodeTableOk State.reset ∧ built.err = 0#8 ∧
    longest.err = 0#8 ∧ State.reset.err = 0#8 := ⟨codeTableOk_longest, codeTableOk_reset, rfl, rfl, rfl⟩

end Sys2Proof.Tests
end

section
/-! The statements of 00_scope.md: the step (R12, R105), and who writes `FT`, `TOTAL`, the tree and the queue (R27 to R34). -/

namespace Sys2Proof.Machine

open Sys2Proof.Safety

variable {s t : State} {i : Instr}

/-! ### A step -/

/-- R105: a word the decoder accepts is taken and its command executed. -/
theorem step_of_decoded {cw : Word} {rest : List Word} (h : s.pending = cw :: rest) (hd : decodeWord cw = .ok i) :
    step s = exec i { s with pending := rest } := by
  rw [step_of_pending h, hd]

/-- R105: a word the decoder rejects is taken and rejected by that fault. -/
theorem step_of_rejected {cw : Word} {rest : List Word} {e : FaultCode} (h : s.pending = cw :: rest)
    (hd : decodeWord cw = .error e) : step s = rejectWord e cw { s with pending := rest } := by
  rw [step_of_pending h, hd]

/-! ### Frames of a command from frames of its effect -/

/-- What the command count and the fault entry do not touch, every command but the reset keeps where its effect does. -/
theorem exec_keeps {α : Type} (f : State → α) (hcount : ∀ u, f (countCommand u) = f u)
    (hfault : ∀ n cw u, f (afterFault n cw u) = f u) (h : exec i s = .next t) (hi : i ≠ .rst)
    (heffect : ∀ u, Effect s i u → f u = f s) : f t = f s := by
  rcases exec_cases h with ⟨hrst, -⟩ | ⟨-, -, rfl⟩ | ⟨-, -, e, rfl⟩ | ⟨u, hu, rfl⟩
  · exact absurd hrst hi
  · exact hcount s
  · exact hfault _ _ s
  · exact (hcount u).trans (heffect u hu)

/-- The frequency table is the frequency accumulator's (R27, R28). -/
theorem Effect.keeps_frequency (h : Effect s i t) (hw : writesFrequency i = false) :
    t.ft = s.ft ∧ t.total = s.total := by
  cases h with
  | fclr => cases hw
  | facc => cases hw
  | tload => rw [loadTree_frame]; exact ⟨rfl, rfl⟩
  | tmerge => rw [mergeOnce_frame]; exact ⟨rfl, rfl⟩
  | build => rw [buildTree_frame]; exact ⟨rfl, rfl⟩
  | walk hok => rw [walkTree_frame hok]; exact ⟨rfl, rfl⟩
  | body => rw [takeBody_frame]; exact ⟨rfl, rfl⟩
  | _ => exact ⟨rfl, rfl⟩

/-- The tree and the queue are the tree builder's (R30 to R34). -/
theorem Effect.keeps_tree (h : Effect s i t) (hw : writesTree i = false) :
    t.nodes = s.nodes ∧ t.inq = s.inq ∧ t.nnode = s.nnode ∧ t.nleaf = s.nleaf ∧ t.qcnt = s.qcnt := by
  cases h with
  | tload => cases hw
  | tmerge => cases hw
  | build => cases hw
  | walk hok => rw [walkTree_frame hok]; exact ⟨rfl, rfl, rfl, rfl, rfl⟩
  | body => rw [takeBody_frame]; exact ⟨rfl, rfl, rfl, rfl, rfl⟩
  | _ => exact ⟨rfl, rfl, rfl, rfl, rfl⟩

/-- R27, R28: a command of another unit keeps `FT` and `TOTAL`. -/
theorem exec_keeps_frequency (h : exec i s = .next t) (hw : writesFrequency i = false) :
    t.ft = s.ft ∧ t.total = s.total := by
  have hi : i ≠ .rst := by rintro rfl; cases hw
  have key := exec_keeps (fun u => (u.ft, u.total)) (fun _ => rfl) (fun _ _ _ => rfl) h hi
    fun u hu => by obtain ⟨hft, htotal⟩ := hu.keeps_frequency hw; rw [hft, htotal]
  simpa only [Prod.mk.injEq] using key

/-- R30 to R34: a command of another unit keeps the tree and the queue. -/
theorem exec_keeps_tree (h : exec i s = .next t) (hw : writesTree i = false) :
    t.nodes = s.nodes ∧ t.inq = s.inq ∧ t.nnode = s.nnode ∧ t.nleaf = s.nleaf ∧ t.qcnt = s.qcnt := by
  have hi : i ≠ .rst := by rintro rfl; cases hw
  have key := exec_keeps (fun u => (u.nodes, u.inq, u.nnode, u.nleaf, u.qcnt)) (fun _ => rfl) (fun _ _ _ => rfl) h hi
    fun u hu => by
      obtain ⟨hnodes, hinq, hnnode, hnleaf, hqcnt⟩ := hu.keeps_tree hw
      rw [hnodes, hinq, hnnode, hnleaf, hqcnt]
  simpa only [Prod.mk.injEq] using key

/-- R9, R22: no command, the reset included, touches what the host has presented. -/
theorem exec_keeps_pending (h : exec i s = .next t) : t.pending = s.pending := by
  by_cases hi : i = .rst
  · subst hi
    cases h
    rfl
  · exact exec_keeps (·.pending) (fun _ => rfl) (fun _ _ _ => rfl) h hi fun u hu => by
      obtain ⟨-, -, -, -, hpending⟩ := hu.frame
      exact hpending

/-! ### The statements -/

/-- Settles O13: the frame of each command's effect, carried over the count, the drop and the fault entry. -/
theorem frequencyAndTreeWriters : Obligations.FrequencyAndTreeWriters := by
  unfold Obligations.FrequencyAndTreeWriters
  intro i s t h
  exact ⟨exec_keeps_frequency h, exec_keeps_tree h, exec_keeps_pending h⟩

/-- Settles O6: the three cases of the step, by the port and the decoder's answer. -/
theorem stepRunsTheDecodedCommand : Obligations.StepRunsTheDecodedCommand := by
  unfold Obligations.StepRunsTheDecodedCommand
  refine ⟨fun s cw rest i hp hd => step_of_decoded hp hd, fun s cw rest e hp hd => ?_, fun s hp => step_of_idle hp⟩
  rw [step_of_rejected hp hd]
  exact ⟨fun he => rejectWord_of_err_zero (s := { s with pending := rest }) he e cw,
    fun he => rejectWord_of_err_ne (s := { s with pending := rest }) he e cw⟩

end Sys2Proof.Machine
end

section
/-! Who writes the code table, the packer, the unpacker, the flags and the streams (10_state.md R37 to R55). -/

namespace Sys2Proof.Machine

open Sys2Proof.Safety

variable {s t : State} {i : Instr}

/-! ### The frames of the units -/

/-- The units behind the tree builder keep their elements at every command that is not one of their writers. -/
structure UnitFrames (i : Instr) (s t : State) : Prop where
  /-- R37, R38. -/
  codes : writesCodes i = false → t.ct = s.ct ∧ t.ncode = s.ncode
  /-- R39. -/
  staging : writesStaging i = false → t.cstg = s.cstg
  /-- R42. -/
  padn : writesPadn i = false → t.padn = s.padn
  /-- R41, R43. -/
  packer : writesPacker i = false → t.pact = s.pact ∧ t.acc = s.acc
  /-- R44 to R50. -/
  unpacker : writesUnpacker i = false → t.uact = s.uact ∧ t.umode = s.umode ∧ t.uhdr = s.uhdr ∧ t.upadn = s.upadn ∧
    t.hb = s.hb ∧ t.cand = s.cand ∧ t.candOvf = s.candOvf
  /-- R51. -/
  obytes : writesPacker i = false → t.obytes = s.obytes
  /-- R51. -/
  decoded : writesDecoded i = false → t.osyms = s.osyms ∧ t.obits = s.obits
  /-- R51. -/
  responses : writesResponses i = false → t.rsp = s.rsp

/-- Each effect stays in its unit: at every clause the command is one of the unit's writers, or the effect's own form shows
the elements unchanged. -/
theorem Effect.unitFrames (h : Effect s i t) : UnitFrames i s t := by
  cases h with
  | tload => rw [loadTree_frame]; constructor <;> intro hi <;> cases hi <;> trivial
  | tmerge => rw [mergeOnce_frame]; constructor <;> intro hi <;> cases hi <;> trivial
  | build => rw [buildTree_frame]; constructor <;> intro hi <;> cases hi <;> trivial
  | walk hw => rw [walkTree_frame hw]; constructor <;> intro hi <;> cases hi <;> trivial
  | enc => obtain ⟨_, hp⟩ := pack_frame (codeOf s _) s; rw [hp]; constructor <;> intro hi <;> cases hi <;> trivial
  | pbits => obtain ⟨_, hp⟩ := pack_frame (seqOf _ _) s; rw [hp]; constructor <;> intro hi <;> cases hi <;> trivial
  | body => rw [takeBody_frame]; constructor <;> intro hi <;> cases hi <;> trivial
  | _ => constructor <;> intro hi <;> cases hi <;> trivial

/-- Each command stays in its unit: the count, the drop and the fault entry touch none, and the reset is a writer of all. -/
theorem exec_unitFrames (h : exec i s = .next t) : UnitFrames i s t := by
  rcases exec_cases h with ⟨rfl, -⟩ | ⟨-, -, rfl⟩ | ⟨-, -, e, rfl⟩ | ⟨u, hu, rfl⟩
  · constructor <;> intro hi <;> cases hi
  · constructor <;> intro _ <;> trivial
  · constructor <;> intro _ <;> trivial
  · obtain ⟨codes, staging, padn, packer, unpacker, obytes, decoded, responses⟩ := hu.unitFrames
    exact ⟨codes, staging, padn, packer, unpacker, obytes, decoded, responses⟩

/-- Settles O14: the frames of the code-table generator. -/
theorem codeTableWriters : Obligations.CodeTableWriters := by
  unfold Obligations.CodeTableWriters
  intro i s t h
  exact ⟨(exec_unitFrames h).codes, (exec_unitFrames h).staging⟩

/-- Settles O15: the frames of the packer and of the unpacker. -/
theorem packerAndUnpackerWriters : Obligations.PackerAndUnpackerWriters := by
  unfold Obligations.PackerAndUnpackerWriters
  intro i s t h
  exact ⟨(exec_unitFrames h).padn, (exec_unitFrames h).packer, (exec_unitFrames h).unpacker⟩

/-! ### A body byte of the unpacker -/

/-- A body byte delivers the bits above the newest `UPADN` to the decoder and holds the others (R202, R203). -/
theorem takeBody_eq (b : Byte) (s : State) :
    takeBody b s = holdBits (((s.hb ++ bits8 b).take ((s.hb ++ bits8 b).length - s.upadn.toNat)).foldl deliver s)
      ((s.hb ++ bits8 b).drop ((s.hb ++ bits8 b).length - s.upadn.toNat)) := by
  rw [takeBody_spec, foldl_deliver_holdBits]

/-- What every delivered bit keeps, a body byte keeps, but for the bits held. -/
theorem takeBody_preserves {P : State → Prop} (hdeliver : ∀ u x, P u → P (deliver u x))
    (hhold : ∀ u held, P u → P (holdBits u held)) (b : Byte) (hs : P s) : P (takeBody b s) := by
  rw [takeBody_eq]
  exact hhold _ _ (List.foldlRecOn _ deliver hs fun u hu x _ => hdeliver u x hu)

/-- A body byte adds to the stream of its mode and leaves the other (R204, R205). -/
theorem takeBody_streams (b : Byte) (s : State) :
    (s.umode = true → (takeBody b s).osyms = s.osyms ∧ s.obits <+: (takeBody b s).obits) ∧
      (s.umode = false → s.osyms <+: (takeBody b s).osyms ∧ (takeBody b s).obits = s.obits) := by
  rw [takeBody_eq]
  constructor <;> intro hm
  · rw [foldl_deliver_raw _ hm]
    exact ⟨rfl, List.prefix_append _ _⟩
  · obtain ⟨_, _, _, h, -⟩ := foldl_deliver_decode
      ((s.hb ++ bits8 b).take ((s.hb ++ bits8 b).length - s.upadn.toNat)) hm
    rw [h]
    exact ⟨List.prefix_append _ _, rfl⟩

/-! ### The streams (R51) -/

/-- The four streams only grow, `OSYMS` in decode mode and `OBITS` in raw mode only. -/
structure StreamsGrow (s t : State) : Prop where
  obytes : s.obytes <+: t.obytes
  osyms : s.osyms <+: t.osyms
  obits : s.obits <+: t.obits
  rsp : s.rsp <+: t.rsp
  raw : s.umode = true → t.osyms = s.osyms
  decode : s.umode = false → t.obits = s.obits

/-- A state with the decoder's streams unchanged. -/
theorem streamsGrow_of_prefix (hobytes : s.obytes <+: t.obytes) (hrsp : s.rsp <+: t.rsp) (hosyms : t.osyms = s.osyms)
    (hobits : t.obits = s.obits) : StreamsGrow s t :=
  ⟨hobytes, hosyms ▸ List.prefix_rfl, hobits ▸ List.prefix_rfl, hrsp, fun _ => hosyms, fun _ => hobits⟩

/-- Packing appends to `OBYTES` (R181). -/
theorem streamsGrow_pack (q : Bits) (s : State) : StreamsGrow s (pack q s) := by
  obtain ⟨out, hp⟩ := pack_frame q s
  rw [hp]
  exact streamsGrow_of_prefix (List.prefix_append _ _) List.prefix_rfl rfl rfl

theorem streamsGrow_takeBody (b : Byte) (s : State) : StreamsGrow s (takeBody b s) := by
  have hobytes : (takeBody b s).obytes = s.obytes := by rw [takeBody_frame]
  have hrsp : (takeBody b s).rsp = s.rsp := by rw [takeBody_frame]
  obtain ⟨hraw, hdecode⟩ := takeBody_streams b s
  refine ⟨hobytes ▸ List.prefix_rfl, ?_, ?_, hrsp ▸ List.prefix_rfl, fun hm => (hraw hm).1, fun hm => (hdecode hm).2⟩
  · cases hm : s.umode with
    | true => exact (hraw hm).1 ▸ List.prefix_rfl
    | false => exact (hdecode hm).1
  · cases hm : s.umode with
    | true => exact (hraw hm).2
    | false => exact (hdecode hm).2 ▸ List.prefix_rfl

/-- A command that writes neither `OBYTES`, nor `OSYMS` and `OBITS`, nor `RSP` leaves the streams alone. -/
theorem streamsGrow_of_unitFrames (h : UnitFrames i s t) (hp : writesPacker i = false) (hd : writesDecoded i = false)
    (hr : writesResponses i = false) : StreamsGrow s t :=
  streamsGrow_of_prefix (h.obytes hp ▸ List.prefix_rfl) (h.responses hr ▸ List.prefix_rfl) (h.decoded hd).1 (h.decoded hd).2

/-- Every effect appends to the streams it writes (R51). -/
theorem Effect.streamsGrow (h : Effect s i t) : StreamsGrow s t := by
  have hf := h.unitFrames
  cases h with
  | rd => exact streamsGrow_of_prefix List.prefix_rfl (List.prefix_append _ _) rfl rfl
  | frd => exact streamsGrow_of_prefix List.prefix_rfl (List.prefix_append _ _) rfl rfl
  | nrd => exact streamsGrow_of_prefix List.prefix_rfl (List.prefix_append _ _) rfl rfl
  | crd => exact streamsGrow_of_prefix List.prefix_rfl (List.prefix_append _ _) rfl rfl
  | pbegt => exact streamsGrow_of_prefix (List.prefix_append _ _) List.prefix_rfl rfl rfl
  | pbegi => exact streamsGrow_of_prefix (List.prefix_append _ _) List.prefix_rfl rfl rfl
  | pend => exact streamsGrow_of_prefix (List.prefix_append _ _) List.prefix_rfl rfl rfl
  | enc => exact streamsGrow_pack _ _
  | pbits => exact streamsGrow_pack _ _
  | header => exact streamsGrow_of_prefix List.prefix_rfl List.prefix_rfl rfl rfl
  | body => exact streamsGrow_takeBody _ _
  | _ => exact streamsGrow_of_unitFrames hf rfl rfl rfl

theorem exec_streamsGrow (h : exec i s = .next t) (hi : i ≠ .rst) : StreamsGrow s t := by
  rcases exec_cases h with ⟨hrst, -⟩ | ⟨-, -, rfl⟩ | ⟨-, -, e, rfl⟩ | ⟨u, hu, rfl⟩
  · exact absurd hrst hi
  · exact streamsGrow_of_prefix List.prefix_rfl List.prefix_rfl rfl rfl
  · exact streamsGrow_of_prefix List.prefix_rfl List.prefix_rfl rfl rfl
  · obtain ⟨obytes, osyms, obits, rsp, raw, decode⟩ := hu.streamsGrow
    exact ⟨obytes, osyms, obits, rsp, raw, decode⟩

/-- Settles O16: the growth of the streams and the frames of their writers. -/
theorem streamsOnlyGrow : Obligations.StreamsOnlyGrow := by
  unfold Obligations.StreamsOnlyGrow
  intro i s t h
  have hf := exec_unitFrames h
  refine ⟨fun hi => ?_, hf.obytes, hf.decoded, fun hi => ?_, hf.responses⟩
  · obtain ⟨obytes, osyms, obits, rsp, -, -⟩ := exec_streamsGrow h hi
    exact ⟨obytes, osyms, obits, rsp⟩
  · exact ⟨(exec_streamsGrow h hi).raw, (exec_streamsGrow h hi).decode⟩

/-! ### The flags (R53, R55) -/

theorem rootValid_eq (s : State) : rootValid s = decide (s.qcnt = 1#9) := rfl

theorem inFault_eq (s : State) : inFault s = decide (s.err ≠ 0#8) := by
  simp only [inFault, bne, ne_eq, decide_not]
  rfl

/-- Delivering bits never clears the overflow flag (R205). -/
theorem candOvf_takeBody (b : Byte) (h : s.candOvf = true) : (takeBody b s).candOvf = true := by
  refine takeBody_preserves (P := fun u => u.candOvf = true) (fun u x hu => ?_) (fun _ _ hu => hu) b h
  rcases deliver_cases u x with ⟨-, e⟩ | ⟨-, -, e⟩ | ⟨-, -, -, e⟩ | ⟨-, -, -, y, -, e⟩ | ⟨-, -, -, -, e⟩ <;> rw [e]
  all_goals exact hu

/-- What a command may write to the flags (R55), for the commands that do not reset. -/
structure FlagWrites (i : Instr) (s t : State) : Prop where
  pact : t.pact = s.pact ∨ (t.pact = true ∧ (i = .pbegt ∨ ∃ n, i = .pbegi n)) ∨ (t.pact = false ∧ i = .pend)
  uact : t.uact = s.uact ∨ (t.uact = true ∧ ∃ m, i = .ubegin m) ∨ (t.uact = false ∧ i = .uend)
  uhdr : t.uhdr = s.uhdr ∨ (t.uhdr = false ∧ ((∃ m, i = .ubegin m) ∨ i = .uend)) ∨
    (t.uhdr = true ∧ s.uhdr = false ∧ ∃ b, i = .ubyte b)
  umode : t.umode = s.umode ∨ ∃ m, i = .ubegin m ∧ t.umode = (m == 1#1)
  candOvf : t.candOvf = s.candOvf ∨ (t.candOvf = false ∧ ∃ m, i = .ubegin m) ∨ (t.candOvf = true ∧ ∃ b, i = .ubyte b)
  qcnt : t.qcnt = s.qcnt ∨ i = .tload ∨ i = .tmerge ∨ i = .build

theorem flagWrites_of_eq (i : Instr) (hpact : t.pact = s.pact) (huact : t.uact = s.uact) (huhdr : t.uhdr = s.uhdr)
    (humode : t.umode = s.umode) (hcandOvf : t.candOvf = s.candOvf) (hqcnt : t.qcnt = s.qcnt) : FlagWrites i s t :=
  ⟨.inl hpact, .inl huact, .inl huhdr, .inl humode, .inl hcandOvf, .inl hqcnt⟩

theorem flagWrites_takeBody (b : Byte) (s : State) : FlagWrites (.ubyte b) s (takeBody b s) := by
  have hcandOvf : (takeBody b s).candOvf = s.candOvf ∨ (takeBody b s).candOvf = true := by
    cases ho : s.candOvf with
    | true => exact .inl (candOvf_takeBody b ho)
    | false => exact (Bool.eq_false_or_eq_true _).symm
  refine ⟨.inl ?_, .inl ?_, .inl ?_, .inl ?_, hcandOvf.imp_right fun ho => .inr ⟨ho, b, rfl⟩, .inl ?_⟩
  all_goals rw [takeBody_frame]

theorem Effect.flagWrites (h : Effect s i t) : FlagWrites i s t := by
  cases h with
  | tload =>
    rw [loadTree_frame]
    exact ⟨.inl rfl, .inl rfl, .inl rfl, .inl rfl, .inl rfl, .inr (.inl rfl)⟩
  | tmerge =>
    rw [mergeOnce_frame]
    exact ⟨.inl rfl, .inl rfl, .inl rfl, .inl rfl, .inl rfl, .inr (.inr (.inl rfl))⟩
  | build =>
    rw [buildTree_frame]
    exact ⟨.inl rfl, .inl rfl, .inl rfl, .inl rfl, .inl rfl, .inr (.inr (.inr rfl))⟩
  | walk hw =>
    rw [walkTree_frame hw]
    exact flagWrites_of_eq _ rfl rfl rfl rfl rfl rfl
  | pbegt => exact ⟨.inr (.inl ⟨rfl, .inl rfl⟩), .inl rfl, .inl rfl, .inl rfl, .inl rfl, .inl rfl⟩
  | pbegi => exact ⟨.inr (.inl ⟨rfl, .inr ⟨_, rfl⟩⟩), .inl rfl, .inl rfl, .inl rfl, .inl rfl, .inl rfl⟩
  | pend => exact ⟨.inr (.inr ⟨rfl, rfl⟩), .inl rfl, .inl rfl, .inl rfl, .inl rfl, .inl rfl⟩
  | ubegin =>
    exact ⟨.inl rfl, .inr (.inl ⟨rfl, _, rfl⟩), .inr (.inl ⟨rfl, .inl ⟨_, rfl⟩⟩), .inr ⟨_, rfl, rfl⟩,
      .inr (.inl ⟨rfl, _, rfl⟩), .inl rfl⟩
  | header _ hh => exact ⟨.inl rfl, .inl rfl, .inr (.inr ⟨rfl, hh, _, rfl⟩), .inl rfl, .inl rfl, .inl rfl⟩
  | body => exact flagWrites_takeBody _ _
  | uend =>
    exact ⟨.inl rfl, .inr (.inr ⟨rfl, rfl⟩), .inr (.inl ⟨rfl, .inr rfl⟩), .inl rfl, .inl rfl, .inl rfl⟩
  | _ => exact flagWrites_of_eq _ rfl rfl rfl rfl rfl rfl

theorem exec_flagWrites (h : exec i s = .next t) (hi : i ≠ .rst) : FlagWrites i s t := by
  rcases exec_cases h with ⟨hrst, -⟩ | ⟨-, -, rfl⟩ | ⟨-, -, e, rfl⟩ | ⟨u, hu, rfl⟩
  · exact absurd hrst hi
  · exact flagWrites_of_eq _ rfl rfl rfl rfl rfl rfl
  · exact flagWrites_of_eq _ rfl rfl rfl rfl rfl rfl
  · obtain ⟨pact, uact, uhdr, umode, candOvf, qcnt⟩ := hu.flagWrites
    exact ⟨pact, uact, uhdr, umode, candOvf, qcnt⟩

/-- Outside the fault state a command that does not reset and leaves no fault has had its effect. -/
theorem effect_of_exec (h : exec i s = .next t) (hi : i ≠ .rst) (hs : s.err = 0#8) (ht : t.err = 0#8) :
    ∃ u, Effect s i u ∧ t = countCommand u := by
  rcases exec_cases h with ⟨hrst, -⟩ | ⟨-, hne, -⟩ | ⟨-, -, e, rfl⟩ | heffect
  · exact absurd hrst hi
  · exact absurd hs hne
  · exact absurd ht (faultNumber_ne_zero e)
  · exact heffect

/-- A command that enters the fault state has taken a fault, and nothing else. -/
theorem afterFault_of_exec (h : exec i s = .next t) (hs : s.err = 0#8) (ht : t.err ≠ 0#8) :
    ∃ e, t = afterFault (faultNumber e) (encode i) s := by
  rcases exec_cases h with ⟨-, rfl⟩ | ⟨-, hne, -⟩ | ⟨-, -, hfault⟩ | ⟨u, hu, rfl⟩
  · exact absurd rfl ht
  · exact absurd hs hne
  · exact hfault
  · obtain ⟨herr, -, -, -, -⟩ := hu.frame
    exact absurd (herr.trans hs) ht

/-- Settles O12: the flags each effect writes, and those of a fault and of the reset. -/
theorem flagWriters : Obligations.FlagWriters := by
  unfold Obligations.FlagWriters
  intro i s t h
  refine ⟨fun hi => ?_, fun hs ht => ⟨?_, ?_, ?_, ?_, ?_⟩, ?_, fun hs ht => ?_, rootValid_eq t, inFault_eq t⟩
  · obtain ⟨pact, uact, uhdr, umode, candOvf, qcnt⟩ := exec_flagWrites h hi
    exact ⟨pact, uact, uhdr, umode, candOvf, qcnt⟩
  · rintro (rfl | ⟨n, rfl⟩) <;> obtain ⟨u, ⟨⟩, rfl⟩ := effect_of_exec h (by simp) hs ht <;> rfl
  · rintro rfl
    obtain ⟨u, ⟨⟩, rfl⟩ := effect_of_exec h (by simp) hs ht
    rfl
  · rintro m rfl
    obtain ⟨u, ⟨⟩, rfl⟩ := effect_of_exec h (by simp) hs ht
    exact ⟨rfl, rfl, rfl, rfl⟩
  · rintro b rfl
    obtain ⟨u, hu, rfl⟩ := effect_of_exec h (by simp) hs ht
    cases hu with
    | header => rfl
    | body _ hh =>
      rw [takeBody_frame]
      exact hh
  · rintro rfl
    obtain ⟨u, ⟨⟩, rfl⟩ := effect_of_exec h (by simp) hs ht
    exact ⟨rfl, rfl⟩
  · rintro rfl
    cases h
    exact ⟨rfl, rfl, rfl, rfl, rfl, rfl, rfl⟩
  · obtain ⟨e, rfl⟩ := afterFault_of_exec h hs ht
    exact ⟨rfl, rfl, rfl, rfl, rfl, rfl, (inFault_eq _).trans (decide_eq_true ht)⟩

end Sys2Proof.Machine
end

section
/-! What every step keeps: one lemma that reduces an invariant of the step to its effects, and the invariants of the tables,
the fault registers, the frequency table, the packer and the unpacker (10_state.md). -/

namespace Sys2Proof.Machine

open Sys2Proof.Safety

variable {s t : State} {i : Instr}

/-! ### From effects to steps -/

/-- Everything a step can do: idle, execute the command of the next word, or reject the next word. -/
theorem step_cases (h : step s = .next t) :
    t = s ∨ ∃ cw rest, s.pending = cw :: rest ∧
      ((∃ i, decodeWord cw = .ok i ∧ exec i { s with pending := rest } = .next t) ∨
        ∃ e, decodeWord cw = .error e ∧ rejectWord e cw { s with pending := rest } = .next t) := by
  cases hp : s.pending with
  | nil =>
    rw [step_of_idle hp] at h
    cases h
    exact .inl rfl
  | cons cw rest =>
    refine .inr ⟨cw, rest, rfl, ?_⟩
    cases hd : decodeWord cw with
    | ok i => exact .inl ⟨i, rfl, step_of_decoded hp hd ▸ h⟩
    | error e => exact .inr ⟨e, rfl, step_of_rejected hp hd ▸ h⟩

/-- A property of the reset state that taking a word, counting a command, entering a fault and every effect keep is kept by
every step. -/
theorem step_preserves {P : State → Prop} (hport : ∀ s rest, P s → P { s with pending := rest })
    (hcount : ∀ s, P s → P (countCommand s)) (hfault : ∀ e cw s, P s → P (afterFault (faultNumber e) cw s))
    (hreset : P State.reset) (heffect : ∀ {s i u}, Effect s i u → P s → P u) (hs : P s) (h : step s = .next t) : P t := by
  rcases step_cases h with rfl | ⟨cw, rest, -, ⟨i, -, hexec⟩ | ⟨e, -, hreject⟩⟩
  · exact hs
  · rcases exec_cases hexec with ⟨-, rfl⟩ | ⟨-, -, rfl⟩ | ⟨-, -, e, rfl⟩ | ⟨u, hu, rfl⟩
    · exact hport _ _ hreset
    · exact hcount _ (hport _ _ hs)
    · exact hfault _ _ _ (hport _ _ hs)
    · exact hcount _ (heffect hu (hport _ _ hs))
  · by_cases he : s.err = 0#8
    · rw [rejectWord_of_err_zero (s := { s with pending := rest }) he] at hreject
      cases hreject
      exact hfault _ _ _ (hport _ _ hs)
    · rw [rejectWord_of_err_ne (s := { s with pending := rest }) he] at hreject
      cases hreject
      exact hcount _ (hport _ _ hs)

/-- The same for a property that does not look at the fault registers, the command count or the port. -/
theorem step_preserves_of_effect {P : State → Prop}
    (hcontrol : ∀ s err errCmd errIdx cmdCnt pending, P s → P { s with
      err := err, errCmd := errCmd, errIdx := errIdx, cmdCnt := cmdCnt, pending := pending })
    (hreset : P State.reset) (heffect : ∀ {s i u}, Effect s i u → P s → P u) (hs : P s) (h : step s = .next t) : P t :=
  step_preserves (fun s rest => hcontrol s s.err s.errCmd s.errIdx s.cmdCnt rest)
    (fun s => hcontrol s s.err s.errCmd s.errIdx (s.cmdCnt + 1#32) s.pending)
    (fun e cw s => hcontrol s (faultNumber e) cw s.cmdCnt (s.cmdCnt + 1#32) s.pending) hreset heffect hs h

/-! ### The canonical form of the tables (log entry 5) -/

theorem memory_wf_loadLeaf (h : Memory.wf s = true) (x : Byte) : Memory.wf (loadLeaf s x) = true := by
  unfold loadLeaf
  split
  · exact h
  · exact memory_wf_setInQueue (memory_wf_setNode h _ _) _ _

theorem memory_wf_clearTree (h : Memory.wf s = true) : Memory.wf (clearTree s) = true := by
  rw [memory_wf_iff] at h ⊢
  obtain ⟨hft, -, -, hct⟩ := h
  exact ⟨hft, rfl, rfl, hct⟩

theorem memory_wf_foldl_loadLeaf (l : List Byte) (h : Memory.wf s = true) : Memory.wf (l.foldl loadLeaf s) = true :=
  List.foldlRecOn (motive := fun u => Memory.wf u = true) l loadLeaf h fun _ hu x _ => memory_wf_loadLeaf hu x

theorem memory_wf_loadTree (h : Memory.wf s = true) : Memory.wf (loadTree s) = true :=
  memory_wf_foldl_loadLeaf allSymbols (memory_wf_clearTree h)

/-- A merge is two extractions and an insertion, or nothing (R143). -/
theorem mergeOnce_cases (s : State) :
    mergeOnce s = s ∨ ∃ a b, mergeOnce s = insertJoined (setInQueue (setInQueue s a false) b false) a b := by
  unfold mergeOnce mergeTwo extractMin
  split
  · cases leastMember s with
    | none => exact .inl rfl
    | some a =>
      simp only [Option.map_some, Option.bind_some]
      cases leastMember (setInQueue s a false) with
      | none => exact .inl rfl
      | some b => exact .inr ⟨a, b, rfl⟩
  · exact .inl rfl

theorem memory_wf_mergeOnce (h : Memory.wf s = true) : Memory.wf (mergeOnce s) = true := by
  rcases mergeOnce_cases s with hm | ⟨a, b, hm⟩
  · rw [hm]
    exact h
  · rw [hm]
    exact memory_wf_setInQueue
      (memory_wf_setNode (memory_wf_setInQueue (memory_wf_setInQueue h a false) b false) _ _) _ _

/-- What a merge keeps while the queue has two members, `BUILD`'s loop keeps. -/
theorem mergeWhile_preserves {P : State → Prop} (hmerge : ∀ u, P u → 2 ≤ u.qcnt.toNat → P (mergeOnce u)) (fuel : Nat)
    (h : P s) : P (mergeWhile fuel s) := by
  induction fuel generalizing s with
  | zero => exact h
  | succ fuel ih =>
    rw [mergeWhile]
    split
    · next hq => exact ih (hmerge s h hq)
    · exact h

theorem memory_wf_buildTree (h : Memory.wf s = true) : Memory.wf (buildTree s) = true :=
  mergeWhile_preserves (P := fun u => Memory.wf u = true) (fun _ hu _ => memory_wf_mergeOnce hu) _ (memory_wf_loadTree h)

theorem memory_wf_clearCodes (h : Memory.wf s = true) : Memory.wf (clearCodes s) = true := by
  rw [memory_wf_iff] at h ⊢
  obtain ⟨hft, hnodes, hinq, -⟩ := h
  exact ⟨hft, hnodes, hinq, rfl⟩

theorem memory_wf_walkTree (h : Memory.wf s = true) (hw : walkTree s = .ok t) : Memory.wf t = true := by
  have hc := memory_wf_clearCodes h
  unfold walkTree at hw
  split at hw
  · cases hw
  · split at hw
    · split at hw <;> cases hw
      · exact memory_wf_setCode hc (nodeAt s (rootSlot s)).sym [false]
      · exact memory_wf_storeCodes hc _
    · cases hw
      exact hc

/-- Every effect keeps the canonical form: the tables are written through the table's own write, or emptied. -/
theorem Effect.keeps_memory_wf (h : Effect s i t) (hs : Memory.wf s = true) : Memory.wf t = true := by
  cases h with
  | fclr =>
    rw [memory_wf_iff] at hs ⊢
    exact ⟨rfl, hs.2⟩
  | facc => exact memory_wf_setCount hs _ _
  | tload => exact memory_wf_loadTree hs
  | tmerge => exact memory_wf_mergeOnce hs
  | build => exact memory_wf_buildTree hs
  | walk hw => exact memory_wf_walkTree hs hw
  | cclr => exact memory_wf_clearCodes hs
  | cset => exact memory_wf_setCode hs _ _
  | body =>
    rw [takeBody_frame]
    exact hs
  | _ => exact hs

/-! ### The fault registers (R23 to R25, R250) -/

theorem faultRegsOk_reset : FaultRegsOk State.reset := ⟨by decide, fun _ => ⟨rfl, rfl⟩⟩

/-- The fault entry leaves a code of R250, which is not 0. -/
theorem faultRegsOk_afterFault (e : FaultCode) (cw : Word) (s : State) :
    FaultRegsOk (afterFault (faultNumber e) cw s) :=
  ⟨(faultNumber_range e).2, fun h => absurd h (faultNumber_ne_zero e)⟩

theorem Effect.keeps_faultRegsOk (h : Effect s i t) (hs : FaultRegsOk s) : FaultRegsOk t := by
  obtain ⟨herr, hcmd, hidx, -, -⟩ := h.frame
  exact ⟨herr ▸ hs.code, by rw [herr, hcmd, hidx]; exact hs.clear⟩

/-! ### The frequency table (R29) -/

/-- A sum over a list without repetition after one of its terms changed. -/
theorem sum_map_update {α : Type} [DecidableEq α] {l : List α} (hl : l.Nodup) {x : α} (hx : x ∈ l) {f g : α → Nat}
    (h : ∀ y, y ≠ x → g y = f y) : (l.map g).sum + f x = (l.map f).sum + g x := by
  have hp := List.perm_cons_erase hx
  have hrest : (l.erase x).map g = (l.erase x).map f :=
    List.map_congr_left fun y hy => h y (hl.mem_erase_iff.mp hy).1
  rw [(hp.map g).sum_eq, (hp.map f).sum_eq, List.map_cons, List.map_cons, List.sum_cons, List.sum_cons, hrest]
  omega

theorem frequencyOk_of_cleared (hft : s.ft = []) (htotal : s.total = 0#32) : FrequencyOk s := by
  have hsum : countSum s = 0 := List.sum_eq_zero fun n hn => by
    obtain ⟨x, -, rfl⟩ := List.mem_map.mp hn
    rw [countOf, hft, Table.read_nil]
    rfl
  exact ⟨by rw [hsum, htotal]; rfl⟩

theorem frequencyOk_congr (hft : t.ft = s.ft) (htotal : t.total = s.total) (h : FrequencyOk s) : FrequencyOk t :=
  ⟨by simpa only [countSum, countOf_congr hft, htotal] using h.total⟩

/-- No counter exceeds the sum of the counters. -/
theorem countOf_le_countSum (s : State) (x : Byte) : (countOf s x).toNat ≤ countSum s :=
  List.le_sum_of_mem (List.mem_map.mpr ⟨x, mem_allSymbols x, rfl⟩)

/-- Counting a symbol below `CNT_MAX` adds one to its counter and to `TOTAL`, and neither wraps (R132). -/
theorem frequencyOk_facc (h : FrequencyOk s) (hmax : s.total ≠ 0xFFFFFFFF#32) (x : Byte) :
    FrequencyOk { setCount s x (countOf s x + 1#32) with total := s.total + 1#32 } := by
  have hlt : s.total.toNat < 4294967295 := by bv_omega
  have hle : (countOf s x).toNat ≤ s.total.toNat := h.total ▸ countOf_le_countSum s x
  have hsum := sum_map_update allSymbols_nodup (mem_allSymbols x) (f := fun y => (countOf s y).toNat)
    (g := fun y => (countOf (setCount s x (countOf s x + 1#32)) y).toNat)
    fun y hy => by rw [countOf_setCount, if_neg hy]
  rw [countOf_setCount, if_pos rfl] at hsum
  have htotal := h.total
  refine ⟨?_⟩
  change (s.total + 1#32).toNat = (allSymbols.map fun y => (countOf (setCount s x (countOf s x + 1#32)) y).toNat).sum
  unfold countSum at htotal
  simp only [BitVec.toNat_add, BitVec.toNat_ofNat] at hsum ⊢
  omega

theorem frequencyOk_reset : FrequencyOk State.reset := frequencyOk_of_cleared rfl rfl

theorem Effect.keeps_frequencyOk (h : Effect s i t) (hs : FrequencyOk s) : FrequencyOk t := by
  by_cases hw : writesFrequency i = false
  · obtain ⟨hft, htotal⟩ := h.keeps_frequency hw
    exact frequencyOk_congr hft htotal hs
  · cases h with
    | fclr => exact frequencyOk_of_cleared rfl rfl
    | facc hmax => exact frequencyOk_facc hs hmax _
    | _ => exact absurd rfl hw

/-! ### The packer (R42, R43) -/

theorem packerOk_reset : PackerOk State.reset := ⟨by decide, nofun, by decide, fun _ => rfl⟩

/-- A pad count `8 - n` with `n < 8` is one of 1 to 8 (R42). -/
theorem padCount_range {n : Nat} (h : n < 8) :
    (BitVec.ofNat 4 (8 - n)).toNat ≤ 8 ∧ 1 ≤ (BitVec.ofNat 4 (8 - n)).toNat := by
  simp only [BitVec.toNat_ofNat]
  omega

/-- Opening a run (R182, R183). -/
theorem packerOk_opened {n : Nat} (h : n < 8) {obytes : List Byte} : PackerOk { s with
    obytes := obytes, padn := BitVec.ofNat 4 (8 - n), acc := [], pact := true } :=
  ⟨(padCount_range h).1, fun _ => (padCount_range h).2, Nat.zero_le _, fun _ => rfl⟩

/-- Packing in an open run leaves less than a byte (R181). -/
theorem packerOk_pack (h : PackerOk s) (hp : s.pact = true) (q : Bits) : PackerOk (pack q s) :=
  ⟨h.padn, h.opened, Nat.lt_succ_iff.mp (pack_acc_length_lt q s), fun hc => absurd (hp.symm.trans hc) (by decide)⟩

theorem packerOk_congr (hpadn : t.padn = s.padn) (hpact : t.pact = s.pact) (hacc : t.acc = s.acc) (h : PackerOk s) :
    PackerOk t :=
  ⟨hpadn ▸ h.padn, by rw [hpact, hpadn]; exact h.opened, hacc ▸ h.acc, by rw [hpact, hacc]; exact h.closed⟩

theorem Effect.keeps_packerOk (h : Effect s i t) (hs : PackerOk s) : PackerOk t := by
  have hf := h.unitFrames
  cases h with
  | pbegt => exact packerOk_opened (Nat.mod_lt _ (by decide))
  | pbegi => exact packerOk_opened (BitVec.isLt _)
  | enc hp => exact packerOk_pack hs hp _
  | pbits _ hp => exact packerOk_pack hs hp _
  | pend => exact ⟨hs.padn, nofun, Nat.zero_le _, fun _ => rfl⟩
  | _ => exact packerOk_congr (hf.padn rfl) (hf.packer rfl).1 (hf.packer rfl).2 hs

/-! ### The unpacker (R44 to R50, R203) -/

theorem unpackerOk_reset : UnpackerOk State.reset :=
  ⟨by decide, nofun, fun _ => rfl, by decide, nofun⟩

/-- The decoder's half of the invariant: the candidate's bound (R49, R50). -/
def CandidateOk (s : State) : Prop := s.cand.length ≤ 255 ∧ (s.candOvf = true → s.cand.length = 255)

/-- A delivered bit keeps the candidate's bound: a full candidate does not grow (R205). -/
theorem candidateOk_deliver {x : Bool} (h : CandidateOk s) : CandidateOk (deliver s x) := by
  rcases deliver_cases s x with ⟨-, e⟩ | ⟨-, -, e⟩ | ⟨-, -, hc, e⟩ | ⟨-, ho, -, y, -, e⟩ | ⟨-, ho, hc, -, e⟩ <;> rw [e]
  · exact h
  · exact h
  · exact ⟨h.1, fun _ => hc⟩
  · exact ⟨Nat.zero_le _, fun ho' => absurd (ho.symm.trans ho') (by decide)⟩
  · refine ⟨?_, fun ho' => absurd (ho.symm.trans ho') (by decide)⟩
    have hle := h.1
    simp only [List.length_append, List.length_singleton]
    omega

/-- A body byte leaves at most `UPADN` bits held (R203). -/
theorem takeBody_hb_length_le (b : Byte) (s : State) : (takeBody b s).hb.length ≤ s.upadn.toNat := by
  rw [takeBody_eq, holdBits_hb, List.length_drop]
  omega

theorem unpackerOk_takeBody (h : UnpackerOk s) (hh : s.uhdr = true) (b : Byte) : UnpackerOk (takeBody b s) := by
  obtain ⟨hcandidate, hoverflow⟩ := takeBody_preserves (P := CandidateOk) (fun _ _ hu => candidateOk_deliver hu)
    (fun _ _ hu => hu) b ⟨h.candidate, h.overflow⟩
  have hupadn : (takeBody b s).upadn = s.upadn := by rw [takeBody_frame]
  have huhdr : (takeBody b s).uhdr = s.uhdr := by rw [takeBody_frame]
  have huact : (takeBody b s).uact = s.uact := by rw [takeBody_frame]
  exact ⟨hupadn ▸ takeBody_hb_length_le b s, by rw [huhdr, huact]; exact h.header,
    fun hc => absurd (hh.symm.trans (huhdr.symm.trans hc)) (by decide), hcandidate, hoverflow⟩

theorem Effect.keeps_unpackerOk (h : Effect s i t) (hs : UnpackerOk s) : UnpackerOk t := by
  have hf := h.unitFrames
  cases h with
  | ubegin => exact ⟨Nat.zero_le _, nofun, fun _ => rfl, Nat.zero_le _, nofun⟩
  | header ha hh =>
    have hb : s.hb.length = 0 := by rw [hs.noHeader hh]; rfl
    exact ⟨hb ▸ Nat.zero_le _, fun _ => ha, nofun, hs.candidate, hs.overflow⟩
  | body _ hh => exact unpackerOk_takeBody hs hh _
  | uend => exact ⟨Nat.zero_le _, nofun, fun _ => rfl, hs.candidate, hs.overflow⟩
  | _ =>
    obtain ⟨huact, -, huhdr, hupadn, hhb, hcand, hcandOvf⟩ := hf.unpacker rfl
    exact ⟨by rw [hhb, hupadn]; exact hs.held, by rw [huhdr, huact]; exact hs.header,
      by rw [huhdr, hhb]; exact hs.noHeader, by rw [hcand]; exact hs.candidate,
      by rw [hcandOvf, hcand]; exact hs.overflow⟩

/-! ### The statements -/

/-- Settles O46: every effect writes the tables through writes that keep the canonical form. -/
theorem stepKeepsTablesCanonical : Obligations.StepKeepsTablesCanonical := by
  unfold Obligations.StepKeepsTablesCanonical
  exact fun s t => step_preserves_of_effect (P := fun u => Memory.wf u = true) (fun _ _ _ _ _ _ h => h) memory_wf_reset
    Effect.keeps_memory_wf

/-- Settles O47: the fault entry records a code of R250, and nothing else writes the fault registers but the reset. -/
theorem stepKeepsFaultRegisters : Obligations.StepKeepsFaultRegisters := by
  unfold Obligations.StepKeepsFaultRegisters
  exact fun s t => step_preserves (fun _ _ h => ⟨h.code, h.clear⟩) (fun _ h => ⟨h.code, h.clear⟩)
    (fun e cw s _ => faultRegsOk_afterFault e cw s) faultRegsOk_reset Effect.keeps_faultRegsOk

/-- Settles O48: `FACC` adds one to a counter and to `TOTAL`, `FCLR` clears both, and no other effect writes either. -/
theorem stepKeepsFrequency : Obligations.StepKeepsFrequency := by
  unfold Obligations.StepKeepsFrequency
  exact fun s t => step_preserves_of_effect (fun _ _ _ _ _ _ h => ⟨h.total⟩) frequencyOk_reset Effect.keeps_frequencyOk

/-- Settles O52: the packer's effects keep its bounds. -/
theorem stepKeepsPacker : Obligations.StepKeepsPacker := by
  unfold Obligations.StepKeepsPacker
  exact fun s t => step_preserves_of_effect (fun _ _ _ _ _ _ h => ⟨h.padn, h.opened, h.acc, h.closed⟩) packerOk_reset
    Effect.keeps_packerOk

/-- Settles O53: the unpacker's effects keep its bounds. -/
theorem stepKeepsUnpacker : Obligations.StepKeepsUnpacker := by
  unfold Obligations.StepKeepsUnpacker
  exact fun s t => step_preserves_of_effect
    (fun _ _ _ _ _ _ h => ⟨h.held, h.header, h.noHeader, h.candidate, h.overflow⟩) unpackerOk_reset
    Effect.keeps_unpackerOk

end Sys2Proof.Machine
end

section
/-! The tree: what R35 says of the nodes, and that a load and a merge keep it (R30 to R36, R141 to R143). -/

namespace Sys2Proof.Machine

open Sys2Proof.Safety

variable {s t : State} {i : Instr}

/-! ### What R35 says of the nodes -/

theorem mem_parentsOf {k j : Nat} : j ∈ parentsOf s k ↔ j < 511 ∧ j < s.nnode.toNat ∧ (nodeAt s j).leaf = false ∧
    ((nodeAt s j).left.toNat = k ∨ (nodeAt s j).right.toNat = k) := by
  simp [parentsOf, and_assoc]

theorem parentsOf_nodup (s : State) (k : Nat) : (parentsOf s k).Nodup := List.nodup_range.filter _

/-- The slots in use are at most 511 (R35 (c)). -/
theorem nnode_le (h : TreeOk s) : s.nnode.toNat ≤ 511 := by
  obtain ⟨-, hnodes, hleaves⟩ := h.sizes
  have hleaves : s.nleaf.toNat ≤ 256 := hleaves
  omega

/-- A slot in use that is no leaf lies behind the leaves (R35 (e)). -/
theorem nleaf_le_of_internal (h : TreeOk s) {j : Nat} (hj : (nodeAt s j).leaf = false) : s.nleaf.toNat ≤ j := by
  by_contra hlt
  have hleaf := (h.leaves j (by omega)).1
  exact absurd (hj.symm.trans hleaf) (by decide)

/-- A parent lies above its child (R35 (e)). -/
theorem lt_of_mem_parentsOf (h : TreeOk s) {k j : Nat} (hj : j ∈ parentsOf s k) : k < j ∧ j < s.nnode.toNat := by
  obtain ⟨-, hn, hl, hchild⟩ := mem_parentsOf.mp hj
  obtain ⟨-, -, hleft, hright, -⟩ := h.internals j hn (nleaf_le_of_internal h hl)
  rcases hchild with rfl | rfl
  · exact ⟨hleft, hn⟩
  · exact ⟨hright, hn⟩

/-- The last slot in use has no parent, and so is in the queue (R35 (f), R36). -/
theorem inQueue_last (h : TreeOk s) (hn : 1 ≤ s.nnode.toNat) : inQueue s (s.nnode.toNat - 1) = true := by
  have hp : parentsOf s (s.nnode.toNat - 1) = [] := List.eq_nil_iff_forall_not_mem.mpr fun j hj => by
    have := lt_of_mem_parentsOf h hj
    omega
  have hown := h.owned (s.nnode.toNat - 1) (by omega)
  rw [hp] at hown
  exact Bool.toNat_eq_one.mp hown

/-- In a complete tree the last slot in use is the one queue member (R36). -/
theorem queueMembers_of_complete (h : TreeOk s) (hq : s.qcnt.toNat = 1) :
    1 ≤ s.nnode.toNat ∧ queueMembers s = [s.nnode.toNat - 1] := by
  obtain ⟨r, hr⟩ := List.length_eq_one_iff.mp (h.queueCount.symm.trans hq)
  have hrq := mem_queueMembers.mp (hr ▸ List.mem_singleton_self r)
  have hn := lt_nnode_of_queued h hrq.1 hrq.2
  have hlast : s.nnode.toNat - 1 ∈ queueMembers s :=
    mem_queueMembers.mpr ⟨by have := nnode_le h; omega, inQueue_last h (by omega)⟩
  rw [hr, List.mem_singleton] at hlast
  exact ⟨by omega, hlast ▸ hr⟩

/-- An empty queue means an empty tree (R36). -/
theorem nnode_eq_zero_of_empty (h : TreeOk s) (hq : s.qcnt.toNat = 0) : s.nnode.toNat = 0 := by
  by_contra hn
  have hlast : s.nnode.toNat - 1 ∈ queueMembers s :=
    mem_queueMembers.mpr ⟨by have := nnode_le h; omega, inQueue_last h (by omega)⟩
  rw [List.length_eq_zero_iff.mp (h.queueCount.symm.trans hq)] at hlast
  cases hlast

/-! ### A loaded tree -/

/-- The queue of a loaded tree is all its slots (R141). -/
theorem queueMembers_of_loaded {done : List Byte} (h : Loaded s t done) (hlen : done.length ≤ 256) :
    queueMembers t = List.range done.length :=
  (queueMembers_pairwise t).eq_of_mem_iff List.pairwise_lt_range fun k => by
    rw [mem_queueMembers, h.queued, decide_eq_true_eq, List.mem_range]
    omega

/-- Leaves of present symbols in ascending order, each in the queue, are a forest (R35, R141). -/
theorem treeOk_of_loaded {done : List Byte} (h : Loaded s t done) (hlen : done.length ≤ 256)
    (hrise : done.Pairwise fun x y => x.toNat < y.toNat) (hpresent : ∀ x ∈ done, countOf s x ≠ 0#32) : TreeOk t := by
  have hn := h.nnode
  have hl := h.nleaf
  have hq := h.qcnt
  have hnode : ∀ k (hk : k < done.length), nodeAt t k = leafFor s done[k] := fun k hk => by
    rw [h.node, List.getElem?_eq_getElem hk]
    rfl
  have hzero : ∀ k, done.length ≤ k → nodeAt t k = Node.zero := fun k hk => by
    rw [h.node, List.getElem?_eq_none hk]
    rfl
  refine ⟨?_, fun k _ hk => ⟨hzero k (hn ▸ hk), by rw [h.queued]; exact decide_eq_false (by omega)⟩,
    ⟨by omega, by omega, hl ▸ hlen⟩, fun _ => by omega, fun k hk => ?_, fun j hj k hk => ?_, fun k hk hk' => by omega,
    fun k hk => ?_⟩
  · rw [queueMembers_of_loaded h hlen, List.length_range, hq]
  · rw [hnode k (hl ▸ hk)]
    exact ⟨rfl, hpresent _ (List.getElem_mem _), rfl, rfl⟩
  · rw [hnode k (by omega), hnode j (by omega)]
    exact List.pairwise_iff_getElem.mp hrise k j (by omega) (by omega) hk
  · have hp : parentsOf t k = [] := List.eq_nil_iff_forall_not_mem.mpr fun j hj => by
      obtain ⟨-, hjn, hleaf, -⟩ := mem_parentsOf.mp hj
      rw [hnode j (hn ▸ hjn)] at hleaf
      cases hleaf
    rw [hp, h.queued, decide_eq_true (by omega)]
    rfl

/-- The empty tree is a forest, at reset and at the start of every load (R58, R141). -/
theorem treeOk_clearTree (s : State) : TreeOk (clearTree s) :=
  treeOk_of_loaded (loaded_clearTree s) (Nat.zero_le _) .nil fun _ hx => by cases hx

theorem treeOk_reset : TreeOk State.reset := treeOk_clearTree State.reset

/-- `TLOAD` leaves a forest, whatever was there before (R141). -/
theorem treeOk_loadTree (s : State) : TreeOk (loadTree s) :=
  treeOk_of_loaded (loadTree_spec s) (presentSymbols_length_le s) (allSymbols_pairwise.filter _)
    fun x hx => by simpa [presentSymbols] using hx

/-! ### A merge -/

/-- The state after the queue members `a` and `b` of `s` were joined in slot `NNODE` (R143). -/
structure Merged (s t : State) (a b : Nat) : Prop where
  frame : t = { s with nodes := t.nodes, inq := t.inq, nnode := s.nnode + 1#10, qcnt := s.qcnt - 1#9 }
  node : ∀ k, nodeAt t k = if k = s.nnode.toNat then joinNode s a b else nodeAt s k
  queued : ∀ k, inQueue t k = if k = s.nnode.toNat then true else if k = a ∨ k = b then false else inQueue s k

theorem leastTwo_ne {a b : Nat} (h : LeastTwo s a b) : a ≠ b := by
  rintro rfl
  exact keyBefore_irrefl a h.first

/-- The members a merge takes are slots in use. -/
theorem leastTwo_lt_nnode {a b : Nat} (h : TreeOk s) (hl : LeastTwo s a b) : a < s.nnode.toNat ∧ b < s.nnode.toNat := by
  obtain ⟨⟨ha, hb⟩, ⟨hqa, hqb⟩, -, -⟩ := hl
  exact ⟨lt_nnode_of_queued h ha hqa, lt_nnode_of_queued h hb hqb⟩

/-- The children of a merged node are the slots it was made from (R143). -/
theorem joinNode_left {a b : Nat} (ha : a < 512) : (joinNode s a b).left.toNat = a :=
  (BitVec.toNat_ofNat a 9).trans (Nat.mod_eq_of_lt ha)

theorem joinNode_right {a b : Nat} (hb : b < 512) : (joinNode s a b).right.toNat = b :=
  (BitVec.toNat_ofNat b 9).trans (Nat.mod_eq_of_lt hb)

/-- Everything a merge does in a forest with two queue members or more (R142, R143). -/
theorem merged_mergeOnce (h : TreeOk s) (hq : 2 ≤ s.qcnt.toNat) : ∃ a b, LeastTwo s a b ∧ Merged s (mergeOnce s) a b := by
  obtain ⟨a, b, hl⟩ := exists_leastTwo (h.queueCount ▸ hq)
  have hn := nnode_lt_of_two_le h hq
  have hfree : (setInQueue (setInQueue s a false) b false).nnode.toNat < 511 := by simpa using hn
  obtain ⟨hnode, hqueued, hframe⟩ := insertJoined_spec (s := setInQueue (setInQueue s a false) b false) a b hfree
  refine ⟨a, b, hl, ?_⟩
  rw [mergeOnce_of_leastTwo hq hl]
  refine ⟨?_, fun k => ?_, fun k => ?_⟩
  · rw [hframe, setInQueue_frame, setInQueue_frame s a false]
  · rw [hnode]
    simp only [setInQueue_nnode, joinNode, nodeAt_setInQueue]
  · rw [hqueued, inQueue_setInQueue _ hl.slots.2, inQueue_setInQueue _ hl.slots.1]
    simp only [setInQueue_nnode]
    by_cases hb : k = b <;> by_cases ha : k = a <;> simp [ha, hb]

section Merge

variable {a b : Nat} (h : TreeOk s) (hq : 2 ≤ s.qcnt.toNat) (hl : LeastTwo s a b) (hm : Merged s t a b)

include h hq hm in
theorem Merged.nnode : t.nnode.toNat = s.nnode.toNat + 1 := by
  have hn := nnode_lt_of_two_le h hq
  rw [hm.frame]
  simp only [BitVec.toNat_add, BitVec.toNat_ofNat]
  omega

include hm in
theorem Merged.nleaf : t.nleaf = s.nleaf := by rw [hm.frame]

include hq hm in
theorem Merged.qcnt : t.qcnt.toNat = s.qcnt.toNat - 1 := by
  rw [hm.frame]
  bv_omega

include hm in
/-- The nodes below the new one stand as they were. -/
theorem Merged.node_of_lt {k : Nat} (hk : k < s.nnode.toNat) : nodeAt t k = nodeAt s k := by
  rw [hm.node, if_neg (by omega)]

include h hq hl hm in
/-- The queue before and after a merge: two members give way to the new node. -/
theorem Merged.queueMembers_perm : ∃ rest, (∀ k ∈ rest, k < s.nnode.toNat) ∧
    (queueMembers s).Perm (a :: b :: rest) ∧ (queueMembers t).Perm (s.nnode.toNat :: rest) := by
  have hn := nnode_lt_of_two_le h hq
  have hnodup := queueMembers_nodup s
  have ha : a ∈ queueMembers s := mem_queueMembers.mpr ⟨hl.slots.1, hl.members.1⟩
  have hb : b ∈ (queueMembers s).erase a :=
    hnodup.mem_erase_iff.mpr ⟨(leastTwo_ne hl).symm, mem_queueMembers.mpr ⟨hl.slots.2, hl.members.2⟩⟩
  have hrest : ∀ k, k ∈ ((queueMembers s).erase a).erase b ↔ k ≠ b ∧ k ≠ a ∧ k < 511 ∧ inQueue s k = true :=
    fun k => by rw [(hnodup.erase a).mem_erase_iff, hnodup.mem_erase_iff, mem_queueMembers]
  have hlt : ∀ k ∈ ((queueMembers s).erase a).erase b, k < s.nnode.toNat := fun k hk => by
    obtain ⟨-, -, hk, hqueued⟩ := (hrest k).mp hk
    exact lt_nnode_of_queued h hk hqueued
  refine ⟨_, hlt, (List.perm_cons_erase ha).trans ((List.perm_cons_erase hb).cons a), ?_⟩
  refine (List.perm_ext_iff_of_nodup (queueMembers_nodup t) ?_).mpr fun k => ?_
  · exact List.nodup_cons.mpr ⟨fun hk => absurd (hlt _ hk) (by omega), (hnodup.erase a).erase b⟩
  · rw [List.mem_cons, hrest, mem_queueMembers, hm.queued]
    by_cases hk : k = s.nnode.toNat
    · rw [if_pos hk]
      exact ⟨fun _ => .inl hk, fun _ => ⟨hk ▸ hn, rfl⟩⟩
    · rw [if_neg hk, or_iff_right hk]
      by_cases hab : k = a ∨ k = b
      · rw [if_pos hab]
        exact ⟨fun ⟨_, hf⟩ => (by cases hf), fun ⟨hkb, hka, _⟩ => absurd hab (not_or.mpr ⟨hka, hkb⟩)⟩
      · rw [if_neg hab]
        obtain ⟨hka, hkb⟩ := not_or.mp hab
        exact ⟨fun hmem => ⟨hkb, hka, hmem⟩, fun ⟨_, _, hmem⟩ => hmem⟩

include h hq hl hm in
/-- The parents of a slot after a merge: the new node is the parent of the two members, and nothing else changed. -/
theorem Merged.parentsOf_length (k : Nat) :
    (parentsOf t k).length = (if k = a ∨ k = b then 1 else 0) + (parentsOf s k).length := by
  have hn := nnode_lt_of_two_le h hq
  have hnt := Merged.nnode h hq hm
  obtain ⟨ha, hb⟩ := leastTwo_lt_nnode h hl
  have hnew : nodeAt t s.nnode.toNat = joinNode s a b := by rw [hm.node, if_pos rfl]
  have hold : ∀ j, j ≠ s.nnode.toNat → (j ∈ parentsOf t k ↔ j ∈ parentsOf s k) := fun j hj => by
    rw [mem_parentsOf, mem_parentsOf, hm.node, if_neg hj, hnt]
    exact ⟨fun ⟨h1, h2, h3⟩ => ⟨h1, by omega, h3⟩, fun ⟨h1, h2, h3⟩ => ⟨h1, by omega, h3⟩⟩
  have hlast : s.nnode.toNat ∈ parentsOf t k ↔ k = a ∨ k = b := by
    rw [mem_parentsOf, hnew, hnt, joinNode_left (by omega), joinNode_right (by omega)]
    exact ⟨fun ⟨_, _, _, hab⟩ => hab.imp Eq.symm Eq.symm, fun hab => ⟨hn, by omega, rfl, hab.imp Eq.symm Eq.symm⟩⟩
  have hnot : s.nnode.toNat ∉ parentsOf s k := fun hj => absurd (mem_parentsOf.mp hj).2.1 (by omega)
  split
  · next hk =>
    have hp : (parentsOf t k).Perm (s.nnode.toNat :: parentsOf s k) :=
      (List.perm_ext_iff_of_nodup (parentsOf_nodup t k) (List.nodup_cons.mpr ⟨hnot, parentsOf_nodup s k⟩)).mpr fun j => by
        by_cases hj : j = s.nnode.toNat
        · simp only [hj, hlast, hk, List.mem_cons, true_or]
        · rw [hold j hj, List.mem_cons, or_iff_right hj]
    rw [hp.length_eq, List.length_cons, Nat.add_comm]
  · next hk =>
    have hp : (parentsOf t k).Perm (parentsOf s k) :=
      (List.perm_ext_iff_of_nodup (parentsOf_nodup t k) (parentsOf_nodup s k)).mpr fun j => by
        by_cases hj : j = s.nnode.toNat
        · simp only [hj, hlast, hk, hnot]
        · exact hold j hj
    rw [hp.length_eq, Nat.zero_add]

include h hq hl hm in
/-- A slot in use after a merge has one owner (R35 (f)): the queue owns the new node, and the new node its two children. -/
theorem Merged.owned {k : Nat} (hk : k < t.nnode.toNat) : (inQueue t k).toNat + (parentsOf t k).length = 1 := by
  rw [Merged.nnode h hq hm] at hk
  rw [Merged.parentsOf_length h hq hl hm, hm.queued]
  obtain ⟨ha, hb⟩ := leastTwo_lt_nnode h hl
  by_cases hlast : k = s.nnode.toNat
  · have hp : parentsOf s k = [] := List.eq_nil_iff_forall_not_mem.mpr fun j hj => by
      have := lt_of_mem_parentsOf h hj
      omega
    rw [if_pos hlast, if_neg (by omega), hp]
    rfl
  · have hown := h.owned k (by omega)
    rw [if_neg hlast]
    split
    · next hab =>
      have hqueued : inQueue s k = true := by
        rcases hab with rfl | rfl
        · exact hl.members.1
        · exact hl.members.2
      rw [hqueued, Bool.toNat_true] at hown
      rw [Bool.toNat_false, Nat.zero_add, hown]
    · rw [Nat.zero_add]
      exact hown

include h hq hl hm in
/-- A merge keeps the forest (R35). -/
theorem Merged.treeOk : TreeOk t := by
  have hn := nnode_lt_of_two_le h hq
  have hnt := Merged.nnode h hq hm
  have hlt := hm.nleaf
  have hqt := Merged.qcnt hq hm
  have hold := fun k hk => Merged.node_of_lt hm (k := k) hk
  have hnew : nodeAt t s.nnode.toNat = joinNode s a b := by rw [hm.node, if_pos rfl]
  obtain ⟨ha, hb⟩ := leastTwo_lt_nnode h hl
  obtain ⟨hsize, hmax, hleaves⟩ := h.sizes
  obtain ⟨hmerges, hqle⟩ := h.merges (one_le_nleaf h (by omega))
  refine ⟨?_, fun k hk hk' => ?_, ?_, fun _ => ?_, fun k hk => ?_, fun j hj k hk => ?_, fun k hk hk' => ?_,
    fun k hk => Merged.owned h hq hl hm hk⟩
  · obtain ⟨rest, -, hps, hpt⟩ := Merged.queueMembers_perm h hq hl hm
    have hcount := h.queueCount
    rw [hps.length_eq, List.length_cons, List.length_cons] at hcount
    rw [hqt, hpt.length_eq, List.length_cons, hcount]
    rfl
  · rw [hm.node, hm.queued, if_neg (by omega), if_neg (by omega), if_neg (by omega)]
    exact h.unused k hk (by omega)
  · rw [hlt]
    omega
  · rw [hlt]
    omega
  · rw [hlt] at hk
    rw [hold k (by omega)]
    exact h.leaves k hk
  · rw [hlt] at hj
    rw [hold k (by omega), hold j (by omega)]
    exact h.symbols j hj k hk
  · rw [hlt] at hk'
    by_cases hlast : k = s.nnode.toNat
    · have hleft : (joinNode s a b).left.toNat = a := joinNode_left (by omega)
      have hright : (joinNode s a b).right.toNat = b := joinNode_right (by omega)
      rw [hlast, hnew, hleft, hright, hold a ha, hold b hb]
      exact ⟨rfl, rfl, ha, hb, fun heq => leastTwo_ne hl (hleft.symm.trans (heq ▸ hright)), rfl⟩
    · obtain ⟨-, -, hleft, hright, -⟩ := h.internals k (by omega) hk'
      rw [hold k (by omega), hold _ (by omega), hold _ (by omega)]
      exact h.internals k (by omega) hk'

end Merge

end Sys2Proof.Machine
end

section
/-! What `TLOAD`, `TMERGE` and `BUILD` keep of the tree and of the queue's weight, and the tree `BUILD` leaves
(10_state.md R35, R36, 41_tree_builder.md R144, R147, R149). -/

namespace Sys2Proof.Machine

open Sys2Proof.Safety

variable {s t : State} {i : Instr}

/-! ### The forest (R35) -/

theorem treeOk_mergeOnce (h : TreeOk s) (hq : 2 ≤ s.qcnt.toNat) : TreeOk (mergeOnce s) := by
  obtain ⟨a, b, hl, hm⟩ := merged_mergeOnce h hq
  exact Merged.treeOk h hq hl hm

/-- `BUILD`'s loop keeps the forest (R144). -/
theorem treeOk_mergeWhile (fuel : Nat) (h : TreeOk s) : TreeOk (mergeWhile fuel s) :=
  mergeWhile_preserves (fun _ hu hq => treeOk_mergeOnce hu hq) fuel h

theorem treeOk_buildTree (s : State) : TreeOk (buildTree s) := treeOk_mergeWhile _ (treeOk_loadTree s)

/-- R35 speaks of the node table, the queue and their counters only. -/
theorem treeOk_congr (hnodes : t.nodes = s.nodes) (hinq : t.inq = s.inq) (hnnode : t.nnode = s.nnode)
    (hnleaf : t.nleaf = s.nleaf) (hqcnt : t.qcnt = s.qcnt) (h : TreeOk s) : TreeOk t := by
  have hnode := nodeAt_congr hnodes
  have hqueue := inQueue_congr hinq
  have hmembers : queueMembers t = queueMembers s := queueMembers_congr fun k _ => hqueue k
  have hparents : ∀ k, parentsOf t k = parentsOf s k := fun k => by simp only [parentsOf, hnode, hnnode]
  refine ⟨?_, ?_, ?_, ?_, ?_, ?_, ?_, ?_⟩ <;>
    simp only [hnode, hqueue, hmembers, hparents, hnnode, hnleaf, hqcnt]
  exacts [h.queueCount, h.unused, h.sizes, h.merges, h.leaves, h.symbols, h.internals, h.owned]

theorem Effect.keeps_treeOk (h : Effect s i t) (hs : TreeOk s) : TreeOk t := by
  by_cases hw : writesTree i = false
  · obtain ⟨hnodes, hinq, hnnode, hnleaf, hqcnt⟩ := h.keeps_tree hw
    exact treeOk_congr hnodes hinq hnnode hnleaf hqcnt hs
  · cases h with
    | tload => exact treeOk_loadTree s
    | tmerge =>
      rcases Nat.lt_or_ge s.qcnt.toNat 2 with hq | hq
      · rw [mergeOnce_of_lt hq]
        exact hs
      · exact treeOk_mergeOnce hs hq
    | build => exact treeOk_buildTree s
    | _ => exact absurd rfl hw

/-! ### The weight of the queue (R35 (g), R147) -/

/-- Terms that are zero may be left out of a sum. -/
theorem sum_map_filter_of_zero {α : Type} {l : List α} {p : α → Bool} {f : α → Nat} (h : ∀ x, p x = false → f x = 0) :
    ((l.filter p).map f).sum = (l.map f).sum := by
  induction l with
  | nil => rfl
  | cons x l ih =>
    cases hp : p x with
    | true => rw [List.filter_cons_of_pos hp, List.map_cons, List.map_cons, List.sum_cons, List.sum_cons, ih]
    | false => rw [List.filter_cons_of_neg (by simp [hp]), List.map_cons, List.sum_cons, h x hp, ih, Nat.zero_add]

/-- The queue of a loaded tree weighs the sum of the counters (R141). -/
theorem queueWeight_loadTree (s : State) : queueWeight (loadTree s) = countSum s := by
  have h := loadTree_spec s
  have hweights : (List.range (presentSymbols s).length).map (fun k => (nodeAt (loadTree s) k).weight.toNat) =
      (presentSymbols s).map fun x => (countOf s x).toNat := by
    refine List.ext_getElem (by simp) fun k hk hk' => ?_
    rw [List.length_map] at hk'
    rw [List.getElem_map, List.getElem_map, List.getElem_range, h.node, List.getElem?_eq_getElem hk']
    rfl
  rw [queueWeight, queueMembers_of_loaded h (presentSymbols_length_le s), hweights, presentSymbols, countSum]
  refine sum_map_filter_of_zero fun x hx => ?_
  rw [not_not.mp (of_decide_eq_false hx)]
  rfl

theorem queueWeightOk_loadTree (h : FrequencyOk s) : QueueWeightOk (loadTree s) where
  bound := by
    rw [queueWeight_loadTree, ← h.total]
    exact Nat.lt_succ_iff.mp s.total.isLt
  exact k hk hk' := by
    rw [(loadTree_spec s).nnode] at hk
    rw [(loadTree_spec s).nleaf] at hk'
    omega

section Merge

variable {a b : Nat} (h : TreeOk s) (hq : 2 ≤ s.qcnt.toNat) (hl : LeastTwo s a b) (hm : Merged s t a b)
  (hw : queueWeight s ≤ 4294967295)

include h hq hl hm hw in
/-- Where the queue weighs no more than a count, the sum of a merge does not wrap, and the queue weighs what it weighed
before (R147). -/
theorem Merged.weights :
    (joinNode s a b).weight.toNat = (nodeAt s a).weight.toNat + (nodeAt s b).weight.toNat ∧
      queueWeight t = queueWeight s := by
  obtain ⟨rest, hrest, hps, hpt⟩ := Merged.queueMembers_perm h hq hl hm
  have hs : queueWeight s = (nodeAt s a).weight.toNat +
      ((nodeAt s b).weight.toNat + (rest.map fun k => (nodeAt s k).weight.toNat).sum) := by
    rw [queueWeight, (hps.map _).sum_eq, List.map_cons, List.map_cons, List.sum_cons, List.sum_cons]
  have ht : queueWeight t = (joinNode s a b).weight.toNat + (rest.map fun k => (nodeAt s k).weight.toNat).sum := by
    have hsame : rest.map (fun k => (nodeAt t k).weight.toNat) = rest.map fun k => (nodeAt s k).weight.toNat :=
      List.map_congr_left fun k hk => by rw [Merged.node_of_lt hm (hrest k hk)]
    rw [queueWeight, (hpt.map _).sum_eq, List.map_cons, List.sum_cons, hsame, hm.node, if_pos rfl]
  have hjoin : (joinNode s a b).weight.toNat = (nodeAt s a).weight.toNat + (nodeAt s b).weight.toNat := by
    rw [joinNode, BitVec.toNat_add, Nat.mod_eq_of_lt (by omega)]
  exact ⟨hjoin, by omega⟩

include h hq hl hm in
theorem Merged.queueWeightOk (hw : QueueWeightOk s) : QueueWeightOk t := by
  obtain ⟨hjoin, hweight⟩ := Merged.weights h hq hl hm hw.bound
  obtain ⟨ha, hb⟩ := leastTwo_lt_nnode h hl
  have hn := nnode_lt_of_two_le h hq
  refine ⟨by rw [hweight]; exact hw.bound, fun k hk hk' => ?_⟩
  rw [Merged.nnode h hq hm] at hk
  rw [hm.nleaf] at hk'
  by_cases hlast : k = s.nnode.toNat
  · have hnew : nodeAt t s.nnode.toNat = joinNode s a b := by rw [hm.node, if_pos rfl]
    rw [hlast, hnew, joinNode_left (by omega), joinNode_right (by omega), Merged.node_of_lt hm ha,
      Merged.node_of_lt hm hb, hjoin]
  · obtain ⟨-, -, hleft, hright, -⟩ := h.internals k (by omega) hk'
    rw [Merged.node_of_lt hm (by omega), Merged.node_of_lt hm (by omega), Merged.node_of_lt hm (by omega)]
    exact hw.exact k (by omega) hk'

end Merge

/-- What `BUILD`'s loop needs and keeps: a forest whose queue has the weight `total`. -/
structure ForestWeighing (total : Nat) (s : State) : Prop where
  forest : TreeOk s
  bounded : QueueWeightOk s
  weight : queueWeight s = total

theorem forestWeighing_mergeOnce {total : Nat} (h : ForestWeighing total s) (hq : 2 ≤ s.qcnt.toNat) :
    ForestWeighing total (mergeOnce s) := by
  obtain ⟨htree, hweight, htotal⟩ := h
  obtain ⟨a, b, hl, hm⟩ := merged_mergeOnce htree hq
  obtain ⟨-, hkept⟩ := Merged.weights htree hq hl hm hweight.bound
  exact ⟨Merged.treeOk htree hq hl hm, Merged.queueWeightOk htree hq hl hm hweight, hkept.trans htotal⟩

theorem forestWeighing_buildTree (h : FrequencyOk s) : ForestWeighing s.total.toNat (buildTree s) :=
  mergeWhile_preserves (fun _ hu hq => forestWeighing_mergeOnce hu hq) _
    ⟨treeOk_loadTree s, queueWeightOk_loadTree h, (queueWeight_loadTree s).trans h.total.symm⟩

theorem queueWeightOk_congr (hnodes : t.nodes = s.nodes) (hinq : t.inq = s.inq) (hnnode : t.nnode = s.nnode)
    (hnleaf : t.nleaf = s.nleaf) (h : QueueWeightOk s) : QueueWeightOk t := by
  have hnode := nodeAt_congr hnodes
  have hmembers : queueMembers t = queueMembers s := queueMembers_congr fun k _ => inQueue_congr hinq k
  refine ⟨?_, ?_⟩ <;> simp only [queueWeight, hnode, hmembers, hnnode, hnleaf]
  exacts [h.bound, h.exact]

/-- The empty queue weighs nothing (R58). -/
theorem queueWeightOk_clearTree (s : State) : QueueWeightOk (clearTree s) where
  bound := by
    rw [queueWeight, queueMembers_of_loaded (loaded_clearTree s) (Nat.zero_le _)]
    exact Nat.zero_le _
  exact _ hk := absurd hk (Nat.not_lt_zero _)

theorem queueWeightOk_reset : QueueWeightOk State.reset := queueWeightOk_clearTree State.reset

theorem Effect.keeps_queueWeightOk (h : Effect s i t) (hfreq : FrequencyOk s) (htree : TreeOk s)
    (hs : QueueWeightOk s) : QueueWeightOk t := by
  by_cases hw : writesTree i = false
  · obtain ⟨hnodes, hinq, hnnode, hnleaf, -⟩ := h.keeps_tree hw
    exact queueWeightOk_congr hnodes hinq hnnode hnleaf hs
  · cases h with
    | tload => exact queueWeightOk_loadTree hfreq
    | tmerge =>
      rcases Nat.lt_or_ge s.qcnt.toNat 2 with hq | hq
      · rw [mergeOnce_of_lt hq]
        exact hs
      · exact (forestWeighing_mergeOnce ⟨htree, hs, rfl⟩ hq).bounded
    | build => exact (forestWeighing_buildTree hfreq).bounded
    | _ => exact absurd rfl hw

/-! ### The tree that `BUILD` leaves (R144, R149) -/

/-- Each merge takes one member from the queue, and `BUILD`'s loop stops at one (R144). -/
theorem mergeWhile_qcnt {fuel : Nat} (h : TreeOk s) (hf : s.qcnt.toNat ≤ fuel + 1) :
    (mergeWhile fuel s).qcnt.toNat = min s.qcnt.toNat 1 := by
  induction fuel generalizing s with
  | zero =>
    rw [mergeWhile]
    omega
  | succ fuel ih =>
    rw [mergeWhile]
    split
    · next hq =>
      obtain ⟨a, b, hl, hm⟩ := merged_mergeOnce h hq
      have hqcnt := Merged.qcnt hq hm
      rw [ih (Merged.treeOk h hq hl hm) (by omega)]
      omega
    · omega

/-- `BUILD` leaves one queue member, or none where no symbol is present (R144, R145). -/
theorem buildTree_qcnt (s : State) : (buildTree s).qcnt.toNat = min (presentSymbols s).length 1 := by
  have hqcnt := (loadTree_spec s).qcnt
  have hlen := presentSymbols_length_le s
  have hfuel : (loadTree s).qcnt.toNat ≤ Config.nsym + 1 := by
    rw [hqcnt]
    exact hlen.trans (Nat.le_succ _)
  rw [buildTree, mergeWhile_qcnt (treeOk_loadTree s) hfuel, hqcnt]

/-- A complete tree's queue weighs what its root weighs (R36). -/
theorem queueWeight_of_complete (h : TreeOk s) (hq : s.qcnt.toNat = 1) :
    queueWeight s = (nodeAt s (s.nnode.toNat - 1)).weight.toNat := by
  rw [queueWeight, (queueMembers_of_complete h hq).2]
  rfl

/-- A queue that weighs something has a member. -/
theorem one_le_qcnt_of_weight (h : TreeOk s) (hw : queueWeight s ≠ 0) : 1 ≤ s.qcnt.toNat := by
  by_contra hq
  have hempty := List.length_eq_zero_iff.mp (h.queueCount.symm.trans (by omega))
  exact hw (by rw [queueWeight, hempty]; rfl)

/-! ### The statements -/

/-- Settles O49: each effect on the tree keeps the forest, a merge by `Merged.treeOk`. -/
theorem stepKeepsTree : Obligations.StepKeepsTree := by
  unfold Obligations.StepKeepsTree
  exact fun s t => step_preserves_of_effect
    (fun _ _ _ _ _ _ h => ⟨h.queueCount, h.unused, h.sizes, h.merges, h.leaves, h.symbols, h.internals, h.owned⟩)
    treeOk_reset Effect.keeps_treeOk

/-- Settles O50: a load gives the queue the weight `TOTAL`, and a merge keeps it without wrapping. -/
theorem stepKeepsQueueWeight : Obligations.StepKeepsQueueWeight := by
  unfold Obligations.StepKeepsQueueWeight
  intro s t hfreq htree hweight hstep
  obtain ⟨-, -, hweight⟩ := step_preserves_of_effect (P := fun u => FrequencyOk u ∧ TreeOk u ∧ QueueWeightOk u)
    (fun u _ _ _ _ _ ⟨hf, ht, hw⟩ =>
      ⟨⟨hf.total⟩, treeOk_congr (s := u) rfl rfl rfl rfl rfl ht, ⟨hw.bound, hw.exact⟩⟩)
    ⟨frequencyOk_reset, treeOk_reset, queueWeightOk_reset⟩
    (fun he ⟨hf, ht, hw⟩ => ⟨he.keeps_frequencyOk hf, he.keeps_treeOk ht, he.keeps_queueWeightOk hf ht hw⟩)
    ⟨hfreq, htree, hweight⟩ hstep
  exact hweight

/-- Settles O28: the merges keep the weight of the queue, which the root has alone in the end. -/
theorem builtRootWeighsTotal : Obligations.BuiltRootWeighsTotal := by
  unfold Obligations.BuiltRootWeighsTotal
  intro s he hfreq htotal
  obtain ⟨htree, -, hweight⟩ := forestWeighing_buildTree hfreq
  have hmember := one_le_qcnt_of_weight htree (by rw [hweight]; bv_omega)
  have hqcnt : (buildTree s).qcnt.toNat = 1 := by
    have := buildTree_qcnt s
    omega
  refine ⟨countCommand (buildTree s), exec_of_effect he .build, ?_, ?_, ?_⟩
  · rw [countCommand_qcnt]
    exact BitVec.eq_of_toNat_eq hqcnt
  · rw [countCommand_nnode, nodeAt_congr (countCommand_nodes _)]
    exact BitVec.eq_of_toNat_eq ((queueWeight_of_complete htree hqcnt).symm.trans hweight)
  · have hmerges := (htree.merges (one_le_nleaf htree hmember)).1
    rw [countCommand_nnode, countCommand_nleaf, hmerges, hqcnt]

end Sys2Proof.Machine
end

section
/-! The code table under `WALK`, `CSET` and the other commands (10_state.md R37 to R40, 42_code_table.md). -/

namespace Sys2Proof.Machine

open Sys2Proof.Safety

variable {s t : State} {i : Instr}

/-! ### Paths in the forest (R35, R162) -/

/-- A path ends in one slot. -/
theorem pathTo_unique {n m m' : Nat} {p : Bits} (h : PathTo s n p m) (h' : PathTo s n p m') : m = m' := by
  induction h with
  | here => cases h'; rfl
  | left _ _ ih => cases h' with | left _ h' => exact ih h'
  | right _ _ ih => cases h' with | right _ h' => exact ih h'

/-- Paths follow one another. -/
theorem pathTo_append {n j m : Nat} {p q : Bits} (h : PathTo s n p j) (h' : PathTo s j q m) : PathTo s n (p ++ q) m := by
  induction h with
  | here => exact h'
  | left hl _ ih => exact .left hl (ih h')
  | right hl _ ih => exact .right hl (ih h')

/-- A path runs down through internal nodes, so it ends no higher than it starts and has no more edges than there are
internal nodes up to its start (R35 (e)). -/
theorem pathTo_bounds (h : TreeOk s) {n m : Nat} {p : Bits} (hp : PathTo s n p m) (hn : n < s.nnode.toNat) :
    m ≤ n ∧ p.length ≤ n + 1 - s.nleaf.toNat := by
  induction hp with
  | here => exact ⟨le_rfl, Nat.zero_le _⟩
  | left hl _ ih =>
    have hle := nleaf_le_of_internal h hl
    obtain ⟨-, -, hlt, -⟩ := h.internals _ hn hle
    obtain ⟨hm, hlen⟩ := ih (by omega)
    rw [List.length_cons]
    omega
  | right hl _ ih =>
    have hle := nleaf_le_of_internal h hl
    obtain ⟨-, -, -, hlt, -⟩ := h.internals _ hn hle
    obtain ⟨hm, hlen⟩ := ih (by omega)
    rw [List.length_cons]
    omega

/-- No path of a forest has more than 255 edges (R35 (c)). -/
theorem pathTo_length_le (h : TreeOk s) {n m : Nat} {p : Bits} (hp : PathTo s n p m) (hn : n < s.nnode.toNat) :
    p.length ≤ 255 := by
  have hlen := (pathTo_bounds h hp hn).2
  obtain ⟨-, hnodes, hleaves⟩ := h.sizes
  have hleaves : s.nleaf.toNat ≤ 256 := hleaves
  omega

/-- In a complete tree every slot in use is reached from the root: climb from owner to owner (R35 (f), R36). -/
theorem exists_pathTo (h : TreeOk s) (hq : s.qcnt.toNat = 1) {k : Nat} (hk : k < s.nnode.toNat) :
    ∃ p, PathTo s (rootSlot s) p k := by
  induction hd : s.nnode.toNat - k using Nat.strong_induction_on generalizing k with
  | _ d ih =>
    have hown := h.owned k hk
    cases hin : inQueue s k with
    | true =>
      have hmem : k ∈ queueMembers s := mem_queueMembers.mpr ⟨by have := nnode_le h; omega, hin⟩
      rw [(queueMembers_of_complete h hq).2, List.mem_singleton] at hmem
      exact ⟨[], hmem ▸ .here _⟩
    | false =>
      rw [hin, Bool.toNat_false, Nat.zero_add] at hown
      obtain ⟨j, hj⟩ := List.length_eq_one_iff.mp hown
      have hj : j ∈ parentsOf s k := hj ▸ List.mem_singleton_self j
      obtain ⟨hkj, hjn⟩ := lt_of_mem_parentsOf h hj
      obtain ⟨p, hp⟩ := ih (s.nnode.toNat - j) (by omega) hjn rfl
      obtain ⟨-, -, hl, rfl | rfl⟩ := mem_parentsOf.mp hj
      · exact ⟨p ++ [false], pathTo_append hp (.left hl (.here _))⟩
      · exact ⟨p ++ [true], pathTo_append hp (.right hl (.here _))⟩

/-- The leaves are the first `NLEAF` slots (R35 (e)). -/
theorem leaf_iff_lt_nleaf (h : TreeOk s) {k : Nat} (hk : k < s.nnode.toNat) :
    (nodeAt s k).leaf = true ↔ k < s.nleaf.toNat := by
  constructor
  · intro hl
    by_contra hge
    exact absurd (hl.symm.trans (h.internals k hk (by omega)).1) (by decide)
  · exact fun hlt => (h.leaves k hlt).1

/-- `WALK` lists each leaf with its path from the root (R162): the bound of the walk is never reached. -/
theorem mem_codesFrom_root (h : TreeOk s) (hn : 1 ≤ s.nnode.toNat) {x : Byte} {p : Bits} :
    (x, p) ∈ codesFrom s Config.nodeMax (rootSlot s) [] ↔
      ∃ m, m < s.nleaf.toNat ∧ PathTo s (rootSlot s) p m ∧ (nodeAt s m).sym = x := by
  have hroot : rootSlot s < s.nnode.toNat := Nat.sub_lt hn Nat.one_pos
  rw [mem_codesFrom]
  constructor
  · rintro ⟨r, m, hr, -, hp, hl, hx⟩
    rw [List.nil_append] at hr
    subst hr
    have hm := (pathTo_bounds h hp hroot).1
    exact ⟨m, (leaf_iff_lt_nleaf h (by omega)).mp hl, hp, hx⟩
  · rintro ⟨m, hm, hp, hx⟩
    exact ⟨p, m, rfl, (pathTo_length_le h hp hroot).trans_lt (by decide), hp, (h.leaves m hm).1, hx⟩

/-! ### Counting the codes (R38) -/

/-- `NCODE`'s meaning: as many symbols as are listed, where the list is exactly the symbols that have a code. -/
theorem codeCount_eq_length {l : List Byte} (hl : l.Nodup) (h : ∀ x, codeOf s x ≠ [] ↔ x ∈ l) : codeCount s = l.length := by
  refine List.Perm.length_eq ((List.perm_ext_iff_of_nodup (allSymbols_nodup.filter _) hl).mpr fun x => ?_)
  rw [List.mem_filter, decide_eq_true_eq, ← h, Nat.one_le_iff_ne_zero, ne_eq, List.length_eq_zero_iff]
  exact and_iff_right (mem_allSymbols x)

theorem codeCount_le (s : State) : codeCount s ≤ 256 := by
  unfold codeCount
  exact (List.length_filter_le _ _).trans_eq allSymbols_length

/-- A table whose codes are exactly those of the listed symbols. -/
theorem codeTableOk_of_symbols {l : List Byte} (hl : l.Nodup) (hcodes : ∀ x, codeOf t x ≠ [] ↔ x ∈ l)
    (hncode : t.ncode.toNat = l.length) (hlengths : ∀ x, (codeOf t x).length ≤ 255)
    (hdistinct : ∀ x y, codeOf t x = codeOf t y → codeOf t x ≠ [] → x = y) (hstaged : t.cstg.length ≤ 255) :
    CodeTableOk t where
  lengths x _ := hlengths x
  distinct x _ y _ := hdistinct x y
  count := hncode.trans (codeCount_eq_length hl hcodes).symm
  staged := hstaged

/-- A table without codes. -/
theorem codeTableOk_of_empty (hcodes : ∀ x, codeOf t x = []) (hncode : t.ncode = 0#9) (hstaged : t.cstg.length ≤ 255) :
    CodeTableOk t :=
  codeTableOk_of_symbols .nil (fun x => by simp [hcodes]) (by rw [hncode]; rfl) (fun x => by simp [hcodes])
    (fun x _ _ hne => absurd (hcodes x) hne) hstaged

theorem codeTableOk_congr (hct : t.ct = s.ct) (hncode : t.ncode = s.ncode) (hstaged : t.cstg.length ≤ 255)
    (h : CodeTableOk s) : CodeTableOk t := by
  have hcode := codeOf_congr hct
  refine ⟨?_, ?_, ?_, hstaged⟩ <;> simp only [codeCount, hcode, hncode]
  exacts [h.lengths, h.distinct, h.count]

theorem codeTableOk_reset : CodeTableOk State.reset := codeTableOk_of_empty (fun _ => rfl) rfl (Nat.zero_le _)

/-! ### `WALK` (R161 to R164) -/

/-- A symbol that is listed gets one of its listed codes. -/
theorem mem_of_storeCodes {l : List (Byte × Bits)} {x : Byte} (h : ∃ p, (x, p) ∈ l) :
    (x, codeOf (storeCodes s l) x) ∈ l := by
  induction l generalizing s with
  | nil =>
    obtain ⟨_, hp⟩ := h
    cases hp
  | cons e l ih =>
    by_cases htail : ∃ p, (x, p) ∈ l
    · exact List.mem_cons_of_mem _ (ih (s := setCode s e.1 e.2) htail)
    · obtain ⟨p, hp⟩ := h
      have he : (x, p) = e := (List.mem_cons.mp hp).resolve_right fun hp => htail ⟨p, hp⟩
      subst he
      have hcode : codeOf (storeCodes s ((x, p) :: l)) x = p :=
        (codeOf_storeCodes_of_not_mem (s := setCode s x p) fun p' hp' => htail ⟨p', hp'⟩).trans
          (by rw [codeOf_setCode, if_pos rfl])
      rw [hcode]
      exact List.mem_cons_self

/-- What is stored in a cleared table: the listed codes, and nothing for the other symbols. -/
theorem codeOf_storeCodes_clearCodes (s : State) (l : List (Byte × Bits)) (x : Byte) :
    (x, codeOf (storeCodes (clearCodes s) l) x) ∈ l ∨
      codeOf (storeCodes (clearCodes s) l) x = [] ∧ ∀ p, (x, p) ∉ l := by
  by_cases h : ∃ p, (x, p) ∈ l
  · exact .inl (mem_of_storeCodes h)
  · have h := not_exists.mp h
    exact .inr ⟨(codeOf_storeCodes_of_not_mem h).trans (codeOf_clearCodes x), h⟩

/-- The symbols of the leaves. -/
def leafSymbols (s : State) : List Byte := (List.range s.nleaf.toNat).map fun k => (nodeAt s k).sym

theorem leafSymbols_nodup (h : TreeOk s) : (leafSymbols s).Nodup := by
  refine List.Nodup.map_on (fun j hj k hk heq => ?_) List.nodup_range
  rw [List.mem_range] at hj hk
  rcases Nat.lt_trichotomy j k with hlt | heq' | hlt
  · exact absurd (h.symbols k hk j hlt) (by rw [heq]; exact Nat.lt_irrefl _)
  · exact heq'
  · exact absurd (h.symbols j hj k hlt) (by rw [heq]; exact Nat.lt_irrefl _)

section Walk

variable (h : TreeOk s) (hq : s.qcnt.toNat = 1) (hroot : (nodeAt s (rootSlot s)).leaf = false)
  (hct : t.ct = (storeCodes (clearCodes s) (codesFrom s Config.nodeMax (rootSlot s) [])).ct)

include h hq hct in
/-- After a walk a code is the path to a leaf of its symbol (R162). -/
theorem pathTo_of_walked {x : Byte} (hx : codeOf t x ≠ []) :
    ∃ m, m < s.nleaf.toNat ∧ PathTo s (rootSlot s) (codeOf t x) m ∧ (nodeAt s m).sym = x := by
  rw [codeOf_congr hct] at hx ⊢
  rcases codeOf_storeCodes_clearCodes s (codesFrom s Config.nodeMax (rootSlot s) []) x with hmem | ⟨hnil, -⟩
  · exact (mem_codesFrom_root h (queueMembers_of_complete h hq).1).mp hmem
  · exact absurd hnil hx

include h hq hroot hct in
/-- After a walk of a tree with an internal root exactly the leaves' symbols have codes (R164 (a)). -/
theorem codeOf_walked_ne_nil (x : Byte) : codeOf t x ≠ [] ↔ x ∈ leafSymbols s := by
  obtain ⟨hn, -⟩ := queueMembers_of_complete h hq
  simp only [leafSymbols, List.mem_map, List.mem_range]
  constructor
  · intro hx
    obtain ⟨m, hm, -, hsym⟩ := pathTo_of_walked h hq hct hx
    exact ⟨m, hm, hsym⟩
  · rintro ⟨m, hm, rfl⟩
    obtain ⟨p, hp⟩ := exists_pathTo h hq (hm.trans_le h.sizes.1)
    have hlisted := (mem_codesFrom_root h hn).mpr ⟨m, hm, hp, rfl⟩
    rw [codeOf_congr hct]
    rcases codeOf_storeCodes_clearCodes s (codesFrom s Config.nodeMax (rootSlot s) []) (nodeAt s m).sym with
      hmem | ⟨-, hnot⟩
    · intro hnil
      rw [hnil] at hmem
      obtain ⟨k, hk, hpath, -⟩ := (mem_codesFrom_root h hn).mp hmem
      cases hpath
      exact absurd (hroot.symm.trans (h.leaves _ hk).1) (by decide)
    · exact absurd hlisted (hnot p)

include h hq hroot hct in
/-- The table that a walk leaves (R161, R164). -/
theorem codeTableOk_walked (hncode : t.ncode = s.nleaf) (hstaged : t.cstg.length ≤ 255) : CodeTableOk t := by
  have hn : rootSlot s < s.nnode.toNat := Nat.sub_lt (queueMembers_of_complete h hq).1 Nat.one_pos
  refine codeTableOk_of_symbols (leafSymbols_nodup h) (codeOf_walked_ne_nil h hq hroot hct) ?_ (fun x => ?_)
    (fun x y hxy hx => ?_) hstaged
  · rw [hncode, leafSymbols, List.length_map, List.length_range]
  · by_cases hx : codeOf t x = []
    · rw [hx]
      exact Nat.zero_le _
    · obtain ⟨m, -, hp, -⟩ := pathTo_of_walked h hq hct hx
      exact pathTo_length_le h hp hn
  · obtain ⟨m, -, hp, rfl⟩ := pathTo_of_walked h hq hct hx
    obtain ⟨m', -, hp', rfl⟩ := pathTo_of_walked h hq hct (hxy ▸ hx)
    rw [pathTo_unique hp (hxy ▸ hp')]

end Walk

/-- The table of a lone leaf: its symbol has the code `0` (R163). -/
theorem codeTableOk_lone {x : Byte} (hcodes : ∀ y, codeOf t y = if y = x then [false] else []) (hncode : t.ncode = 1#9)
    (hstaged : t.cstg.length ≤ 255) : CodeTableOk t := by
  have hsome : ∀ y, codeOf t y ≠ [] ↔ y = x := fun y => by
    rw [hcodes]
    split <;> simp [*]
  refine codeTableOk_of_symbols (List.nodup_singleton x) (fun y => by rw [hsome, List.mem_singleton])
    (by rw [hncode]; rfl) (fun y => ?_) (fun y z hyz hy => ?_) hstaged
  · rw [hcodes]
    split <;> simp
  · rw [(hsome y).mp hy, (hsome z).mp (hyz ▸ hy)]

/-- Everything `WALK` does where it raises no fault (R161, R163). -/
theorem walkTree_cases (h : walkTree s = .ok t) :
    (s.qcnt = 0#9 ∧ t = clearCodes s) ∨
    (s.qcnt = 1#9 ∧ (nodeAt s (rootSlot s)).leaf = true ∧
      t = { setCode (clearCodes s) (nodeAt s (rootSlot s)).sym [false] with ncode := 1#9 }) ∨
    (s.qcnt = 1#9 ∧ (nodeAt s (rootSlot s)).leaf = false ∧
      t = { storeCodes (clearCodes s) (codesFrom s Config.nodeMax (rootSlot s) []) with ncode := s.nleaf }) := by
  unfold walkTree at h
  split at h
  · cases h
  · next hlt =>
    split at h
    · next hone =>
      split at h <;> cases h
      · next hl => exact .inr (.inl ⟨hone, hl, rfl⟩)
      · next hl => exact .inr (.inr ⟨hone, Bool.eq_false_iff.mpr hl, rfl⟩)
    · next hone =>
      cases h
      exact .inl ⟨by bv_omega, rfl⟩

theorem codeTableOk_walkTree (htree : TreeOk s) (hs : CodeTableOk s) (h : walkTree s = .ok t) : CodeTableOk t := by
  have hstaged : t.cstg.length ≤ 255 := by
    rw [walkTree_frame h]
    exact hs.staged
  rcases walkTree_cases h with ⟨-, rfl⟩ | ⟨-, -, rfl⟩ | ⟨hq, hroot, rfl⟩
  · exact codeTableOk_of_empty (fun _ => rfl) rfl hstaged
  · exact codeTableOk_lone (fun y => codeOf_setCode (clearCodes s) (nodeAt s (rootSlot s)).sym y [false]) rfl hstaged
  · exact codeTableOk_walked htree (by rw [hq]; rfl) hroot rfl rfl hstaged

/-! ### `CSET` and the other commands -/

/-- The symbols that have a code. -/
def codedSymbols (s : State) : List Byte := allSymbols.filter fun x => decide (codeOf s x ≠ [])

theorem mem_codedSymbols {x : Byte} : x ∈ codedSymbols s ↔ codeOf s x ≠ [] := by
  rw [codedSymbols, List.mem_filter, decide_eq_true_eq]
  exact and_iff_right (mem_allSymbols x)

theorem codedSymbols_nodup (s : State) : (codedSymbols s).Nodup := allSymbols_nodup.filter _

/-- A committed code that no symbol had is one code more, different from the others (R167). -/
theorem codeTableOk_cset (hs : CodeTableOk s) {x : Byte} (hne : s.cstg ≠ []) (hx : codeOf s x = [])
    (hfresh : ∀ y, codeOf s y ≠ s.cstg) (hcode : ∀ y, codeOf t y = if y = x then s.cstg else codeOf s y)
    (hncode : t.ncode = s.ncode + 1#9) (hstaged : t.cstg = []) : CodeTableOk t := by
  have hnodup : (x :: codedSymbols s).Nodup :=
    List.nodup_cons.mpr ⟨fun hmem => mem_codedSymbols.mp hmem hx, codedSymbols_nodup s⟩
  have hsome : ∀ y, codeOf t y ≠ [] ↔ y ∈ x :: codedSymbols s := fun y => by
    rw [hcode, List.mem_cons, mem_codedSymbols]
    by_cases hy : y = x
    · simp only [hy, if_true, hne, ne_eq, not_false_eq_true, true_or]
    · simp only [hy, if_false, false_or]
  have hroom := codeCount_le t
  rw [codeCount_eq_length hnodup hsome, List.length_cons] at hroom
  refine codeTableOk_of_symbols hnodup hsome ?_ (fun y => ?_) (fun y z hyz hy => ?_) (by rw [hstaged]; exact Nat.zero_le _)
  · have hcount := hs.count
    rw [codeCount_eq_length (codedSymbols_nodup s) fun _ => mem_codedSymbols.symm] at hcount
    rw [hncode, List.length_cons]
    simp only [BitVec.toNat_add, BitVec.toNat_ofNat]
    omega
  · rw [hcode]
    split
    · exact hs.staged
    · exact hs.lengths y (mem_allSymbols y)
  · rw [hcode] at hy
    rw [hcode, hcode] at hyz
    by_cases hyx : y = x <;> by_cases hzx : z = x
    · rw [hyx, hzx]
    · rw [if_pos hyx, if_neg hzx] at hyz
      exact absurd hyz.symm (hfresh z)
    · rw [if_neg hyx, if_pos hzx] at hyz
      exact absurd hyz (hfresh y)
    · rw [if_neg hyx] at hy
      rw [if_neg hyx, if_neg hzx] at hyz
      exact hs.distinct y (mem_allSymbols y) z (mem_allSymbols z) hyz hy

theorem Effect.keeps_codeTableOk (h : Effect s i t) (htree : TreeOk s) (hs : CodeTableOk s) : CodeTableOk t := by
  have hf := h.unitFrames
  cases h with
  | walk hw => exact codeTableOk_walkTree htree hs hw
  | cclr => exact codeTableOk_of_empty (fun _ => rfl) rfl (Nat.zero_le _)
  | cldb _ hlen => exact codeTableOk_congr (s := s) rfl rfl (by rw [List.length_append, seqOf_length]; exact hlen) hs
  | cset hne hx hfresh => exact codeTableOk_cset hs hne hx hfresh (fun y => codeOf_setCode s _ y s.cstg) rfl rfl
  | _ =>
    obtain ⟨hct, hncode⟩ := hf.codes rfl
    exact codeTableOk_congr hct hncode (by rw [hf.staging rfl]; exact hs.staged) hs

/-- Settles O51: `WALK` stores distinct paths of the forest, one per leaf, and `CSET` checks before it commits. -/
theorem stepKeepsCodeTable : Obligations.StepKeepsCodeTable := by
  unfold Obligations.StepKeepsCodeTable
  intro s t htree hcodes hstep
  obtain ⟨-, hcodes⟩ := step_preserves_of_effect (P := fun u => TreeOk u ∧ CodeTableOk u)
    (fun u _ _ _ _ _ ⟨ht, hc⟩ => ⟨treeOk_congr (s := u) rfl rfl rfl rfl rfl ht,
      ⟨hc.lengths, hc.distinct, hc.count, hc.staged⟩⟩) ⟨treeOk_reset, codeTableOk_reset⟩
    (fun he ⟨ht, hc⟩ => ⟨he.keeps_treeOk ht, he.keeps_codeTableOk ht hc⟩) ⟨htree, hcodes⟩ hstep
  exact hcodes

end Sys2Proof.Machine
end

section
/-! The command count, the registers that show state, and the reset (10_state.md R26, R36, R53, R54, R58). -/

namespace Sys2Proof.Machine

open Sys2Proof.Safety

variable {s t : State} {i : Instr}

/-! ### The command count (R26) -/

/-- A word the decoder accepts has the opcode of its command's row (R104, R105). -/
theorem opcodeOf_of_decodeWord {cw : Word} (h : decodeWord cw = .ok i) : opcodeOf cw = opcodeFor i := by
  simp only [decodeWord, decodeZ, decodeS, decodeN, decodeB, decodeI, decodeM] at h
  split at h
  case h_24 => cases h
  all_goals
    next hop =>
      split at h <;> cases h
      exact hop

/-- `RST` has one word (R101, R242). -/
theorem decodeWord_rst_iff {cw : Word} : decodeWord cw = .ok .rst ↔ cw = 0x01000000#32 := by
  constructor
  · intro h
    have hop : opcodeOf cw = 0x01#8 := opcodeOf_of_decodeWord h
    simp only [decodeWord, hop, decodeZ] at h
    split at h <;> cases h
    next harg =>
      rw [← assemble_fields cw, hop, harg]
      rfl
  · rintro rfl
    rfl

/-- `RST` leaves 0 in `CMDCNT`, and every other command, executed, faulting or dropped, advances it by one. -/
theorem exec_cmdCnt (h : exec i s = .next t) : t.cmdCnt = if i = .rst then 0#32 else s.cmdCnt + 1#32 := by
  rcases exec_cases h with ⟨rfl, rfl⟩ | ⟨hi, -, rfl⟩ | ⟨hi, -, e, rfl⟩ | ⟨u, hu, rfl⟩
  · rfl
  · rw [if_neg hi]
    rfl
  · rw [if_neg hi]
    rfl
  · have hi : i ≠ .rst := by
      rintro rfl
      cases hu
    obtain ⟨-, -, -, hcnt, -⟩ := hu.frame
    rw [if_neg hi, countCommand_cmdCnt, hcnt]

/-- A command always answers a next state (R12). -/
theorem exec_next (i : Instr) (s : State) : ∃ t, exec i s = .next t := by
  rcases exec_shape i with rfl | ⟨r, rfl⟩ | ⟨rule, h⟩
  · exact ⟨_, rfl⟩
  · exact ⟨_, rfl⟩
  · exact ⟨_, (h s).trans (runCommand_eq i rule s)⟩

/-- `RD` of a register emits its value, in the fault state too (R243). -/
theorem reads_of_registerValue {r : Byte} {v : Word} (h : registerValue s r = some v) : Reads s r v := by
  rw [Reads, exec_rd, runAlways_ok (readRegister_ok h)]
  rfl

/-- Settles O9: by the decoder's answer on the word, `RST` being the word that resets. -/
theorem commandCountAdvances : Obligations.CommandCountAdvances := by
  unfold Obligations.CommandCountAdvances
  refine ⟨fun s cw rest hp => ?_, fun s => reads_of_registerValue rfl⟩
  cases hd : decodeWord cw with
  | ok i =>
    obtain ⟨t, ht⟩ := exec_next i { s with pending := rest }
    have hrst : i = .rst ↔ cw = 0x01000000#32 := by
      rw [← decodeWord_rst_iff, hd, Except.ok.injEq]
    refine ⟨t, (step_of_decoded hp hd).trans ht, ?_⟩
    rw [exec_cmdCnt ht]
    simp only [hrst]
  | error e =>
    have hcw : cw ≠ 0x01000000#32 := fun hcw => by
      rw [decodeWord_rst_iff.mpr hcw] at hd
      cases hd
    refine ⟨_, step_of_rejected hp hd, ?_⟩
    rw [if_neg hcw, countCommand_cmdCnt]
    unfold takeFault
    split <;> rfl

/-! ### `STATUS` and `PACC` (R43, R53, R54) -/

/-- A flag as a word has its own bit and no other. -/
theorem getLsbD_flagBit (b : Bool) {n : Nat} (hn : n < 32) (k : Nat) :
    (flagBit b n).getLsbD k = (b && decide (n = k)) := by
  cases b with
  | false => simp [flagBit]
  | true =>
    have hbit : (flagBit true n).getLsbD k = (BitVec.twoPow 32 n).getLsbD k := rfl
    rw [hbit, BitVec.getLsbD_twoPow, decide_eq_true hn, Bool.true_and]

/-- `STATUS` bit by bit (R53). -/
theorem getLsbD_statusWord (s : State) (k : Nat) : (statusWord s).getLsbD k =
    (inFault s && decide (0 = k) || s.pact && decide (1 = k) || s.uact && decide (2 = k) || s.uhdr && decide (3 = k) ||
      s.umode && decide (4 = k) || s.candOvf && decide (5 = k) || rootValid s && decide (6 = k)) := by
  simp only [statusWord, BitVec.getLsbD_or]
  rw [getLsbD_flagBit _ (by decide), getLsbD_flagBit _ (by decide), getLsbD_flagBit _ (by decide),
    getLsbD_flagBit _ (by decide), getLsbD_flagBit _ (by decide), getLsbD_flagBit _ (by decide),
    getLsbD_flagBit _ (by decide)]

/-- The bits of `STATUS` above the flags are 0 (R53). -/
theorem statusWord_reserved (s : State) : (statusWord s).extractLsb' 7 25 = 0#25 := by
  rw [extract_eq_zero_iff]
  intro k hk _
  have hne : ∀ n, n < 7 → decide (n = k) = false := fun n hn => decide_eq_false (by omega)
  simp only [getLsbD_statusWord, hne 0 (by decide), hne 1 (by decide), hne 2 (by decide), hne 3 (by decide),
    hne 4 (by decide), hne 5 (by decide), hne 6 (by decide), Bool.and_false, Bool.or_false]

/-- `PACC` is `NACC` and the pending bits as one number (R54). -/
theorem paccWord_toNat (h : s.acc.length ≤ 7) : (paccWord s).toNat =
    256 * s.acc.length + bitsVal (s.acc ++ zeroBits (8 - s.acc.length)) ∧
      (s.acc ++ zeroBits (8 - s.acc.length)).length = 8 := by
  have hlen : (s.acc ++ zeroBits (8 - s.acc.length)).length = 8 := by
    rw [List.length_append, zeroBits_length]
    omega
  have hlt := bitsVal_lt (s.acc ++ zeroBits (8 - s.acc.length))
  rw [hlen] at hlt
  refine ⟨?_, hlen⟩
  rw [paccWord, BitVec.toNat_ofNat, Nat.mod_eq_of_lt (by omega)]

/-- The fields of `PACC` (R43, R54). -/
theorem paccWord_fields (h : s.acc.length ≤ 7) : ((paccWord s).extractLsb' 8 3).toNat = s.acc.length ∧
    bits8 ((paccWord s).extractLsb' 0 8) = s.acc ++ zeroBits (8 - s.acc.length) ∧
    (paccWord s).extractLsb' 11 21 = 0#21 := by
  obtain ⟨hval, hlen⟩ := paccWord_toNat h
  have hlt := bitsVal_lt (s.acc ++ zeroBits (8 - s.acc.length))
  rw [hlen] at hlt
  have hbyte : (paccWord s).extractLsb' 0 8 = byteOf (s.acc ++ zeroBits (8 - s.acc.length)) := by
    apply BitVec.eq_of_toNat_eq
    rw [byteOf, BitVec.extractLsb'_toNat, hval, BitVec.toNat_ofNat, Nat.shiftRight_zero]
    omega
  refine ⟨?_, by rw [hbyte, bits8_byteOf hlen], BitVec.eq_of_toNat_eq ?_⟩
  · rw [BitVec.extractLsb'_toNat, hval, Nat.shiftRight_eq_div_pow]
    omega
  · rw [BitVec.extractLsb'_toNat, hval, Nat.shiftRight_eq_div_pow, BitVec.toNat_ofNat]
    omega

/-- Settles O19: the two words bit by bit and field by field. -/
theorem statusAndPaccShowTheBits : Obligations.StatusAndPaccShowTheBits := by
  unfold Obligations.StatusAndPaccShowTheBits
  intro s
  refine ⟨⟨statusWord s, reads_of_registerValue rfl, ?_⟩,
    fun h => ⟨paccWord s, reads_of_registerValue rfl, paccWord_fields h⟩⟩
  rw [← inFault_eq, ← rootValid_eq]
  simp only [getLsbD_statusWord, statusWord_reserved]
  simp

/-! ### The root (R36) -/

/-- Settles O29: the last slot in use has no parent, so it is the queue's one member (`queueMembers_of_complete`). -/
theorem completeTreeHasItsRootLast : Obligations.CompleteTreeHasItsRootLast := by
  unfold Obligations.CompleteTreeHasItsRootLast
  intro s h
  have hreads : Reads s 0x0A#8 (rootWord s) := reads_of_registerValue rfl
  refine ⟨rootValid_eq s, fun hq => ?_, fun hq => ?_, fun hq => ?_⟩
  · obtain ⟨hn, hmembers⟩ := queueMembers_of_complete h (by rw [hq]; rfl)
    have hle := nnode_le h
    have hroot : rootWord s = BitVec.ofNat 32 (s.nnode.toNat - 1) := by
      rw [rootWord, rootValid_eq, decide_eq_true hq, if_pos rfl]
      apply BitVec.eq_of_toNat_eq
      simp only [BitVec.toNat_sub, BitVec.toNat_setWidth, BitVec.toNat_ofNat]
      omega
    refine ⟨hn, fun k hk => ?_, hroot ▸ hreads⟩
    have hmem : k ∈ queueMembers s ↔ k < 511 ∧ inQueue s k = true := mem_queueMembers
    rw [hmembers, List.mem_singleton, and_iff_right hk] at hmem
    exact hmem.symm
  · have hroot : rootWord s = 0xFFFFFFFF#32 := by
      rw [rootWord, rootValid_eq, decide_eq_false hq]
      rfl
    exact hroot ▸ hreads
  · exact BitVec.eq_of_toNat_eq (nnode_eq_zero_of_empty h (by rw [hq]; rfl))

/-! ### The reset (R58, R281) -/

/-- Settles O10: `RST` leaves `State.reset` behind the host's words, whose empty tables read the reset values. -/
theorem resetClearsEverything : Obligations.ResetClearsEverything := by
  unfold Obligations.ResetClearsEverything
  intro s
  refine ⟨resetBlock s, exec_rst s, rfl, rfl, rfl, rfl, rfl, fun _ => rfl, rfl, fun _ => rfl, fun _ => rfl, rfl, rfl, rfl,
    fun _ => rfl, ?_⟩
  exact ⟨rfl, rfl, rfl, rfl, rfl, rfl, rfl, rfl, rfl, rfl, rfl, rfl, rfl, rfl, rfl, rfl⟩

/-- Settles O11: each invariant at reset by its own lemma. -/
theorem invariantsHoldAtReset : Obligations.InvariantsHoldAtReset := by
  unfold Obligations.InvariantsHoldAtReset
  exact ⟨memory_wf_reset, faultRegsOk_reset, frequencyOk_reset, treeOk_reset, queueWeightOk_reset, codeTableOk_reset,
    packerOk_reset, unpackerOk_reset⟩

end Sys2Proof.Machine
end

section
/-! The statements of 30_encoding.md: the decoder and the encoder are inverse to each other, and which words fault
(R101 to R107). -/

namespace Sys2Proof

open Sys2Proof.Machine Sys2Proof.Safety

variable {cw : Word} {i : Instr} {lo : Nat} {mk : BitVec lo → Instr} {mkB : BitVec 5 → BitVec 16 → Instr}

/-! ### The formats (R101) -/

/-- The formats but `B`: bits `23:lo` are reserved, the operand is bits `lo-1:0`, and format `Z` has an empty operand. -/
def readField (lo : Nat) (mk : BitVec lo → Instr) (cw : Word) : Except FaultCode Instr :=
  if cw.extractLsb' lo (24 - lo) = 0#(24 - lo) then .ok (mk (cw.extractLsb' 0 lo)) else .error .illArg

theorem decodeZ_eq_readField (i : Instr) : decodeZ i cw = readField 0 (fun _ => i) cw := rfl

theorem decodeS_eq_readField (mk : Byte → Instr) : decodeS mk cw = readField 8 mk cw := rfl

theorem decodeN_eq_readField (mk : BitVec 9 → Instr) : decodeN mk cw = readField 9 mk cw := rfl

theorem decodeI_eq_readField (mk : BitVec 3 → Instr) : decodeI mk cw = readField 3 mk cw := rfl

theorem decodeM_eq_readField (mk : BitVec 1 → Instr) : decodeM mk cw = readField 1 mk cw := rfl

theorem readField_eq_ok_iff : readField lo mk cw = .ok i ↔
    cw.extractLsb' lo (24 - lo) = 0#(24 - lo) ∧ mk (cw.extractLsb' 0 lo) = i := by
  unfold readField
  split <;> simp [*]

theorem readField_eq_illArg_iff (h : lo ≤ 24) :
    readField lo mk cw = .error .illArg ↔ cw &&& BitVec.ofNat 32 (2 ^ 24 - 2 ^ lo) ≠ 0#32 := by
  rw [ne_eq, and_mask_eq_zero_iff cw lo 24 h le_rfl, readField]
  split <;> simp [*]

theorem readField_ne_illCmd : readField lo mk cw ≠ .error .illCmd := by
  unfold readField
  split <;> simp

theorem decodeB_eq_ok_iff : decodeB mkB cw = .ok i ↔
    cw.extractLsb' 21 3 = 0#3 ∧ seqFieldOk (cw.extractLsb' 16 5) (cw.extractLsb' 0 16) = true ∧
      mkB (cw.extractLsb' 16 5) (cw.extractLsb' 0 16) = i := by
  unfold decodeB
  split <;> simp_all

theorem decodeB_ne_illCmd : decodeB mkB cw ≠ .error .illCmd := by
  unfold decodeB
  split <;> simp

/-- The decoder's operand test fails exactly where one of the two conditions of R103 does. -/
theorem seqFieldOk_eq_false_iff (cw : Word) : seqFieldOk (cw.extractLsb' 16 5) (cw.extractLsb' 0 16) = false ↔
    16 < (cw.extractLsb' 16 5).toNat ∨ ∃ j, (cw.extractLsb' 16 5).toNat ≤ j ∧ j ≤ 15 ∧ cw.getLsbD j = true := by
  rw [seqFieldOk, Bool.and_eq_false_iff, decide_eq_false_iff_not, decide_eq_false_iff_not, bits_lt_iff, not_le]
  simp

theorem decodeB_eq_illArg_iff : decodeB mkB cw = .error .illArg ↔ cw &&& 0x00E00000#32 ≠ 0#32 ∨
    16 < (cw.extractLsb' 16 5).toNat ∨ ∃ j, (cw.extractLsb' 16 5).toNat ≤ j ∧ j ≤ 15 ∧ cw.getLsbD j = true := by
  have hmask : cw &&& 0x00E00000#32 = 0#32 ↔ cw.extractLsb' 21 3 = 0#3 :=
    and_mask_eq_zero_iff cw 21 24 (by decide) le_rfl
  rw [← seqFieldOk_eq_false_iff, ne_eq, hmask, ← Bool.not_eq_true, ← not_and_or, decodeB]
  split <;> simp [*]

/-! ### The operand field (R101, R102) -/

/-- With its reserved bits 0 the operand field is the operand. -/
theorem setWidth_extract (hz : cw.extractLsb' lo (24 - lo) = 0#(24 - lo)) :
    (cw.extractLsb' 0 lo).setWidth 24 = cw.extractLsb' 0 24 := by
  rw [extract_eq_zero_iff] at hz
  apply BitVec.eq_of_getLsbD_eq
  intro k hk
  by_cases hlo : k < lo
  · simp [hk, hlo]
  · simp [hk, hlo, hz k (by omega) (by omega)]

/-- With its reserved bits 0 a format `B` operand field is its two fields. -/
theorem seqOperand_extract (hz : cw.extractLsb' 21 3 = 0#3) :
    ((cw.extractLsb' 16 5).setWidth 24 <<< 16) ||| (cw.extractLsb' 0 16).setWidth 24 = cw.extractLsb' 0 24 := by
  rw [extract_eq_zero_iff] at hz
  apply BitVec.eq_of_getLsbD_eq
  intro j hj
  by_cases hbits : j < 16
  · simp [hj, hbits]
  · by_cases hk : j < 21
    · simp [hj, hbits, show j - 16 < 5 by omega, show 16 + (j - 16) = j by omega]
    · simp [hj, hbits, hz j (by omega) (by omega), show ¬ j - 16 < 5 by omega]

/-- A format but `B` reads back the operand of an assembled word. -/
theorem readField_assemble {op : Byte} {arg : BitVec 24} {v : BitVec lo} (hlo : lo ≤ 24)
    (h : arg.extractLsb' lo (24 - lo) = 0#(24 - lo) ∧ arg.extractLsb' 0 lo = v) :
    readField lo mk (assemble op arg) = .ok (mk v) := by
  obtain ⟨hzero, hv⟩ := h
  rw [readField_eq_ok_iff, extract_assemble _ _ _ _ (by omega), extract_assemble _ _ _ _ (by omega), hv]
  exact ⟨hzero, rfl⟩

/-- Format `Z` reads back that there is no operand. -/
theorem decodeZ_assemble (i : Instr) (op : Byte) : decodeZ i (assemble op 0#24) = .ok i :=
  readField_assemble (mk := fun _ => i) (v := 0#0) (by decide) (by decide)

/-- Format `B` reads back the two fields of an assembled word, where they meet R103. -/
theorem decodeB_assemble {op : Byte} {k : BitVec 5} {bits : BitVec 16}
    (h : (countFits k && noStrayBits k bits) = true) :
    decodeB mkB (assemble op ((k.setWidth 24 <<< 16) ||| bits.setWidth 24)) = .ok (mkB k bits) := by
  obtain ⟨hzero, hk, hbits⟩ := operandB_fields k bits
  rw [decodeB_eq_ok_iff, extract_assemble _ _ _ _ (by decide), extract_assemble _ _ _ _ (by decide),
    extract_assemble _ _ _ _ (by decide), hk, hbits]
  exact ⟨hzero, h, rfl⟩

/-! ### The rows of the opcode table (R104) -/

/-- What the table says of an opcode whose format is not `B`: `lo` operand bits, of which `mk` makes the command. -/
structure FieldRow (op : Byte) (lo : Nat) (mk : BitVec lo → Instr) : Prop where
  width : lo ≤ 24
  wellFormed : ∀ v, (mk v).wellFormed = true
  operand : ∀ v, operandFor (mk v) = v.setWidth 24
  legal : illegalOpcode op = false
  mask : reservedMask op = BitVec.ofNat 32 (2 ^ 24 - 2 ^ lo)
  notSeq : op ∉ [0x32#8, 0x43#8]

/-- What the table says of an opcode of format `B`. -/
structure SeqRow (op : Byte) (mk : BitVec 5 → BitVec 16 → Instr) : Prop where
  wellFormed : ∀ k bits, (mk k bits).wellFormed = seqFieldOk k bits
  operand : ∀ k bits, operandFor (mk k bits) = (k.setWidth 24 <<< 16) ||| bits.setWidth 24
  legal : illegalOpcode op = false
  mask : reservedMask op = 0x00E00000#32
  seq : op ∈ [0x32#8, 0x43#8]

/-- A row of format `Z`. -/
theorem fieldRow_of_noOperand {op : Byte} (hwf : i.wellFormed = true) (harg : operandFor i = 0#24)
    (hlegal : illegalOpcode op = false) (hmask : reservedMask op = 0x00FFFFFF#32) (hseq : op ∉ [0x32#8, 0x43#8]) :
    FieldRow op 0 fun _ => i :=
  ⟨by decide, fun _ => hwf, fun v => by rw [harg, BitVec.of_length_zero (x := v)]; rfl, hlegal, hmask, hseq⟩

/-- The 23 opcodes of R104 are the ones outside the six ranges of R106. -/
theorem illegalOpcode_of_not_mem : ∀ op : Byte,
    op ∉ [0x00#8, 0x01#8, 0x02#8, 0x10#8, 0x11#8, 0x12#8, 0x20#8, 0x21#8, 0x22#8, 0x23#8, 0x30#8, 0x31#8, 0x32#8, 0x33#8,
      0x34#8, 0x40#8, 0x41#8, 0x42#8, 0x43#8, 0x44#8, 0x50#8, 0x51#8, 0x52#8] → illegalOpcode op = true := by
  decide +kernel

/-- Everything the decoder can do: reject the opcode, or read the operand by the format of the opcode's row. -/
theorem decodeWord_cases (cw : Word) :
    (decodeWord cw = .error .illCmd ∧ illegalOpcode (opcodeOf cw) = true) ∨
    (∃ lo mk, decodeWord cw = readField lo mk cw ∧ FieldRow (opcodeOf cw) lo mk) ∨
    ∃ mk, decodeWord cw = decodeB mk cw ∧ SeqRow (opcodeOf cw) mk := by
  generalize hd : decodeWord cw = answer
  simp only [decodeWord, decodeZ_eq_readField, decodeS_eq_readField, decodeN_eq_readField, decodeI_eq_readField,
    decodeM_eq_readField] at hd
  split at hd <;> rename_i hop
  case h_24 =>
    exact .inl ⟨hd.symm, illegalOpcode_of_not_mem _ (by simp_all)⟩
  -- format `B`: `CLDB` and `PBITS`
  case h_13 | h_19 =>
    rw [hop]
    exact .inr (.inr ⟨_, hd.symm, fun _ _ => rfl, fun _ _ => rfl, rfl, rfl, by decide⟩)
  -- formats `S`, `N`, `I` and `M`
  case h_3 | h_5 | h_6 | h_10 | h_14 | h_15 | h_17 | h_18 | h_21 | h_22 =>
    rw [hop]
    exact .inr (.inl ⟨_, _, hd.symm, by decide, fun _ => rfl, fun _ => rfl, rfl, rfl, by decide⟩)
  -- format `Z`
  all_goals
    rw [hop]
    exact .inr (.inl ⟨_, _, hd.symm, fieldRow_of_noOperand rfl rfl rfl rfl (by decide)⟩)

/-! ### The round trip -/

/-- Settles O1: each format reads back the fields the encoder wrote. -/
theorem decodeInvertsEncode : Obligations.DecodeInvertsEncode := by
  unfold Obligations.DecodeInvertsEncode
  intro i hi
  rw [decodeWord, encode, opcodeOf_assemble]
  cases i with
  | cldb k bits => exact decodeB_assemble hi
  | pbits k bits => exact decodeB_assemble hi
  | rd v | facc v | frd v | cset v | crd v | enc v | ubyte v => exact readField_assemble (by decide) (operandS_fields v)
  | nrd idx => exact readField_assemble (by decide) (operandN_fields idx)
  | pbegi imm3 => exact readField_assemble (by decide) (operandI_fields imm3)
  | ubegin m => exact readField_assemble (by decide) (operandM_fields m)
  | _ => exact decodeZ_assemble _ _

/-- An accepted word carries its command's operand, which is well formed (R101 to R103). -/
theorem operand_of_decodeWord (h : decodeWord cw = .ok i) :
    i.wellFormed = true ∧ operandFor i = cw.extractLsb' 0 24 := by
  rcases decodeWord_cases cw with ⟨hd, -⟩ | ⟨lo, mk, hd, hrow⟩ | ⟨mk, hd, hrow⟩
  · rw [hd] at h
    cases h
  · rw [hd, readField_eq_ok_iff] at h
    obtain ⟨hzero, rfl⟩ := h
    exact ⟨hrow.wellFormed _, (hrow.operand _).trans (setWidth_extract hzero)⟩
  · rw [hd, decodeB_eq_ok_iff] at h
    obtain ⟨hzero, hok, rfl⟩ := h
    exact ⟨(hrow.wellFormed _ _).trans hok, (hrow.operand _ _).trans (seqOperand_extract hzero)⟩

/-- Settles O2: an accepted word is its opcode and its operand, and both are the command's. -/
theorem encodeInvertsDecode : Obligations.EncodeInvertsDecode := by
  unfold Obligations.EncodeInvertsDecode
  intro cw i h
  obtain ⟨hwf, harg⟩ := operand_of_decodeWord h
  exact ⟨hwf, by rw [encode, harg, ← opcodeOf_of_decodeWord h, assemble_fields]⟩

/-- Settles O5: each word is the spelling of its command, so the round trip decodes it. -/
theorem writtenOutWordsDecode : Obligations.WrittenOutWordsDecode := by
  unfold Obligations.WrittenOutWordsDecode
  exact ⟨decodeInvertsEncode .nop rfl, decodeInvertsEncode (.rd 0x11#8) rfl, decodeInvertsEncode (.facc 0x61#8) rfl,
    decodeInvertsEncode (.nrd 0x1FE#9) rfl, decodeInvertsEncode (.cldb 2#5 0x0003#16) rfl,
    decodeInvertsEncode (.cset 0xFF#8) rfl, decodeInvertsEncode (.pbits 11#5 0x059D#16) rfl,
    decodeInvertsEncode (.pbegi 5#3) rfl, decodeInvertsEncode (.ubegin 1#1) rfl, decodeInvertsEncode (.ubyte 0xA5#8) rfl⟩

/-! ### The words that fault (R106, R107) -/

/-- A word is `E_ILLCMD` exactly where its opcode names no command (R106). -/
theorem decodeWord_eq_illCmd_iff (cw : Word) :
    decodeWord cw = .error .illCmd ↔ illegalOpcode (opcodeOf cw) = true := by
  rcases decodeWord_cases cw with ⟨hd, hill⟩ | ⟨lo, mk, hd, hrow⟩ | ⟨mk, hd, hrow⟩
  · exact iff_of_true hd hill
  · rw [hd, hrow.legal]
    exact iff_of_false readField_ne_illCmd Bool.false_ne_true
  · rw [hd, hrow.legal]
    exact iff_of_false decodeB_ne_illCmd Bool.false_ne_true

/-- A word is `E_ILLARG` exactly where its opcode is legal and its operand breaks the format (R103, R107). -/
theorem decodeWord_eq_illArg_iff (cw : Word) : decodeWord cw = .error .illArg ↔ illegalOpcode (opcodeOf cw) = false ∧
    (cw &&& reservedMask (opcodeOf cw) ≠ 0#32 ∨ breaksSequence cw) := by
  rcases decodeWord_cases cw with ⟨hd, hill⟩ | ⟨lo, mk, hd, hrow⟩ | ⟨mk, hd, hrow⟩
  · rw [hd, hill]
    simp
  · have hseq : ¬ breaksSequence cw := fun ⟨hmem, _⟩ => hrow.notSeq hmem
    rw [hd, readField_eq_illArg_iff hrow.width, hrow.mask, and_iff_right hrow.legal, or_iff_left hseq]
  · rw [hd, decodeB_eq_illArg_iff, hrow.mask, and_iff_right hrow.legal, breaksSequence, and_iff_right hrow.seq]

/-- Outside the fault state a step on a word the decoder rejects takes that fault, and nothing else (R105, R256). -/
theorem step_takes_fault {s : State} {rest : List Word} {e : FaultCode} (hd : decodeWord cw = .error e)
    (hs : s.err = 0#8) (hp : s.pending = cw :: rest) :
    step s = .next (afterFault (faultNumber e) cw { s with pending := rest }) :=
  (step_of_rejected hp hd).trans (rejectWord_of_err_zero (s := { s with pending := rest }) hs e cw)

/-- `NRD` of a slot not in use (R148). -/
theorem readNode_error {s : State} {idx : BitVec 9} (h : s.nnode.toNat ≤ idx.toNat) : readNode idx s = .error .illArg :=
  if_pos h

/-- Settles O3: the decoder's answer by the opcode's row, and the count of the six ranges. -/
theorem illegalOpcodesFault : Obligations.IllegalOpcodesFault := by
  unfold Obligations.IllegalOpcodesFault
  exact ⟨decodeWord_eq_illCmd_iff, by decide +kernel,
    fun cw s rest hill hs hp => step_takes_fault ((decodeWord_eq_illCmd_iff cw).mpr hill) hs hp⟩

/-- Settles O4: the decoder's answer by the opcode's row, and the two rules that look at the operand's value. -/
theorem reservedBitsFault : Obligations.ReservedBitsFault := by
  unfold Obligations.ReservedBitsFault
  refine ⟨decodeWord_eq_illArg_iff, fun cw s rest hlegal hbad hs hp =>
    step_takes_fault ((decodeWord_eq_illArg_iff cw).mpr ⟨hlegal, hbad⟩) hs hp, fun r s hr hs => ?_, fun idx s hidx hs => ?_⟩
  · exact runAlways_error hs (readRegister_error hr)
  · exact runCommand_error hs (readNode_error hidx)

end Sys2Proof
end

section
/-! The statements of 40_frequency.md: the three commands of the frequency accumulator, and the table they leave of a text
(R130 to R133). -/

namespace Sys2Proof.Machine

open Sys2Proof.Safety

variable {s t : State} {text : List Byte}

/-! ### The words of a command (R101, R107) -/

/-- The reserved bits of a legal opcode's row are rejected (R107). -/
theorem rejectsReserved_reservedMask {op : Byte} (h : illegalOpcode op = false) :
    RejectsReserved op (reservedMask op) := by
  rintro cw rfl hbits
  exact (decodeWord_eq_illArg_iff cw).mpr ⟨h, .inl hbits⟩

/-- An operand of `w` bits stands in the low bits of the word, under the opcode. -/
theorem assemble_setWidth {w : Nat} (hw : w ≤ 24) (op : Byte) (v : BitVec w) :
    assemble op (v.setWidth 24) = (op.setWidth 32 <<< 24) ||| v.setWidth 32 := by
  rw [assemble, BitVec.setWidth_setWidth (by omega)]

/-! ### What a counter holds after each command -/

/-- The counters after `FACC` (R132). -/
theorem countOf_facc (s : State) (x y : Byte) :
    countOf (countCommand { setCount s x (countOf s x + 1#32) with total := s.total + 1#32 }) y =
      if y = x then countOf s x + 1#32 else countOf s y :=
  countOf_setCount s x y _

/-- Below `CNT_MAX` neither addition of `FACC` wraps, where no counter exceeds `TOTAL` (R132). -/
theorem facc_exact {x : Byte} (hmax : s.total ≠ 0xFFFFFFFF#32) (hle : (countOf s x).toNat ≤ s.total.toNat) :
    (countOf s x + 1#32).toNat = (countOf s x).toNat + 1 ∧ (s.total + 1#32).toNat = s.total.toNat + 1 := by
  have hlt : s.total.toNat < 4294967295 := by bv_omega
  constructor <;> bv_omega

/-! ### Counting a text (R130) -/

/-- `t` is `s` with the frequency table of `text`, and a later command count. -/
structure CountsText (s : State) (text : List Byte) (t : State) : Prop where
  count : ∀ x, (countOf t x).toNat = text.count x
  total : t.total.toNat = text.length
  frame : t = { s with ft := t.ft, total := t.total, cmdCnt := t.cmdCnt }

/-- `FCLR` leaves the table of the empty text (R131). -/
theorem countsText_fclr (s : State) : CountsText s [] (countCommand { s with ft := [], total := 0#32 }) :=
  ⟨fun _ => rfl, rfl, rfl⟩

/-- No symbol is counted more often than the text is long. -/
theorem CountsText.count_le_total (h : CountsText s text t) (x : Byte) : (countOf t x).toNat ≤ t.total.toNat := by
  rw [h.count, h.total]
  exact List.count_le_length

/-- `FACC` leaves the table of a text that is one byte longer (R132). -/
theorem CountsText.facc (h : CountsText s text t) (hmax : t.total ≠ 0xFFFFFFFF#32) (x : Byte) :
    CountsText s (text ++ [x]) (countCommand { setCount t x (countOf t x + 1#32) with total := t.total + 1#32 }) where
  count y := by
    rw [countOf_facc, List.count_append, List.count_singleton]
    by_cases hy : y = x
    · rw [hy, if_pos rfl, (facc_exact hmax (h.count_le_total x)).1, h.count, beq_self_eq_true, if_pos rfl]
    · rw [if_neg hy, h.count, if_neg (by simpa using Ne.symm hy), Nat.add_zero]
  total := by
    rw [List.length_append, List.length_singleton, ← h.total]
    exact (facc_exact hmax (h.count_le_total x)).2
  frame := by
    conv_lhs => rw [h.frame]
    rfl

/-- Counting a text, byte by byte at its end. -/
theorem execAll_countText (he : s.err = 0#8) (text : List Byte) (hlen : text.length ≤ 4294967295) :
    ∃ t, execAll (.fclr :: text.map .facc) s = .next t ∧ CountsText s text t := by
  induction text using List.reverseRecOn with
  | nil => exact ⟨_, execAll_cons (exec_of_effect he .fclr) [], countsText_fclr s⟩
  | append_singleton text x ih =>
    rw [List.length_append, List.length_singleton] at hlen
    obtain ⟨t, hrun, ht⟩ := ih (by omega)
    have hmax : t.total ≠ 0xFFFFFFFF#32 := by
      have htotal := ht.total
      bv_omega
    have hclear : t.err = 0#8 := by rw [ht.frame, he]
    refine ⟨_, ?_, ht.facc hmax x⟩
    rw [List.map_append, ← List.cons_append, execAll_append hrun]
    exact execAll_cons (exec_of_effect hclear (.facc hmax)) []

/-! ### The statements -/

/-- Settles O21: below `CNT_MAX` by the counters after `FACC`, at it by the fault of its rule. -/
theorem faccCountsOne : Obligations.FaccCountsOne := by
  unfold Obligations.FaccCountsOne
  refine ⟨assemble_setWidth (by decide) 0x11#8, rejectsReserved_reservedMask (op := 0x11#8) rfl,
    fun s x he => ⟨fun hmax => ⟨_, exec_of_effect he (.facc hmax), ?_, fun y hy => ?_, fun hfreq => ?_, rfl⟩,
      fun hmax => ?_⟩⟩
  · rw [countOf_facc, if_pos rfl]
  · rw [countOf_facc, if_neg hy]
  · rw [countOf_facc, if_pos rfl]
    exact facc_exact hmax (hfreq.total ▸ countOf_le_countSum s x)
  · rw [exec_facc]
    exact runCommand_error (e := .fovf) he (if_pos hmax)

/-- Settles O23: `FCLR` leaves the table of the empty text, and each `FACC` that of one more byte. -/
theorem countingCountsTheText : Obligations.CountingCountsTheText := by
  unfold Obligations.CountingCountsTheText
  intro s text he hlen
  obtain ⟨t, hrun, ht⟩ := execAll_countText he text hlen
  exact ⟨t, hrun, ht.count, ht.total, ht.frame⟩

/-- Settles O20: the effect of `FCLR`, after which no counter is listed. -/
theorem fclrClears : Obligations.FclrClears := by
  unfold Obligations.FclrClears
  exact ⟨rfl, rejectsReserved_reservedMask (op := 0x10#8) rfl,
    fun s he => ⟨_, exec_of_effect he .fclr, fun _ => rfl, rfl⟩⟩

/-- Settles O22: the effect of `FRD`, and the drop in the fault state. -/
theorem frdReturnsTheCount : Obligations.FrdReturnsTheCount := by
  unfold Obligations.FrdReturnsTheCount
  exact ⟨assemble_setWidth (by decide) 0x12#8, rejectsReserved_reservedMask (op := 0x12#8) rfl,
    fun s x => ⟨fun he => exec_of_effect he .frd, fun he => (exec_frd x s).trans (runCommand_dropped he)⟩⟩

end Sys2Proof.Machine
end

section
/-! The statements of 41_tree_builder.md: what `TLOAD`, `TMERGE`, `BUILD` and `NRD` do, command by command
(R141 to R144, R146, R148). -/

namespace Sys2Proof.Machine

open Sys2Proof.Safety

variable {s t u : State}

/-! ### `TLOAD` (R141) -/

/-- The ascending list of the symbols that have a count is the one `TLOAD` goes through. -/
theorem eq_presentSymbols {present : List Byte} (hrise : present.Pairwise fun x y => x.toNat < y.toNat)
    (hmem : ∀ x, x ∈ present ↔ 1 ≤ (countOf s x).toNat) : present = presentSymbols s := by
  refine List.Pairwise.eq_of_mem_iff (r := (· < ·)) hrise (allSymbols_pairwise.filter _) fun x => ?_
  have hcount : 1 ≤ (countOf s x).toNat ↔ countOf s x ≠ 0#32 := by bv_omega
  rw [hmem, hcount, presentSymbols, List.mem_filter, and_iff_right (mem_allSymbols x), decide_eq_true_iff]

/-- Settles O24: the present symbols are those of `loadTree_spec`, slot for slot. -/
theorem tloadLoadsTheLeaves : Obligations.TloadLoadsTheLeaves := by
  unfold Obligations.TloadLoadsTheLeaves
  refine ⟨rfl, rejectsReserved_reservedMask (op := 0x20#8) rfl, fun s present he hrise hmem => ?_⟩
  obtain rfl := eq_presentSymbols hrise hmem
  have hload := loadTree_spec s
  have hrun := exec_of_effect he .tload
  generalize loadTree s = t at hload hrun
  obtain ⟨hframe, hnnode, hnleaf, hqcnt, hnode, hqueued⟩ := hload
  refine ⟨_, hrun, hnnode, hnleaf, hqcnt, fun j x hj => ⟨?_, ?_⟩, fun j hj => ⟨?_, ?_⟩, ?_⟩
  · exact (hnode j).trans (by rw [hj]; rfl)
  · obtain ⟨hlt, -⟩ := List.getElem?_eq_some_iff.mp hj
    exact (hqueued j).trans (decide_eq_true hlt)
  · exact (hnode j).trans (by rw [List.getElem?_eq_none hj]; rfl)
  · exact (hqueued j).trans (decide_eq_false (by omega))
  · conv_lhs => rw [hframe]
    rfl

/-! ### `TMERGE` (R142, R143) -/

/-- Settles O25: a merge in a forest is `Merged` of the two least members, and none below two members. -/
theorem tmergeJoinsTheLeastTwo : Obligations.TmergeJoinsTheLeastTwo := by
  unfold Obligations.TmergeJoinsTheLeastTwo
  refine ⟨rfl, rejectsReserved_reservedMask (op := 0x21#8) rfl, fun s he => ⟨fun hq htree => ?_, fun hq => ?_⟩⟩
  · obtain ⟨a, b, hl, hm⟩ := merged_mergeOnce htree hq
    have hle : (nodeAt s a).weight.toNat ≤ (nodeAt s b).weight.toNat := by
      rcases hl.first with hlt | ⟨heq, -⟩ <;> omega
    refine ⟨a, b, _, hl, exec_of_effect he .tmerge, hle, nnode_lt_of_two_le htree hq,
      fun hw => (Merged.weights htree hq hl hm hw.bound).1, hm.node, hm.queued, ?_⟩
    conv_lhs => rw [hm.frame]
    rfl
  · have hrun := exec_of_effect he .tmerge
    rwa [mergeOnce_of_lt hq] at hrun

/-! ### The merge beside the command count (R26)

`BUILD` counts once what `TLOAD` and its merges count one by one (R144); the tree they leave is the same, because a merge
does not touch the count. -/

section CommandCount

variable (s) (c : Word)

theorem setNode_withCount (i : Nat) (n : Node) :
    setNode { s with cmdCnt := c } i n = { setNode s i n with cmdCnt := c } := by
  unfold setNode
  split <;> rfl

theorem setInQueue_withCount (i : Nat) (b : Bool) :
    setInQueue { s with cmdCnt := c } i b = { setInQueue s i b with cmdCnt := c } := by
  unfold setInQueue
  split <;> rfl

theorem leastMember_withCount : leastMember { s with cmdCnt := c } = leastMember s := rfl

theorem insertJoined_withCount (a b : Nat) :
    insertJoined { s with cmdCnt := c } a b = { insertJoined s a b with cmdCnt := c } := by
  unfold insertJoined
  rw [setNode_withCount, setInQueue_withCount]
  rfl

theorem mergeTwo_withCount :
    mergeTwo { s with cmdCnt := c } = (mergeTwo s).map fun t => { t with cmdCnt := c } := by
  unfold mergeTwo extractMin
  rw [leastMember_withCount]
  cases leastMember s with
  | none => rfl
  | some a =>
    simp only [Option.map_some, Option.bind_some, setInQueue_withCount, leastMember_withCount]
    cases leastMember (setInQueue s a false) with
    | none => rfl
    | some b => simp only [Option.map_some, insertJoined_withCount]

/-- A merge neither reads nor writes the command count. -/
theorem mergeOnce_withCount : mergeOnce { s with cmdCnt := c } = { mergeOnce s with cmdCnt := c } := by
  unfold mergeOnce
  rw [mergeTwo_withCount]
  split
  · cases mergeTwo s <;> rfl
  · rfl

theorem mergeWhile_withCount (fuel : Nat) :
    mergeWhile fuel { s with cmdCnt := c } = { mergeWhile fuel s with cmdCnt := c } := by
  induction fuel generalizing s with
  | zero => rfl
  | succ fuel ih =>
    rw [mergeWhile, mergeWhile, mergeOnce_withCount, ih]
    split <;> rfl

end CommandCount

/-! ### `BUILD` as `TLOAD` and then merges (R144) -/

/-- R35 does not speak of the command count. -/
theorem treeOk_countCommand (h : TreeOk s) : TreeOk (countCommand s) := treeOk_congr (s := s) rfl rfl rfl rfl rfl h

/-- `BUILD`'s loop leaves what one `TMERGE` fewer than queue members leave, but for the command count (R144). -/
theorem execAll_merges {fuel : Nat} (he : s.err = 0#8) (h : TreeOk s) (hf : s.qcnt.toNat ≤ fuel + 1) :
    ∃ c, execAll (List.replicate (s.qcnt.toNat - 1) .tmerge) s = .next { mergeWhile fuel s with cmdCnt := c } := by
  induction fuel generalizing s with
  | zero =>
    rw [show s.qcnt.toNat - 1 = 0 by omega]
    exact ⟨s.cmdCnt, rfl⟩
  | succ fuel ih =>
    rw [mergeWhile]
    split
    · next hq =>
      obtain ⟨a, b, hl, hm⟩ := merged_mergeOnce h hq
      have hqcnt := Merged.qcnt hq hm
      have herr : (mergeOnce s).err = 0#8 := by rw [hm.frame, he]
      obtain ⟨c, hrun⟩ := ih (s := countCommand (mergeOnce s)) herr
        (treeOk_countCommand (treeOk_mergeOnce h hq)) (by rw [countCommand_qcnt]; omega)
      refine ⟨c, ?_⟩
      rw [show s.qcnt.toNat - 1 = ((countCommand (mergeOnce s)).qcnt.toNat - 1) + 1 by rw [countCommand_qcnt]; omega,
        List.replicate_succ, execAll_cons (exec_of_effect he .tmerge), hrun, countCommand, mergeWhile_withCount]
    · next hq =>
      rw [show s.qcnt.toNat - 1 = 0 by omega]
      exact ⟨s.cmdCnt, rfl⟩

/-- A loaded tree is merged down by one `TMERGE` fewer than leaves to the tree that `BUILD` leaves (R144). -/
theorem execAll_merges_loadTree (he : s.err = 0#8) :
    ∃ c, execAll (List.replicate ((loadTree s).nleaf.toNat - 1) .tmerge) (countCommand (loadTree s)) =
      .next { buildTree s with cmdCnt := c } := by
  obtain ⟨hframe, -, hnleaf, hqcnt, -, -⟩ := loadTree_spec s
  have hlen := presentSymbols_length_le s
  obtain ⟨c, hrun⟩ := execAll_merges (s := countCommand (loadTree s)) (fuel := Config.nsym)
    (by rw [countCommand_err, hframe, he]) (treeOk_countCommand (treeOk_loadTree s))
    (by rw [countCommand_qcnt, hqcnt]; exact hlen.trans (Nat.le_succ _))
  rw [countCommand_qcnt, hqcnt, ← hnleaf] at hrun
  refine ⟨c, hrun.trans ?_⟩
  rw [countCommand, mergeWhile_withCount, buildTree]

theorem buildTree_nleaf (s : State) : (buildTree s).nleaf = (loadTree s).nleaf := by
  rw [buildTree, mergeWhile_frame]

/-- `BUILD` leaves one queue member where it has a leaf, and `max(2*NLEAF - 1, 0)` nodes (R144). -/
theorem buildTree_counters (s : State) : (buildTree s).qcnt.toNat = min (buildTree s).nleaf.toNat 1 ∧
    (buildTree s).nnode.toNat = 2 * (buildTree s).nleaf.toNat - 1 := by
  have htree := treeOk_buildTree s
  have hqcnt := buildTree_qcnt s
  rw [← (loadTree_spec s).nleaf, ← buildTree_nleaf] at hqcnt
  refine ⟨hqcnt, ?_⟩
  obtain ⟨hle, hmax, -⟩ := htree.sizes
  by_cases h0 : (buildTree s).nleaf.toNat = 0
  · omega
  · obtain ⟨hmerges, -⟩ := htree.merges (by omega)
    omega

/-- Settles O26: the merges of `execAll_merges_loadTree`, and the counters of the forest they leave. -/
theorem buildIsLoadThenMerges : Obligations.BuildIsLoadThenMerges := by
  unfold Obligations.BuildIsLoadThenMerges
  refine ⟨rfl, rejectsReserved_reservedMask (op := 0x22#8) rfl, fun s he => ?_⟩
  have hload := exec_of_effect he .tload
  have hbuild := exec_of_effect he .build
  obtain ⟨c, hmerges⟩ := execAll_merges_loadTree he
  have hnleaf := buildTree_nleaf s
  obtain ⟨hqcnt, hnnode⟩ := buildTree_counters s
  have hlast := inQueue_last (treeOk_buildTree s)
  have hcount : (buildTree s).cmdCnt = s.cmdCnt := by rw [buildTree_frame]
  generalize loadTree s = u at hload hmerges hnleaf
  generalize buildTree s = t at *
  refine ⟨_, _, _, hload, hmerges, hbuild, by rw [countCommand, hcount], hnleaf, hqcnt, hnnode, fun hleaf => hlast ?_⟩
  rw [countCommand_nleaf] at hleaf
  omega

/-! ### `BUILD` and the counters (R146) -/

/-- The trees of two states read alike. -/
structure SameTree (s t : State) : Prop where
  node : ∀ i, nodeAt s i = nodeAt t i
  queued : ∀ i, inQueue s i = inQueue t i
  nnode : s.nnode = t.nnode
  nleaf : s.nleaf = t.nleaf
  qcnt : s.qcnt = t.qcnt

theorem SameTree.countCommand (h : SameTree s t) : SameTree (countCommand s) (countCommand t) :=
  ⟨h.node, h.queued, h.nnode, h.nleaf, h.qcnt⟩

theorem SameTree.leastTwo (h : SameTree s t) {a b : Nat} (hl : LeastTwo s a b) : LeastTwo t a b where
  slots := hl.slots
  members := by
    rw [← h.queued, ← h.queued]
    exact hl.members
  first := (keyBefore_congr h.node a b).mp hl.first
  rest i hi hq hia hib := (keyBefore_congr h.node b i).mp (hl.rest i hi ((h.queued i).trans hq) hia hib)

/-- The two least members are determined. -/
theorem leastTwo_unique {a b a' b' : Nat} (h : LeastTwo s a b) (h' : LeastTwo s a' b') : a = a' ∧ b = b' := by
  obtain ⟨ha, hb⟩ := leastTwo_extract h
  obtain ⟨ha', hb'⟩ := leastTwo_extract h'
  obtain rfl : a = a' := Option.some.inj (ha.symm.trans ha')
  exact ⟨rfl, Option.some.inj (hb.symm.trans hb')⟩

/-- A merge keeps trees that read alike so (R143). -/
theorem SameTree.mergeOnce (h : SameTree s t) (hs : TreeOk s) (ht : TreeOk t) (hq : 2 ≤ s.qcnt.toNat) :
    SameTree (mergeOnce s) (mergeOnce t) := by
  obtain ⟨a, b, hl, hm⟩ := merged_mergeOnce hs hq
  obtain ⟨a', b', hl', hm'⟩ := merged_mergeOnce ht (h.qcnt ▸ hq)
  obtain ⟨rfl, rfl⟩ := leastTwo_unique (h.leastTwo hl) hl'
  refine ⟨fun i => ?_, fun i => ?_, ?_, ?_, ?_⟩
  · simp only [hm.node, hm'.node, joinNode, h.node, h.nnode]
  · simp only [hm.queued, hm'.queued, h.queued, h.nnode]
  · rw [hm.frame, hm'.frame, h.nnode]
  · rw [hm.nleaf, hm'.nleaf, h.nleaf]
  · rw [hm.frame, hm'.frame, h.qcnt]

/-- `BUILD`'s loop keeps trees that read alike so (R144). -/
theorem SameTree.mergeWhile (fuel : Nat) (h : SameTree s t) (hs : TreeOk s) (ht : TreeOk t) :
    SameTree (mergeWhile fuel s) (mergeWhile fuel t) := by
  induction fuel generalizing s t with
  | zero => exact h
  | succ fuel ih =>
    rw [Machine.mergeWhile, Machine.mergeWhile, ← h.qcnt]
    split
    · next hq => exact ih (h.mergeOnce hs ht hq) (treeOk_mergeOnce hs hq) (treeOk_mergeOnce ht (h.qcnt ▸ hq))
    · exact h

/-- Equal counts load trees that read alike (R141). -/
theorem sameTree_loadTree (h : ∀ x, countOf s x = countOf t x) : SameTree (loadTree s) (loadTree t) := by
  have hpresent : presentSymbols s = presentSymbols t := by simp only [presentSymbols, h]
  have hleaf : leafFor s = leafFor t := by
    funext x
    rw [leafFor, leafFor, h]
  have hs := loadTree_spec s
  rw [hpresent] at hs
  have ht := loadTree_spec t
  exact ⟨fun i => by rw [hs.node, ht.node, hleaf], fun i => by rw [hs.queued, ht.queued],
    BitVec.eq_of_toNat_eq (hs.nnode.trans ht.nnode.symm), BitVec.eq_of_toNat_eq (hs.nleaf.trans ht.nleaf.symm),
    BitVec.eq_of_toNat_eq (hs.qcnt.trans ht.qcnt.symm)⟩

/-- Settles O27: the load reads the counters alone, and each merge the tree alone. -/
theorem buildDependsOnCountsAlone : Obligations.BuildDependsOnCountsAlone := by
  unfold Obligations.BuildDependsOnCountsAlone
  intro s u hs hu hcounts
  obtain ⟨hnode, hqueued, hnnode, hnleaf, hqcnt⟩ :=
    ((sameTree_loadTree hcounts).mergeWhile Config.nsym (treeOk_loadTree s) (treeOk_loadTree u)).countCommand
  exact ⟨_, _, exec_of_effect hs .build, exec_of_effect hu .build, fun i => ⟨hnode i, hqueued i⟩, hnnode, hnleaf, hqcnt⟩

/-! ### `NRD` (R148) -/

/-- The second word of `NRD`, bit by bit (R148). -/
theorem getLsbD_nodeWord (s : State) (i : Nat) {k : Nat} (hk : k < 32) : (nodeWord s i).getLsbD k =
    ((nodeAt s i).leaf && decide (31 = k) || inQueue s i && decide (30 = k) ||
      !decide (k < 18) && (nodeAt s i).left.getLsbD (k - 18) || !decide (k < 9) && (nodeAt s i).right.getLsbD (k - 9) ||
      (nodeAt s i).sym.getLsbD k) := by
  have hfields : nodeWord s i = flagBit (nodeAt s i).leaf 31 ||| flagBit (inQueue s i) 30 |||
      ((nodeAt s i).left.setWidth 32 <<< 18) ||| ((nodeAt s i).right.setWidth 32 <<< 9) |||
      (nodeAt s i).sym.setWidth 32 := rfl
  rw [hfields]
  simp only [BitVec.getLsbD_or, BitVec.getLsbD_shiftLeft, BitVec.getLsbD_setWidth, hk, Nat.sub_lt_of_lt hk, decide_true,
    Bool.true_and, getLsbD_flagBit _ (show 31 < 32 by decide), getLsbD_flagBit _ (show 30 < 32 by decide)]

/-- A field of a word is known by its bits. -/
theorem extractLsb'_eq_of_bits {cw : Word} {lo len : Nat} {v : BitVec len}
    (h : ∀ j, j < len → cw.getLsbD (lo + j) = v.getLsbD j) : cw.extractLsb' lo len = v := by
  refine BitVec.eq_of_getLsbD_eq fun j hj => ?_
  rw [BitVec.getLsbD_extractLsb', decide_eq_true hj, Bool.true_and, h j hj]

/-- The fields of the second word of `NRD` do not overlap, and the bits between them are 0 (R148). -/
theorem nodeWord_fields (s : State) (i : Nat) : (nodeWord s i).getLsbD 31 = (nodeAt s i).leaf ∧
    (nodeWord s i).getLsbD 30 = inQueue s i ∧ (nodeWord s i).extractLsb' 27 3 = 0#3 ∧
    (nodeWord s i).extractLsb' 18 9 = (nodeAt s i).left ∧ (nodeWord s i).extractLsb' 9 9 = (nodeAt s i).right ∧
    (nodeWord s i).getLsbD 8 = false ∧ (nodeWord s i).extractLsb' 0 8 = (nodeAt s i).sym := by
  -- at each position every field but one is out of its range
  refine ⟨?_, ?_, extractLsb'_eq_of_bits fun j hj => ?_, extractLsb'_eq_of_bits fun j hj => ?_,
      extractLsb'_eq_of_bits fun j hj => ?_, ?_, extractLsb'_eq_of_bits fun j hj => ?_⟩ <;>
    rw [getLsbD_nodeWord s i (by omega)] <;>
    simp (disch := omega) [decide_eq_true, decide_eq_false, BitVec.getLsbD_of_ge]

/-- Settles O30: the effect of `NRD` with the fields of its second word, the fault of its rule, and the drop. -/
theorem nrdReturnsTheNode : Obligations.NrdReturnsTheNode := by
  unfold Obligations.NrdReturnsTheNode
  refine ⟨assemble_setWidth (by decide) 0x23#8, rejectsReserved_reservedMask (op := 0x23#8) rfl,
    fun s i he => ⟨fun hi => ⟨_, exec_of_effect he (.nrd hi), nodeWord_fields s i.toNat⟩, fun hi => ?_⟩,
    fun s i he => (exec_nrd i s).trans (runCommand_dropped he)⟩
  exact (exec_nrd i s).trans (runCommand_error (e := .illArg) he (readNode_error hi))

end Sys2Proof.Machine
end

section
/-! The statements of 42_code_table.md, and R225: what `WALK`, `CCLR`, `CLDB`, `CSET` and `CRD` do, command by command
(R161 to R169), and how a table moves out of the block and back in. -/

namespace Sys2Proof.Machine

open Sys2Proof.Safety

variable {s t u : State}

/-! ### The rule of `WALK` (R161, R163) -/

theorem walkTree_incomplete (hq : 2 ≤ s.qcnt.toNat) : walkTree s = .error .noTree := if_pos hq

theorem walkTree_empty (hq : s.qcnt = 0#9) : walkTree s = .ok (clearCodes s) := by
  simp [walkTree, hq]

theorem walkTree_lone (hq : s.qcnt = 1#9) (hroot : (nodeAt s (rootSlot s)).leaf = true) :
    walkTree s = .ok { setCode (clearCodes s) (nodeAt s (rootSlot s)).sym [false] with ncode := 1#9 } := by
  simp [walkTree, hq, hroot]

theorem walkTree_internal (hq : s.qcnt = 1#9) (hroot : (nodeAt s (rootSlot s)).leaf = false) :
    walkTree s =
      .ok { storeCodes (clearCodes s) (codesFrom s Config.nodeMax (rootSlot s) []) with ncode := s.nleaf } := by
  simp [walkTree, hq, hroot]

/-- `WALK` faults on an incomplete tree alone. -/
theorem exists_walkTree (hq : s.qcnt.toNat < 2) : ∃ t, walkTree s = .ok t := by
  by_cases h0 : s.qcnt = 0#9
  · exact ⟨_, walkTree_empty h0⟩
  · have h1 : s.qcnt = 1#9 := by bv_omega
    cases hroot : (nodeAt s (rootSlot s)).leaf with
    | true => exact ⟨_, walkTree_lone h1 hroot⟩
    | false => exact ⟨_, walkTree_internal h1 hroot⟩

/-! ### The codes of a walked tree (R162, R164) -/

/-- A path over two stretches passes the end of the first. -/
theorem pathTo_split {n m : Nat} {p q : Bits} (h : PathTo s n (p ++ q) m) : ∃ k, PathTo s n p k ∧ PathTo s k q m := by
  induction p generalizing n with
  | nil => exact ⟨n, .here n, h⟩
  | cons b p ih =>
    cases h with
    | left hl h =>
      obtain ⟨k, hk, hm⟩ := ih h
      exact ⟨k, .left hl hk, hm⟩
    | right hl h =>
      obtain ⟨k, hk, hm⟩ := ih h
      exact ⟨k, .right hl hk, hm⟩

/-- The last edge of a path leads down from an internal node. -/
theorem pathTo_concat {n m : Nat} {p : Bits} {b : Bool} (h : PathTo s n (p ++ [b]) m) : ∃ j, PathTo s n p j ∧
    (nodeAt s j).leaf = false ∧ (if b then (nodeAt s j).right else (nodeAt s j).left).toNat = m := by
  obtain ⟨j, hj, hedge⟩ := pathTo_split h
  cases hedge with
  | left hl hm => cases hm; exact ⟨j, hj, hl, rfl⟩
  | right hl hm => cases hm; exact ⟨j, hj, hl, rfl⟩

/-- The last edge of a path in a forest leaves the parent of the slot it leads to (R35 (e)). -/
theorem exists_parent_of_pathTo (h : TreeOk s) {n m : Nat} (hn : n < s.nnode.toNat) {p : Bits} {b : Bool}
    (hp : PathTo s n (p ++ [b]) m) : ∃ j, PathTo s n p j ∧ j ∈ parentsOf s m ∧ j ≤ n ∧
      (if b then (nodeAt s j).right else (nodeAt s j).left).toNat = m := by
  obtain ⟨j, hj, hl, hm⟩ := pathTo_concat hp
  have hjn := (pathTo_bounds h hj hn).1
  refine ⟨j, hj, mem_parentsOf.mpr ⟨?_, hjn.trans_lt hn, hl, ?_⟩, hjn, hm⟩
  · have := nnode_le h
    omega
  · cases b
    · exact .inl hm
    · exact .inr hm

/-- A slot in use has one parent at most (R35 (f)). -/
theorem parent_unique (h : TreeOk s) {m j k : Nat} (hm : m < s.nnode.toNat) (hj : j ∈ parentsOf s m)
    (hk : k ∈ parentsOf s m) : j = k := by
  have hown := h.owned m hm
  have hpos := List.length_pos_of_mem hj
  obtain ⟨i, hi⟩ := List.length_eq_one_iff.mp (show (parentsOf s m).length = 1 by omega)
  rw [hi, List.mem_singleton] at hj hk
  exact hj.trans hk.symm

/-- A parent's children are two slots (R35 (e)). -/
theorem branch_unique (h : TreeOk s) {m j : Nat} {a b : Bool} (hj : j ∈ parentsOf s m)
    (ha : (if a then (nodeAt s j).right else (nodeAt s j).left).toNat = m)
    (hb : (if b then (nodeAt s j).right else (nodeAt s j).left).toNat = m) : a = b := by
  obtain ⟨-, hn, hl, -⟩ := mem_parentsOf.mp hj
  obtain ⟨-, -, -, -, hne, -⟩ := h.internals j hn (nleaf_le_of_internal h hl)
  have hsame := BitVec.eq_of_toNat_eq (ha.trans hb.symm)
  cases a <;> cases b
  · rfl
  · exact absurd hsame hne
  · exact absurd hsame.symm hne
  · rfl

/-- In a forest one path at most leads from a slot to another: climb both from parent to parent (R35 (f)). -/
theorem pathTo_inj (h : TreeOk s) {n m : Nat} (hn : n < s.nnode.toNat) {p q : Bits} (hp : PathTo s n p m)
    (hq : PathTo s n q m) : p = q := by
  induction p using List.reverseRecOn generalizing q m with
  | nil =>
    cases hp
    rcases List.eq_nil_or_concat' q with rfl | ⟨q, b, rfl⟩
    · rfl
    · obtain ⟨j, -, hj, hle, -⟩ := exists_parent_of_pathTo h hn hq
      exact absurd (lt_of_mem_parentsOf h hj).1 (by omega)
  | append_singleton p a ih =>
    obtain ⟨j, hpj, hj, hle, ha⟩ := exists_parent_of_pathTo h hn hp
    obtain ⟨hlt, hjn⟩ := lt_of_mem_parentsOf h hj
    rcases List.eq_nil_or_concat' q with rfl | ⟨q, b, rfl⟩
    · cases hq
      omega
    · obtain ⟨k, hqk, hk, -, hb⟩ := exists_parent_of_pathTo h hn hq
      obtain rfl := parent_unique h (hlt.trans hjn) hj hk
      rw [ih hpj hqk, branch_unique h hj ha hb]

/-- A path to a leaf that begins another path is all of it. -/
theorem pathTo_end_eq_of_begins {n k m : Nat} {p q : Bits} (hk : (nodeAt s k).leaf = true) (h : PathTo s n p k)
    (h' : PathTo s n q m) (hpre : p <+: q) : k = m := by
  obtain ⟨r, rfl⟩ := hpre
  obtain ⟨k', hk', hr⟩ := pathTo_split h'
  obtain rfl := pathTo_unique h hk'
  cases hr with
  | here => rfl
  | left hl => exact absurd (hk.symm.trans hl) (by decide)
  | right hl => exact absurd (hk.symm.trans hl) (by decide)

theorem mem_leafSymbols {x : Byte} : x ∈ leafSymbols s ↔ ∃ m, m < s.nleaf.toNat ∧ (nodeAt s m).sym = x := by
  simp [leafSymbols]

/-- Different leaves have different symbols (R35 (e)). -/
theorem leaf_eq_of_sym_eq (h : TreeOk s) {k m : Nat} (hk : k < s.nleaf.toNat) (hm : m < s.nleaf.toNat)
    (hsym : (nodeAt s k).sym = (nodeAt s m).sym) : k = m :=
  List.inj_on_of_nodup_map (leafSymbols_nodup h) (List.mem_range.mpr hk) (List.mem_range.mpr hm) hsym

section Walk

variable (h : TreeOk s) (hq : s.qcnt.toNat = 1) (hroot : (nodeAt s (rootSlot s)).leaf = false)
  (hct : t.ct = (storeCodes (clearCodes s) (codesFrom s Config.nodeMax (rootSlot s) [])).ct)

include h hq hroot hct in
/-- After a walk the codes are the paths from the root to the leaves (R162). -/
theorem codeOf_walked_iff {x : Byte} {p : Bits} (hp : p ≠ []) : codeOf t x = p ↔
    ∃ m, PathTo s (rootSlot s) p m ∧ (nodeAt s m).leaf = true ∧ (nodeAt s m).sym = x := by
  constructor
  · rintro rfl
    obtain ⟨m, hm, hpath, hsym⟩ := pathTo_of_walked h hq hct hp
    exact ⟨m, hpath, (h.leaves m hm).1, hsym⟩
  · rintro ⟨m, hpath, hl, rfl⟩
    have hroom : rootSlot s < s.nnode.toNat := Nat.sub_lt (queueMembers_of_complete h hq).1 Nat.one_pos
    have hm := (leaf_iff_lt_nleaf h ((pathTo_bounds h hpath hroom).1.trans_lt hroom)).mp hl
    have hcoded := (codeOf_walked_ne_nil h hq hroot hct _).mpr (mem_leafSymbols.mpr ⟨m, hm, rfl⟩)
    obtain ⟨k, hk, hpath', hsym⟩ := pathTo_of_walked h hq hct hcoded
    obtain rfl := leaf_eq_of_sym_eq h hk hm hsym
    exact pathTo_inj h hroom hpath' hpath

include h hq hct in
/-- After a walk no code begins another symbol's: two leaves' paths part at an internal node (R164 (b)). -/
theorem codeOf_walked_not_begins {x y : Byte} (hxy : x ≠ y) (hx : codeOf t x ≠ []) (hy : codeOf t y ≠ []) :
    ¬ codeOf t x <+: codeOf t y := by
  intro hpre
  obtain ⟨k, hk, hpath, rfl⟩ := pathTo_of_walked h hq hct hx
  obtain ⟨m, -, hpath', rfl⟩ := pathTo_of_walked h hq hct hy
  exact hxy (congrArg (fun i => (nodeAt s i).sym) (pathTo_end_eq_of_begins (h.leaves k hk).1 hpath hpath' hpre))

end Walk

/-- The table of a lone leaf (R163). -/
theorem codeOf_lone (s : State) (x : Byte) :
    codeOf (countCommand { setCode (clearCodes s) (nodeAt s (rootSlot s)).sym [false] with ncode := 1#9 }) x =
      if x = (nodeAt s (rootSlot s)).sym then [false] else [] :=
  codeOf_setCode (clearCodes s) (nodeAt s (rootSlot s)).sym x [false]

/-- Exactly the lone leaf's symbol has a code (R163). -/
theorem codeOf_lone_ne_nil (s : State) (x : Byte) :
    codeOf (countCommand { setCode (clearCodes s) (nodeAt s (rootSlot s)).sym [false] with ncode := 1#9 }) x ≠ [] ↔
      x = (nodeAt s (rootSlot s)).sym := by
  rw [codeOf_lone]
  split <;> simp [*]

/-- A complete tree whose root is a leaf is that leaf alone (R35 (c) to (e)). -/
theorem nleaf_of_lone (h : TreeOk s) (hq : s.qcnt.toNat = 1) (hroot : (nodeAt s (rootSlot s)).leaf = true) :
    s.nleaf = 1#9 ∧ rootSlot s = 0 := by
  obtain ⟨hn, -⟩ := queueMembers_of_complete h hq
  have hlast := (leaf_iff_lt_nleaf h (Nat.sub_lt hn Nat.one_pos)).mp hroot
  obtain ⟨hmerges, hle⟩ := h.merges (by omega)
  have hnodes := h.sizes.1
  exact ⟨by bv_omega, by rw [rootSlot]; omega⟩

/-- Settles O31: the four branches of the rule of `WALK`, the last with the paths of the forest. -/
theorem walkDerivesTheCodes : Obligations.WalkDerivesTheCodes := by
  unfold Obligations.WalkDerivesTheCodes
  refine ⟨rfl, rejectsReserved_reservedMask (op := 0x30#8) rfl, fun s he => ⟨fun hq => ?_, fun hq => ?_,
    fun hq hroot => ?_, fun hq hroot htree => ?_⟩⟩
  · exact (exec_walk s).trans (runCommand_error he (walkTree_incomplete hq))
  · exact ⟨_, exec_of_effect he (.walk (walkTree_empty hq)), fun _ => rfl, rfl⟩
  · exact ⟨_, exec_of_effect he (.walk (walkTree_lone hq hroot)), codeOf_lone s, rfl⟩
  · have hone : s.qcnt.toNat = 1 := by rw [hq]; rfl
    refine ⟨_, exec_of_effect he (.walk (walkTree_internal hq hroot)),
      fun x p => codeOf_walked_iff htree hone hroot rfl,
      fun x => (codeOf_walked_ne_nil htree hone hroot rfl x).trans mem_leafSymbols, ?_⟩
    conv_lhs => rw [storeCodes_frame]
    rfl

/-- Settles O32: no code, one code, or the paths of the forest to its leaves. -/
theorem walkIsPrefixFree : Obligations.WalkIsPrefixFree := by
  unfold Obligations.WalkIsPrefixFree
  intro s he htree hq
  obtain ⟨t, ht⟩ := exists_walkTree hq
  refine ⟨_, exec_of_effect he (.walk ht), by rw [countCommand_err, walkTree_frame ht, he], ?_⟩
  rcases walkTree_cases ht with ⟨hzero, rfl⟩ | ⟨hone, hroot, rfl⟩ | ⟨hone, hroot, rfl⟩
  · have hn := nnode_eq_zero_of_empty htree (by rw [hzero]; rfl)
    have hl : s.nleaf.toNat = 0 := by have := htree.sizes.1; omega
    refine ⟨(BitVec.eq_of_toNat_eq hl).symm, fun x => ⟨fun hx => absurd rfl hx, ?_⟩, fun x _ _ hx => absurd rfl hx⟩
    rintro ⟨m, hm, -⟩
    omega
  · obtain ⟨hl, hslot⟩ := nleaf_of_lone htree (by rw [hone]; rfl) hroot
    refine ⟨hl.symm, fun x => ?_, fun x y hxy hx hy =>
      absurd (((codeOf_lone_ne_nil s x).mp hx).trans ((codeOf_lone_ne_nil s y).mp hy).symm) hxy⟩
    rw [codeOf_lone_ne_nil, hslot, hl]
    exact ⟨fun hx => ⟨0, by decide, hx.symm⟩, fun ⟨m, hm, hx⟩ => by
      obtain rfl : m = 0 := Nat.lt_one_iff.mp hm
      exact hx.symm⟩
  · have htoNat : s.qcnt.toNat = 1 := by rw [hone]; rfl
    exact ⟨rfl, fun x => (codeOf_walked_ne_nil htree htoNat hroot rfl x).trans mem_leafSymbols,
      fun x y => codeOf_walked_not_begins htree htoNat rfl⟩

/-! ### `CCLR`, `CLDB` and `CSET` (R165 to R167) -/

/-- Settles O33: the effect of `CCLR`, after which no code is listed. -/
theorem cclrClears : Obligations.CclrClears := by
  unfold Obligations.CclrClears
  exact ⟨rfl, rejectsReserved_reservedMask (op := 0x31#8) rfl,
    fun s he => ⟨_, exec_of_effect he .cclr, fun _ => rfl, rfl⟩⟩

/-- A format `B` operand keeps its two fields in a word (R101). -/
theorem setWidth_seqOperand (k : BitVec 5) (b : BitVec 16) :
    ((k.setWidth 24 <<< 16) ||| b.setWidth 24).setWidth 32 = (k.setWidth 32 <<< 16) ||| b.setWidth 32 := by
  refine BitVec.eq_of_getLsbD_eq fun j hj => ?_
  by_cases h : j < 24
  · simp [h, hj]
  · simp [h, BitVec.getLsbD_of_ge k (j - 16) (by omega), BitVec.getLsbD_of_ge b j (by omega)]

/-- The two fields of format `B` stand side by side in the word, under the opcode (R101, R103). -/
theorem assemble_seqOperand (op : Byte) (k : BitVec 5) (b : BitVec 16) :
    assemble op ((k.setWidth 24 <<< 16) ||| b.setWidth 24) =
      (op.setWidth 32 <<< 24) ||| (k.setWidth 32 <<< 16) ||| b.setWidth 32 := by
  rw [assemble, setWidth_seqOperand, BitVec.or_assoc]

/-- `CLDB` beyond the longest code (R166). -/
theorem stageBits_codeLen {k : BitVec 5} {b : BitVec 16} (hok : seqFieldOk k b = true)
    (hlen : 255 < s.cstg.length + k.toNat) : stageBits k b s = .error .codeLen := by
  rw [stageBits, hok, if_neg (by decide), if_pos hlen]

/-- Settles O34: the encoder's and the decoder's format `B`, the effect of `CLDB`, and the fault of its rule. -/
theorem cldbAppends : Obligations.CldbAppends := by
  unfold Obligations.CldbAppends
  refine ⟨assemble_seqOperand 0x32#8, rejectsReserved_reservedMask (op := 0x32#8) rfl, fun cw hop hbreaks => ?_,
    fun s k b he => ⟨fun hwf hlen => ?_, fun hwf hlen => ?_⟩⟩
  · exact (decodeWord_eq_illArg_iff cw).mpr ⟨by rw [hop]; rfl, .inr hbreaks⟩
  · obtain ⟨-, hbits⟩ := (Bool.and_eq_true _ _).mp hwf
    exact ⟨seqOf k b, seqOf_length k b, bitsVal_seqOf (of_decide_eq_true hbits), exec_of_effect he (.cldb hwf hlen)⟩
  · exact (exec_cldb k b s).trans (runCommand_error he (stageBits_codeLen hwf hlen))

/-- `CSET` of an empty staged code (R167). -/
theorem commitCode_emptyCode (x : Byte) (h : s.cstg = []) : commitCode x s = .error .emptyCode :=
  if_pos (List.length_eq_zero_iff.mpr h)

/-- `CSET` of a symbol that has a code (R167). -/
theorem commitCode_coded {x : Byte} (h : s.cstg ≠ []) (hx : codeOf s x ≠ []) : commitCode x s = .error .dup := by
  have hlen : 1 ≤ (codeOf s x).length := List.length_pos_iff.mpr hx
  rw [commitCode, if_neg (mt List.length_eq_zero_iff.mp h), if_pos hlen]

/-- `CSET` of a code that some symbol has (R167). -/
theorem commitCode_taken {x y : Byte} (h : s.cstg ≠ []) (hx : codeOf s x = []) (hy : codeOf s y = s.cstg) :
    commitCode x s = .error .dup := by
  rw [commitCode, if_neg (mt List.length_eq_zero_iff.mp h), hx, if_neg (by decide), if_pos (codeTaken_iff.mpr ⟨y, hy⟩)]

/-- The codes after `CSET` (R167). -/
theorem codeOf_cset (s : State) (x y : Byte) :
    codeOf (countCommand { setCode s x s.cstg with ncode := s.ncode + 1#9, cstg := [] }) y =
      if y = x then s.cstg else codeOf s y :=
  codeOf_setCode s x y s.cstg

/-- Settles O35: the three faults of the rule of `CSET` in its order, and its effect. -/
theorem csetCommits : Obligations.CsetCommits := by
  unfold Obligations.CsetCommits
  refine ⟨assemble_setWidth (by decide) 0x33#8, rejectsReserved_reservedMask (op := 0x33#8) rfl,
    fun s x he => ⟨fun hempty => ?_, fun hne hx => ?_, fun hne hx ⟨y, hy⟩ => ?_, fun hne hx hfresh => ?_⟩⟩
  · exact (exec_cset x s).trans (runCommand_error he (commitCode_emptyCode x hempty))
  · exact (exec_cset x s).trans (runCommand_error he (commitCode_coded hne hx))
  · exact (exec_cset x s).trans (runCommand_error he (commitCode_taken hne hx hy))
  · exact ⟨_, exec_of_effect he (.cset hne hx hfresh), codeOf_cset s x, rfl⟩

/-! ### `CRD` (R76, R169) -/

/-- The last word is the least significant (R76). -/
theorem wordsVal_concat (ws : List Word) (w : Word) : wordsVal (ws ++ [w]) = 2 ^ 32 * wordsVal ws + w.toNat := by
  simp [wordsVal]

/-- The first word is the most significant (R76). -/
theorem wordsVal_cons (w : Word) (ws : List Word) :
    wordsVal (w :: ws) = w.toNat * 2 ^ (32 * ws.length) + wordsVal ws := by
  induction ws using List.reverseRecOn with
  | nil => simp [wordsVal]
  | append_singleton ws v ih =>
    rw [← List.cons_append, wordsVal_concat, ih, wordsVal_concat, List.length_append, List.length_singleton,
      Nat.mul_succ, pow_add]
    ring

/-- The `n` low words of a number, most significant first, stand for it modulo `2 ^ (32 * n)` (R76). -/
theorem wordsVal_extract {w : Nat} (v : BitVec w) (n : Nat) :
    wordsVal ((List.range n).reverse.map fun j => v.extractLsb' (32 * j) 32) = v.toNat % 2 ^ (32 * n) := by
  induction n with
  | zero => simp [wordsVal, Nat.mod_one]
  | succ n ih =>
    rw [List.range_succ, List.reverse_concat, List.map_cons, wordsVal_cons, ih, Nat.mul_succ, pow_add, Nat.mod_mul,
      BitVec.extractLsb'_toNat, Nat.shiftRight_eq_div_pow, List.length_map, List.length_reverse, List.length_range]
    ring

/-- `CRD`'s eight words stand for a code of at most 255 bits (R76, R169). -/
theorem wordsVal_codeWords {c : Bits} (h : c.length ≤ 255) : wordsVal (codeWords c) = bitsVal c := by
  have hlt : bitsVal c < 2 ^ 256 := (bitsVal_lt c).trans_le (Nat.pow_le_pow_right (by decide) (by omega))
  rw [codeWords, show [7, 6, 5, 4, 3, 2, 1, 0] = (List.range 8).reverse from rfl, wordsVal_extract, BitVec.toNat_ofNat,
    Nat.mod_eq_of_lt hlt, Nat.mod_eq_of_lt hlt]

@[simp] theorem codeWords_length (c : Bits) : (codeWords c).length = 8 := rfl

/-- Settles O36: the effect of `CRD` with its words' value, and the drop. -/
theorem crdReturnsNineWords : Obligations.CrdReturnsNineWords := by
  unfold Obligations.CrdReturnsNineWords
  exact ⟨assemble_setWidth (by decide) 0x34#8, rejectsReserved_reservedMask (op := 0x34#8) rfl,
    fun s x he => (exec_crd x s).trans (runCommand_dropped he),
    fun s x he hlen => ⟨codeWords (codeOf s x), exec_of_effect he .crd, codeWords_length _, wordsVal_codeWords hlen⟩⟩

/-! ### Reading a table out (R225) -/

/-- The entries of the table are those of its symbols with a code (R224). -/
theorem tableEntries_eq (s : State) : tableEntries s = (codedSymbols s).map fun x => (x, codeOf s x) := by
  simp [tableEntries, codedSymbols, Nat.one_le_iff_ne_zero]

/-- The words that `CRD x` returns (R169). -/
def crdWords (s : State) (x : Byte) : List Word := lengthWord (codeOf s x) :: codeWords (codeOf s x)

/-- One `CRD` per symbol of a list returns their words in order and changes nothing else but `CMDCNT`. -/
theorem execAll_crds (he : s.err = 0#8) (xs : List Byte) : execAll (xs.map .crd) s =
    .next { s with rsp := s.rsp ++ xs.flatMap (crdWords s), cmdCnt := s.cmdCnt + BitVec.ofNat 32 xs.length } := by
  induction xs generalizing s with
  | nil => simp
  | cons x xs ih =>
    have hcount : s.cmdCnt + BitVec.ofNat 32 (xs.length + 1) = s.cmdCnt + 1#32 + BitVec.ofNat 32 xs.length := by
      rw [Nat.add_comm, BitVec.ofNat_add, BitVec.add_assoc]
    have hrest := ih (s := countCommand (emitRsp s (crdWords s x))) he
    rw [List.map_cons, execAll_cons (exec_of_effect he .crd), List.flatMap_cons, List.length_cons, hcount,
      ← List.append_assoc]
    exact hrest

/-- The entries of a list's symbols, from the words `CRD` returns for them, are the symbols that have a code (R225). -/
theorem responseEntries_crds (hlen : ∀ x, (codeOf s x).length ≤ 255) (xs : List Byte) :
    responseEntries xs (xs.flatMap (crdWords s)) =
      (xs.filter fun x => decide (codeOf s x ≠ [])).map fun x => (x, codeOf s x) := by
  induction xs with
  | nil => rfl
  | cons x xs ih =>
    rw [List.flatMap_cons, responseEntries_cons x xs (by simp [crdWords]), ih, crdWords]
    by_cases hx : codeOf s x = []
    · have h0 : lengthWord (codeOf s x) = 0#32 := by rw [hx]; rfl
      rw [h0, responseEntry_zero]
      simp [hx]
    · have hlt := (hlen x).trans_lt (show 255 < 2 ^ 32 by decide)
      rw [responseEntry_code x hx hlt (wordsVal_codeWords (hlen x))]
      simp [hx]

/-! ### Loading a table (R110, R225) -/

/-- A format `B` command's fields for at most 16 bits carry those bits (R103, R109). -/
theorem seqField_of_bits {q : Bits} (hq : q.length ≤ 16) :
    seqFieldOk (BitVec.ofNat 5 q.length) (BitVec.ofNat 16 (bitsVal q)) = true ∧
      seqOf (BitVec.ofNat 5 q.length) (BitVec.ofNat 16 (bitsVal q)) = q := by
  have hlt := bitsVal_lt q
  have hle : 2 ^ q.length ≤ 2 ^ 16 := Nat.pow_le_pow_right (by decide) hq
  have hk : (BitVec.ofNat 5 q.length).toNat = q.length := Nat.mod_eq_of_lt (by omega)
  have hb : (BitVec.ofNat 16 (bitsVal q)).toNat = bitsVal q := Nat.mod_eq_of_lt (by omega)
  constructor
  · simp [seqFieldOk, hk, hb, hq, hlt]
  · rw [seqOf, hk, hb, lowBits_bitsVal]

/-- The chunks of a code, loaded in order, stage the code (R110, R166). -/
theorem execAll_cldbChunks {fuel : Nat} {c : Bits} (hf : c.length ≤ fuel) (he : s.err = 0#8)
    (hlen : s.cstg.length + c.length ≤ 255) : ∃ n,
      execAll ((chunks16 fuel c).map fun q => .cldb (BitVec.ofNat 5 q.length) (BitVec.ofNat 16 (bitsVal q))) s =
        .next { s with cstg := s.cstg ++ c, cmdCnt := n } := by
  induction fuel generalizing s c with
  | zero =>
    obtain rfl := List.length_eq_zero_iff.mp (Nat.le_zero.mp hf)
    exact ⟨s.cmdCnt, by simp [chunks16]⟩
  | succ fuel ih =>
    rw [chunks16]
    split
    · next hc => exact ⟨s.cmdCnt, by simp [hc]⟩
    · next hc =>
      have hpos := List.length_pos_iff.mpr hc
      have hsum : c.length = (c.take 16).length + (c.drop 16).length := by
        rw [← List.length_append, List.take_append_drop]
      have htake : (c.take 16).length ≤ 16 := List.length_take_le 16 c
      obtain ⟨hok, hseq⟩ := seqField_of_bits htake
      have hk : (BitVec.ofNat 5 (c.take 16).length).toNat = (c.take 16).length := Nat.mod_eq_of_lt (by omega)
      have hrun := exec_of_effect he (.cldb hok (by omega))
      rw [hseq] at hrun
      obtain ⟨n, hrest⟩ := ih (s := countCommand { s with cstg := s.cstg ++ c.take 16 }) (c := c.drop 16)
        (by rw [List.length_drop]; omega) he (by rw [countCommand_cstg, List.length_append]; omega)
      refine ⟨n, ?_⟩
      rw [List.map_cons, execAll_cons hrun, hrest, countCommand_cstg, List.append_assoc, List.take_append_drop]
      rfl

/-- `t` has the codes that the symbols `xs` have in `s`, and `u`'s codes beside them, and nothing staged. -/
structure LoadsCodes (s u : State) (xs : List Byte) (t : State) : Prop where
  codes : ∀ y, codeOf t y = if y ∈ xs then codeOf s y else codeOf u y
  count : t.ncode = u.ncode + BitVec.ofNat 9 xs.length
  staged : t.cstg = []
  noFault : t.err = 0#8

/-- Loading one list of symbols after another loads both. -/
theorem LoadsCodes.append {v : State} {xs ys : List Byte} (h : LoadsCodes s u xs t) (h' : LoadsCodes s t ys v) :
    LoadsCodes s u (xs ++ ys) v where
  codes y := by
    simp only [h'.codes, h.codes, List.mem_append]
    by_cases hx : y ∈ xs <;> by_cases hy : y ∈ ys <;> simp [hx, hy]
  count := by rw [h'.count, h.count, List.length_append, BitVec.ofNat_add, BitVec.add_assoc]
  staged := h'.staged
  noFault := h'.noFault

/-- The commands of one entry load it where its symbol has no code and no symbol has its code (R110, R166, R167). -/
theorem loadsCodes_codeCommands {x : Byte} (he : u.err = 0#8) (hstaged : u.cstg = []) (hne : codeOf s x ≠ [])
    (hlen : (codeOf s x).length ≤ 255) (hx : codeOf u x = []) (hfresh : ∀ y, codeOf u y ≠ codeOf s x) :
    ∃ t, execAll (codeCommands x (codeOf s x)) u = .next t ∧ LoadsCodes s u [x] t := by
  obtain ⟨n, hchunks⟩ := execAll_cldbChunks (fuel := (codeOf s x).length) le_rfl he (by rw [hstaged]; simpa using hlen)
  rw [hstaged, List.nil_append] at hchunks
  have hset := exec_of_effect (s := { u with cstg := codeOf s x, cmdCnt := n }) he (.cset hne hx hfresh)
  refine ⟨_, (execAll_append hchunks [.cset x]).trans (execAll_cons hset []), fun y => ?_, rfl, rfl, he⟩
  rw [codeOf_cset]
  by_cases hy : y = x
  · simp only [hy, if_true, List.mem_singleton]
  · simp only [hy, if_false, List.mem_singleton]
    rfl

/-- The entries of symbols with codes in `s` are loaded without a fault where those symbols have none yet and every code
that is there is the symbol's in `s`: the codes of `s` are pairwise different (R40, R225). -/
theorem exists_loadsCodes (hs : CodeTableOk s) {xs : List Byte} (hxs : xs.Nodup) (hne : ∀ x ∈ xs, codeOf s x ≠ [])
    (he : u.err = 0#8) (hstaged : u.cstg = []) (hroom : ∀ x ∈ xs, codeOf u x = [])
    (hsub : ∀ y, codeOf u y ≠ [] → codeOf u y = codeOf s y) :
    ∃ t, execAll (xs.flatMap fun x => codeCommands x (codeOf s x)) u = .next t ∧ LoadsCodes s u xs t := by
  induction xs generalizing u with
  | nil => exact ⟨u, rfl, fun y => by simp, by simp, hstaged, he⟩
  | cons x xs ih =>
    obtain ⟨hnot, hxs⟩ := List.nodup_cons.mp hxs
    obtain ⟨hnex, hne⟩ := List.forall_mem_cons.mp hne
    obtain ⟨hx, hroom⟩ := List.forall_mem_cons.mp hroom
    have hfresh : ∀ y, codeOf u y ≠ codeOf s x := fun y hy => by
      have hcoded : codeOf u y ≠ [] := hy ▸ hnex
      have hyx := hs.distinct y (mem_allSymbols y) x (mem_allSymbols x) ((hsub y hcoded).symm.trans hy)
        (hsub y hcoded ▸ hcoded)
      exact hcoded (hyx ▸ hx)
    obtain ⟨t, hrun, ht⟩ := loadsCodes_codeCommands he hstaged hnex (hs.lengths x (mem_allSymbols x)) hx hfresh
    have hcode : ∀ y, codeOf t y = if y = x then codeOf s y else codeOf u y := by simpa using ht.codes
    obtain ⟨v, hrest, hv⟩ := ih hxs hne ht.noFault ht.staged
      (fun y hy => by
        have hyx : y ≠ x := fun hyx => hnot (hyx ▸ hy)
        rw [hcode, if_neg hyx, hroom y hy])
      (fun y hy => by
        rw [hcode] at hy ⊢
        split
        · rfl
        · next hyx => exact hsub y (by rwa [if_neg hyx] at hy))
    exact ⟨v, (execAll_append hrun _).trans hrest, ht.append hv⟩

/-- The commands that load a table's entries, symbol by symbol (R225). -/
theorem loadTableCommands_tableEntries (s : State) : loadTableCommands (tableEntries s) =
    .cclr :: (codedSymbols s).flatMap fun x => codeCommands x (codeOf s x) := by
  rw [tableEntries_eq, loadTableCommands, List.flatMap_map]

/-- Loading the entries of a table leaves that table (R225). -/
theorem loadTable_restores (hs : CodeTableOk s) (he : u.err = 0#8) : ∃ t,
    execAll (loadTableCommands (tableEntries s)) u = .next t ∧ t.err = 0#8 ∧ (∀ x, codeOf t x = codeOf s x) ∧
      t.ncode = s.ncode ∧ t.cstg = [] := by
  have hclear := exec_of_effect he .cclr
  obtain ⟨t, hrun, ht⟩ := exists_loadsCodes (u := countCommand { u with ct := [], ncode := 0#9, cstg := [] }) hs
    (codedSymbols_nodup s) (fun x => mem_codedSymbols.mp) he rfl (fun _ _ => rfl) (fun _ hy => absurd rfl hy)
  rw [loadTableCommands_tableEntries]
  refine ⟨t, (execAll_cons hclear _).trans hrun, ht.noFault, fun x => ?_, ?_, ht.staged⟩
  · rw [ht.codes]
    split
    · rfl
    · next hx => exact (not_not.mp (mt mem_codedSymbols.mpr hx)).symm
  · have hcount := hs.count
    rw [codeCount_eq_length (codedSymbols_nodup s) fun _ => mem_codedSymbols.symm] at hcount
    rw [ht.count, ← hcount, BitVec.ofNat_toNat, BitVec.setWidth_eq]
    exact BitVec.zero_add s.ncode

/-- Settles O60: the entries restore their table, and the words of `CRD` are its entries. -/
theorem loadingRestoresTheTable : Obligations.LoadingRestoresTheTable := by
  unfold Obligations.LoadingRestoresTheTable
  refine ⟨fun s u hs hu => loadTable_restores hs hu, fun s hs he => ?_⟩
  have hentries : responseEntries allSymbols (allSymbols.flatMap (crdWords s)) = tableEntries s :=
    (tableEntries_eq s).symm ▸ responseEntries_crds (fun x => hs.lengths x (mem_allSymbols x)) allSymbols
  refine ⟨_, ?_, hentries, by rw [serializeResponses, hentries, serializeTable]⟩
  rw [execAll_crds he, allSymbols_length]

end Sys2Proof.Machine
end

section
/-! The statements of 43_packer.md: what `PBEGT`, `PBEGI`, `ENC`, `PBITS` and `PEND` do, command by command
(R182 to R186). -/

namespace Sys2Proof.Machine

open Sys2Proof.Safety

variable {s : State}

/-! ### Opening a run (R182, R183) -/

/-- `s` after a packing run for a bit sequence of length `n` modulo 8 was opened in it (R182, R183). -/
def openedRun (n : Nat) (s : State) : State :=
  { s with obytes := s.obytes ++ [BitVec.ofNat 8 (8 - n)], padn := BitVec.ofNat 4 (8 - n), acc := [], pact := true }

theorem exec_pbegt_opens (he : s.err = 0#8) (hp : s.pact = false) :
    exec .pbegt s = .next (countCommand (openedRun (codedLength s % 8) s)) := exec_of_effect he (.pbegt hp)

theorem exec_pbegi_opens (he : s.err = 0#8) (hp : s.pact = false) (n : BitVec 3) :
    exec (.pbegi n) s = .next (countCommand (openedRun n.toNat s)) := exec_of_effect he (.pbegi hp)

/-- A run cannot be opened inside a run (R182, R183). -/
theorem openPacking_open (n : Nat) (hp : s.pact = true) : openPacking n s = .error .seq := if_pos hp

/-- The length of a coded text modulo 8, by arithmetic modulo 8 (R182). -/
theorem codedLength_mod_eight (s : State) : codedLength s % 8 =
    (allSymbols.map fun x => (countOf s x).toNat % 8 * ((codeOf s x).length % 8)).sum % 8 := by
  rw [codedLength, List.sum_nat_mod, List.map_map,
    List.sum_nat_mod (allSymbols.map fun x => (countOf s x).toNat % 8 * ((codeOf s x).length % 8)), List.map_map]
  simp only [Function.comp_def, ← Nat.mul_mod]

/-- Settles O37: the residue by arithmetic modulo 8, the effect of `PBEGT`, and the fault of its rule. -/
theorem pbegtAnnouncesThePadding : Obligations.PbegtAnnouncesThePadding := by
  unfold Obligations.PbegtAnnouncesThePadding
  refine ⟨rfl, rejectsReserved_reservedMask (op := 0x40#8) rfl, ?_⟩
  intro s L8 he hL8
  rw [hL8, ← codedLength_mod_eight]
  exact ⟨by rw [codedLength], exec_pbegt_opens he, fun hp => by
    rw [exec_pbegt]
    exact runCommand_error (e := .seq) he (openPacking_open (codedLength s % 8) hp)⟩

/-- Settles O38: the effect of `PBEGI`, and the fault of its rule. -/
theorem pbegiAnnouncesThePadding : Obligations.PbegiAnnouncesThePadding := by
  unfold Obligations.PbegiAnnouncesThePadding
  exact ⟨assemble_setWidth (by decide) 0x41#8, rejectsReserved_reservedMask (op := 0x41#8) rfl,
    fun s n he => ⟨fun hp => exec_pbegi_opens he hp n,
      fun hp => (exec_pbegi n s).trans (runCommand_error he (openPacking_open _ hp))⟩⟩

/-! ### Packing bits (R184, R185) -/

/-- `ENC` outside a run (R184). -/
theorem encodeSymbol_closed (x : Byte) (hp : s.pact = false) : encodeSymbol x s = .error .seq := if_pos hp

/-- `ENC` of a symbol that has no code (R184). -/
theorem encodeSymbol_uncoded {x : Byte} (hp : s.pact = true) (hx : codeOf s x = []) :
    encodeSymbol x s = .error .noCode := by
  rw [encodeSymbol, hp, hx, if_neg (by decide), if_pos List.length_nil]

/-- Settles O39: `pack` of the symbol's code, and the two faults of the rule of `ENC` in its order. -/
theorem encPacksTheCode : Obligations.EncPacksTheCode := by
  unfold Obligations.EncPacksTheCode
  refine ⟨assemble_setWidth (by decide) 0x42#8, rejectsReserved_reservedMask (op := 0x42#8) rfl,
    fun s x he => ⟨fun hp hx => ?_, fun hp => ?_, fun hp hx => ?_⟩⟩
  · obtain ⟨out, hpack, hbits, hout, hacc⟩ := pack_spec (codeOf s x) s
    exact ⟨_, out, exec_of_effect he (.enc hp hx), congrArg State.obytes hpack, hbits, hout, hacc, rfl⟩
  · exact (exec_enc x s).trans (runCommand_error he (encodeSymbol_closed x hp))
  · exact (exec_enc x s).trans (runCommand_error he (encodeSymbol_uncoded hp hx))

/-- `PBITS` outside a run (R185). -/
theorem packBits_closed {k : BitVec 5} {b : BitVec 16} (hok : seqFieldOk k b = true) (hp : s.pact = false) :
    packBits k b s = .error .seq := by
  rw [packBits, hok, if_neg (by decide), if_pos hp]

/-- The bits of a well-formed `PBITS` are those its fields describe (R103). -/
theorem eq_seqOf {k : BitVec 5} {b : BitVec 16} (hwf : (Instr.pbits k b).wellFormed = true) {q : Bits}
    (hlen : q.length = k.toNat) (hval : bitsVal q = b.toNat) : q = seqOf k b := by
  obtain ⟨-, hbits⟩ := (Bool.and_eq_true _ _).mp hwf
  exact bitsVal_inj (hlen.trans (seqOf_length k b).symm) (hval.trans (bitsVal_seqOf (of_decide_eq_true hbits)).symm)

/-- Settles O40: the encoder's and the decoder's format `B`, `pack` of the operand's bits, and the fault of the rule. -/
theorem pbitsPacksTheBits : Obligations.PbitsPacksTheBits := by
  unfold Obligations.PbitsPacksTheBits
  refine ⟨assemble_seqOperand 0x43#8, rejectsReserved_reservedMask (op := 0x43#8) rfl, fun cw hop hbreaks => ?_,
    fun s k b he => ⟨fun hwf hp => ?_, fun hwf hp => ?_⟩⟩
  · exact (decodeWord_eq_illArg_iff cw).mpr ⟨by rw [hop]; rfl, .inr hbreaks⟩
  · obtain ⟨-, hlt⟩ := (Bool.and_eq_true _ _).mp hwf
    obtain ⟨out, hpack, hbits, -, hacc⟩ := pack_spec (seqOf k b) s
    rw [seqOf_length] at hacc
    exact ⟨_, out, _, exec_of_effect he (.pbits hwf hp), seqOf_length k b, bitsVal_seqOf (of_decide_eq_true hlt),
      congrArg State.obytes hpack, hbits, hacc, rfl⟩
  · exact (exec_pbits k b s).trans (runCommand_error he (packBits_closed hwf hp))

/-! ### Closing a run (R186) -/

/-- `PEND` outside a run (R186). -/
theorem closePacking_closed (hp : s.pact = false) : closePacking s = .error .seq := if_pos hp

/-- `PEND` behind a pad count that the bits do not need (R186). -/
theorem closePacking_padMis (hp : s.pact = true) (hn : s.padn.toNat ≠ 8 - s.acc.length) :
    closePacking s = .error .padMis := by
  rw [closePacking, hp, if_neg (by decide), if_pos hn.symm]

/-- The last byte of a run is the pending bits and the padding (R186). -/
theorem bits8_lastByte {q : Bits} (h : q.length ≤ 7) :
    bits8 (byteOf (q ++ zeroBits (8 - q.length))) = q ++ zeroBits (8 - q.length) :=
  bits8_byteOf (by rw [List.length_append, zeroBits_length]; omega)

/-- Settles O41: the effect of `PEND` with its byte's bits, and the two faults of its rule in its order. -/
theorem pendPadsAndCloses : Obligations.PendPadsAndCloses := by
  unfold Obligations.PendPadsAndCloses
  refine ⟨rfl, rejectsReserved_reservedMask (op := 0x44#8) rfl,
    fun s he hacc => ⟨fun hp hn => ?_, fun hp => ?_, fun hp hn => ?_⟩⟩
  · exact ⟨_, bits8_lastByte hacc, exec_of_effect he (.pend hp hn.symm)⟩
  · exact (exec_pend s).trans (runCommand_error he (closePacking_closed hp))
  · exact (exec_pend s).trans (runCommand_error he (closePacking_padMis hp hn))

end Sys2Proof.Machine
end

section
/-! Packing runs: what a body of `ENC` and `PBITS` packs between the opening and `PEND` (R180, R181, R187). -/

namespace Sys2Proof.Machine

open Sys2Proof.Safety

variable {s t u : State} {q q' B : Bits} {body : List Instr}

/-! ### Packing a body -/

/-- `t` is `s` after the bits `q` were packed in an open run (R181). -/
structure Packs (s : State) (q : Bits) (t : State) : Prop where
  bits : ∃ out, t.obytes = s.obytes ++ out ∧ out.flatMap bits8 ++ t.acc = s.acc ++ q
  acc : t.acc.length < 8
  frame : t = { s with obytes := t.obytes, acc := t.acc, cmdCnt := t.cmdCnt }

theorem packs_nil (h : s.acc.length < 8) : Packs s [] s := ⟨⟨[], by simp⟩, h, rfl⟩

theorem packs_pack (q : Bits) (s : State) : Packs s q (countCommand (pack q s)) := by
  obtain ⟨out, hpack, hbits, -, -⟩ := pack_spec q s
  exact ⟨⟨out, congrArg State.obytes hpack, hbits⟩, pack_acc_length_lt q s, rfl⟩

/-- Bits packed one sequence after the other are packed as one sequence. -/
theorem Packs.append (h : Packs s q t) (h' : Packs t q' u) : Packs s (q ++ q') u where
  bits := by
    obtain ⟨out, hout, hbits⟩ := h.bits
    obtain ⟨out', hout', hbits'⟩ := h'.bits
    exact ⟨out ++ out', by rw [hout', hout, List.append_assoc],
      by rw [List.flatMap_append, List.append_assoc, hbits', ← List.append_assoc, hbits, List.append_assoc]⟩
  acc := h'.acc
  frame := by rw [h'.frame, h.frame]

theorem length_flatMap_bits8 (bytes : List Byte) : (bytes.flatMap bits8).length = 8 * bytes.length := by
  simp [List.length_flatMap, Nat.mul_comm]

/-- The bits that wait after packing are those that fill no byte (R181). -/
theorem Packs.acc_length (h : Packs s q t) : t.acc.length = (s.acc.length + q.length) % 8 := by
  obtain ⟨out, -, hbits⟩ := h.bits
  have hlen := congrArg List.length hbits
  rw [List.length_append, length_flatMap_bits8, List.length_append] at hlen
  have := h.acc
  omega

/-- A body of a run packs its bits, in order (R180, R181). -/
theorem execAll_packBody {code : Byte → Bits} (hbody : PackBody code body B) (hcode : ∀ x, codeOf s x = code x)
    (he : s.err = 0#8) (hp : s.pact = true) (hacc : s.acc.length < 8) :
    ∃ t, execAll body s = .next t ∧ Packs s B t := by
  induction hbody generalizing s with
  | nil => exact ⟨s, rfl, packs_nil hacc⟩
  | enc x hx _ ih =>
    have henc := exec_of_effect he (.enc hp (hcode x ▸ hx))
    obtain ⟨t, hrun, ht⟩ := ih (s := countCommand (pack (codeOf s x) s)) hcode he hp (pack_acc_length_lt _ s)
    exact ⟨t, (execAll_cons henc _).trans hrun, hcode x ▸ (packs_pack _ s).append ht⟩
  | pbits k b q hwf hlen hval _ ih =>
    have hpbits := exec_of_effect he (.pbits (k := k) (b := b) hwf hp)
    obtain ⟨t, hrun, ht⟩ := ih (s := countCommand (pack (seqOf k b) s)) hcode he hp (pack_acc_length_lt _ s)
    exact ⟨t, (execAll_cons hpbits _).trans hrun, eq_seqOf hwf hlen hval ▸ (packs_pack _ s).append ht⟩

/-! ### A whole run -/

/-- The bits of the payload that carries the bit sequence `B`: the pad count, `B`, and the padding (R187). -/
def payloadBits (B : Bits) : Bits :=
  bits8 (BitVec.ofNat 8 (8 - B.length % 8)) ++ B ++ zeroBits (8 - B.length % 8)

/-- `t` is `s` after a whole packing run of the bit sequence `B` (R187). -/
structure PacksRun (s : State) (B : Bits) (t : State) : Prop where
  payload : ∃ out, t.obytes = s.obytes ++ out ∧ out.flatMap bits8 = payloadBits B
  frame : t = { s with obytes := t.obytes, padn := t.padn, acc := t.acc, pact := false, cmdCnt := t.cmdCnt }

/-- The announced pad count `8 - n` (R182, R183). -/
theorem toNat_padCount {n : Nat} (hn : n < 8) : (BitVec.ofNat 4 (8 - n)).toNat = 8 - n :=
  Nat.mod_eq_of_lt (by omega)

/-- The bits that wait at the end of a run are those of its body that fill no byte (R181). -/
theorem Packs.acc_length_of_opened {n : Nat} (h : Packs (countCommand (openedRun n s)) B t) :
    t.acc.length = B.length % 8 := by
  rw [h.acc_length, countCommand_acc]
  exact congrArg (· % 8) (Nat.zero_add _)

/-- `PEND` completes the payload of a run that was opened for as many bits as its body has, modulo 8 (R186, R187). -/
theorem Packs.packsRun {n : Nat} (h : Packs (countCommand (openedRun n s)) B t) (hn : n = B.length % 8) :
    PacksRun s B (countCommand { t with
      obytes := t.obytes ++ [byteOf (t.acc ++ zeroBits (8 - t.acc.length))], acc := [], pact := false }) where
  payload := by
    obtain ⟨out, hout, hbits⟩ := h.bits
    have hB : out.flatMap bits8 ++ t.acc = B := hbits
    refine ⟨BitVec.ofNat 8 (8 - n) :: (out ++ [byteOf (t.acc ++ zeroBits (8 - t.acc.length))]), ?_, ?_⟩
    · rw [countCommand_obytes, hout]
      simp [openedRun]
    · rw [List.flatMap_cons, List.flatMap_append, List.flatMap_singleton, bits8_lastByte (Nat.le_of_lt_succ h.acc),
        ← List.append_assoc (out.flatMap bits8), hB, h.acc_length_of_opened, hn, payloadBits, List.append_assoc]
  frame := by
    rw [h.frame]
    rfl

/-- A run that was opened for `n` bits modulo 8 emits its payload where its body has so many bits, and else ends in
`E_PADMIS` (R186, R187). -/
theorem execAll_packingRun {n : Nat} (hn : n < 8) (he : s.err = 0#8) (hbody : PackBody (codeOf s) body B) :
    ∃ t, execAll (body ++ [.pend]) (countCommand (openedRun n s)) = .next t ∧
      (n = B.length % 8 → PacksRun s B t) ∧ (n ≠ B.length % 8 → t.err = 0x0A#8) := by
  obtain ⟨t, hrun, ht⟩ := execAll_packBody (s := countCommand (openedRun n s)) hbody (fun _ => rfl) he rfl
    (Nat.zero_lt_succ 7)
  have hacc := ht.acc_length_of_opened
  have herr : t.err = 0#8 := by rw [ht.frame]; exact he
  have hopen : t.pact = true := by rw [ht.frame]; rfl
  have hpadn : t.padn.toNat = 8 - n := by rw [ht.frame]; exact toNat_padCount hn
  by_cases hfit : n = B.length % 8
  · have hpend := exec_of_effect herr (.pend hopen (by rw [hpadn, hacc, hfit]))
    exact ⟨_, (execAll_append hrun _).trans (execAll_cons hpend []), fun _ => ht.packsRun hfit,
      fun hne => absurd hfit hne⟩
  · have hpend := (exec_pend t).trans (runCommand_error herr (closePacking_padMis hopen (by omega)))
    exact ⟨_, (execAll_append hrun _).trans (execAll_cons hpend []), fun heq => absurd heq hfit, fun _ => rfl⟩

/-- Settles O54: `PBEGI` opens the run that `execAll_packingRun` speaks of. -/
theorem packingRunEmitsPaddedBits : Obligations.PackingRunEmitsPaddedBits := by
  unfold Obligations.PackingRunEmitsPaddedBits
  intro s n body B he hp hbody
  obtain ⟨t, hrun, hfit, hmis⟩ := execAll_packingRun n.isLt he hbody
  refine ⟨t, (execAll_cons (exec_pbegi_opens he hp n) _).trans hrun, fun hn => ?_, hmis⟩
  obtain ⟨hpayload, hframe⟩ := hfit hn
  exact ⟨by rw [hframe, he], by rw [hframe], hpayload⟩

end Sys2Proof.Machine
end

section
/-! Decoding runs: what a decode run makes of the payload of a packing run, where no code begins another
(R202 to R207). -/

namespace Sys2Proof.Machine

open Sys2Proof.Safety

variable {s t u : State} {code : Byte → Bits} {text : List Byte}

/-! ### The greedy decoder where no code begins another (R168, R205) -/

/-- No symbol's code begins another symbol's, and none is longer than `MAXLEN` (R37, R168). -/
structure PrefixCode (code : Byte → Bits) : Prop where
  lengths : ∀ x, (code x).length ≤ 255
  free : ∀ x y, x ≠ y → code x ≠ [] → ¬ code x <+: code y

/-- The greedy decoder goes on where it stopped. -/
theorem greedy_append {c c' c'' xs xs' : Bits} {o o' o'' : Bool} {ys ys' : List Byte}
    (h : Greedy code c o xs c' o' ys) (h' : Greedy code c' o' xs' c'' o'' ys') :
    Greedy code c o (xs ++ xs') c'' o'' (ys ++ ys') := by
  induction h with
  | done => exact h'
  | dropped x _ ih => exact .dropped x (ih h')
  | full x hc _ ih => exact .full x hc (ih h')
  | hit x t hc ht _ ih => exact .hit x t hc ht (ih h')
  | miss x hc hmiss _ ih => exact .miss x hc hmiss (ih h')

/-- With `p` as its candidate, the decoder meets no code before the rest `q` of the code of `x` is over: a code that
ended earlier would begin that of `x`. -/
theorem greedy_code (hcode : PrefixCode code) {x : Byte} {p q rest c : Bits} {o : Bool} {ys : List Byte}
    (hx : code x = p ++ q) (hq : q ≠ []) (h : Greedy code p false (q ++ rest) c o ys) :
    ∃ zs, ys = x :: zs ∧ Greedy code [] false rest c o zs := by
  induction q generalizing p with
  | nil => exact absurd rfl hq
  | cons b q ih =>
    have hx' : code x = p ++ [b] ++ q := hx.trans (List.append_cons p b q)
    rw [List.cons_append] at h
    cases h with
    | full _ hfull =>
      have hlen := hcode.lengths x
      rw [hx, List.length_append, List.length_cons] at hlen
      omega
    | hit _ y _ hy hrest =>
      have hyx : y = x := by
        by_contra hne
        exact hcode.free y x hne (by rw [hy]; simp) ⟨q, by rw [hx', hy]⟩
      subst hyx
      obtain rfl : q = [] := List.append_cancel_left (hx'.symm.trans (hy.trans (List.append_nil _).symm))
      exact ⟨_, rfl, hrest⟩
    | miss _ _ hmiss hrest =>
      have hq' : q ≠ [] := by
        rintro rfl
        exact hmiss x hx
      exact ih hx' hq' hrest

/-- The greedy decoder over the codes of a text gives the text and ends with no candidate. -/
theorem greedy_text (hcode : PrefixCode code) (hcoded : ∀ x ∈ text, code x ≠ []) {c : Bits} {o : Bool} {ys : List Byte}
    (h : Greedy code [] false (text.flatMap code) c o ys) : c = [] ∧ ys = text := by
  induction text generalizing ys with
  | nil => cases h; exact ⟨rfl, rfl⟩
  | cons x text ih =>
    obtain ⟨hx, htext⟩ := List.forall_mem_cons.mp hcoded
    rw [List.flatMap_cons] at h
    obtain ⟨zs, rfl, hrest⟩ := greedy_code hcode rfl hx h
    obtain ⟨hc, rfl⟩ := ih htext hrest
    exact ⟨hc, rfl⟩

/-! ### The body bytes of a decode run (R202, R203) -/

/-- `t` is `s` after the body bits `S` came in during a decode run: the newest `UPADN` bits stay held, and the others
went through the greedy decoder. -/
structure Decodes (s : State) (S : Bits) (t : State) : Prop where
  released : ∃ out syms, out ++ t.hb = s.hb ++ S ∧ Greedy (codeOf s) s.cand s.candOvf out t.cand t.candOvf syms ∧
    t.osyms = s.osyms ++ syms
  held : t.hb.length = min s.upadn.toNat (s.hb.length + S.length)
  frame : t = { s with hb := t.hb, cand := t.cand, candOvf := t.candOvf, osyms := t.osyms, cmdCnt := t.cmdCnt }

theorem decodes_nil (h : s.hb.length ≤ s.upadn.toNat) : Decodes s [] s :=
  ⟨⟨[], [], by simp, .done _ _, by simp⟩, by simp [h], rfl⟩

theorem Decodes.append {S S' : Bits} (h : Decodes s S t) (h' : Decodes t S' u) : Decodes s (S ++ S') u where
  released := by
    obtain ⟨out, syms, hbits, hgreedy, hsyms⟩ := h.released
    obtain ⟨out', syms', hbits', hgreedy', hsyms'⟩ := h'.released
    have hcode : codeOf t = codeOf s := funext (codeOf_congr (by rw [h.frame]))
    exact ⟨out ++ out', syms ++ syms', by rw [List.append_assoc, hbits', ← List.append_assoc, hbits, List.append_assoc],
      greedy_append hgreedy (hcode ▸ hgreedy'), by rw [hsyms', hsyms, List.append_assoc]⟩
  held := by
    have hupadn : t.upadn = s.upadn := by rw [h.frame]
    rw [h'.held, hupadn, h.held, List.length_append]
    omega
  frame := by rw [h'.frame, h.frame]

/-- One body byte of a decode run (R202, R205). -/
theorem decodes_takeBody (hm : s.umode = false) (b : Byte) : Decodes s (bits8 b) (countCommand (takeBody b s)) := by
  obtain ⟨cand, candOvf, syms, hfold, hgreedy⟩ := foldl_deliver_decode
    ((s.hb ++ bits8 b).take ((s.hb ++ bits8 b).length - s.upadn.toNat)) hm
  have hbody := takeBody_eq b s
  rw [hfold] at hbody
  rw [hbody]
  refine ⟨⟨_, syms, List.take_append_drop _ _, hgreedy, rfl⟩, ?_, rfl⟩
  rw [countCommand_hb, holdBits_hb, List.length_drop, List.length_append, bits8_length]
  omega

/-- The body bytes of a decode run, one after the other. -/
theorem execAll_bodyBytes (body : List Byte) (he : s.err = 0#8) (ha : s.uact = true) (hh : s.uhdr = true)
    (hm : s.umode = false) (hheld : s.hb.length ≤ s.upadn.toNat) :
    ∃ t, execAll (body.map .ubyte) s = .next t ∧ Decodes s (body.flatMap bits8) t := by
  induction body generalizing s with
  | nil => exact ⟨s, rfl, decodes_nil hheld⟩
  | cons b body ih =>
    have hstep := decodes_takeBody hm b
    have hexec := exec_of_effect he (.body (b := b) ha hh)
    generalize countCommand (takeBody b s) = v at hstep hexec
    have hframe := hstep.frame
    obtain ⟨t, hrun, ht⟩ := ih (s := v) (by rw [hframe, he]) (by rw [hframe, ha]) (by rw [hframe, hh])
      (by rw [hframe, hm]) (by
        have hupadn : v.upadn = s.upadn := by rw [hframe]
        rw [hstep.held, hupadn]
        exact Nat.min_le_left _ _)
    exact ⟨t, (execAll_cons hexec _).trans hrun, hstep.append ht⟩

/-! ### A whole decode run (R201 to R207) -/

/-- `s` after a decode run was opened in it and its pad count `N` came in (R201, R202). -/
def openedDecode (N : Byte) (s : State) : State :=
  { s with
    uact := true, umode := false, uhdr := true, upadn := N, hb := [], cand := [], candOvf := false,
    cmdCnt := s.cmdCnt + 1#32 + 1#32 }

theorem execAll_openDecode (he : s.err = 0#8) (hu : s.uact = false) (N : Byte) (rest : List Instr) :
    execAll (.ubegin 0#1 :: .ubyte N :: rest) s = execAll rest (openedDecode N s) :=
  (execAll_cons (exec_of_effect he (.ubegin (m := 0#1) hu)) _).trans
    (execAll_cons (exec_of_effect (s := countCommand { s with
      uact := true, umode := false, uhdr := false, upadn := 0#8, hb := [], cand := [], candOvf := false }) he
      (.header rfl rfl)) rest)

/-- A payload is the pad count and then the bytes of the bit sequence and its padding (R187). -/
theorem payload_split {payload : List Byte} {B : Bits} (h : payload.flatMap bits8 = payloadBits B) :
    ∃ body, payload = BitVec.ofNat 8 (8 - B.length % 8) :: body ∧
      body.flatMap bits8 = B ++ zeroBits (8 - B.length % 8) := by
  rw [payloadBits, List.append_assoc] at h
  cases payload with
  | nil =>
    have hlen := congrArg List.length h
    rw [List.length_append, bits8_length] at hlen
    exact absurd hlen (by simp only [List.flatMap_nil, List.length_nil]; omega)
  | cons b body =>
    rw [List.flatMap_cons] at h
    obtain ⟨hb, hbody⟩ := List.append_inj h (by rw [bits8_length, bits8_length])
    have hb' := congrArg byteOf hb
    rw [byteOf_bits8, byteOf_bits8] at hb'
    exact ⟨body, by rw [hb'], hbody⟩

/-- A decode run over a payload (R207). -/
def decodeCommands (payload : List Byte) : List Instr := .ubegin 0#1 :: payload.map .ubyte ++ [.uend]

/-- A decode run over the payload of the codes of a text, where no code begins another, emits the text and ends without
a fault (R207 (b)). -/
theorem execAll_decodingRun {payload : List Byte} (he : s.err = 0#8) (hu : s.uact = false)
    (hcode : PrefixCode (codeOf s)) (hcoded : ∀ x ∈ text, codeOf s x ≠ [])
    (hpayload : payload.flatMap bits8 = payloadBits (text.flatMap (codeOf s))) :
    ∃ t, execAll (decodeCommands payload) s = .next t ∧ t.err = 0#8 ∧ t.osyms = s.osyms ++ text := by
  obtain ⟨body, rfl, hbody⟩ := payload_split hpayload
  generalize hB : text.flatMap (codeOf s) = B at hbody ⊢
  have hN : (BitVec.ofNat 8 (8 - B.length % 8)).toNat = 8 - B.length % 8 := Nat.mod_eq_of_lt (by omega)
  obtain ⟨t, hrun, ht⟩ := execAll_bodyBytes (s := openedDecode (BitVec.ofNat 8 (8 - B.length % 8)) s) body he rfl rfl
    rfl (Nat.zero_le _)
  obtain ⟨out, syms, hbody', hgreedy, hsyms⟩ := ht.released
  have hbits : out ++ t.hb = B ++ zeroBits (8 - B.length % 8) := hbody'.trans hbody
  have hheld : t.hb.length = 8 - B.length % 8 := by
    have hheld := ht.held
    rw [hbody, List.length_append, zeroBits_length] at hheld
    simp only [openedDecode, hN, List.length_nil] at hheld
    omega
  have hout : out = B := (List.append_inj' hbits (by rw [hheld, zeroBits_length])).1
  rw [hout, ← hB] at hgreedy
  obtain ⟨hcand, rfl⟩ := greedy_text hcode hcoded hgreedy
  have hframe := ht.frame
  have huend := exec_of_effect (s := t) (by rw [hframe]; exact he) (.uend (by rw [hframe]; rfl) (by rw [hframe]; rfl)
    (by rw [hheld, hframe]; exact hN.le) fun _ => hcand)
  refine ⟨countCommand { t with hb := [], uact := false, uhdr := false }, ?_, by rw [hframe]; exact he, hsyms⟩
  rw [decodeCommands, List.map_cons, List.cons_append, List.cons_append, execAll_openDecode he hu, execAll_append hrun]
  exact execAll_cons huend []

end Sys2Proof.Machine
end

section
/-! Coding a text: the codes that counting a text, building the tree and walking it leave, and the payload of the text
under them (R130, R144, R161, R182, R187). -/

namespace Sys2Proof.Machine

open Sys2Proof.Safety

variable {s t u : State} {text : List Byte}

/-! ### The codes of a text's tree (R144, R164) -/

/-- `BUILD` leaves one leaf per present symbol: the merges keep the leaves that the load made (R141, R144). -/
theorem leafSymbols_buildTree (s : State) : leafSymbols (buildTree s) = presentSymbols s := by
  have hload : leafSymbols (loadTree s) = presentSymbols s := by
    have h := loadTree_spec s
    refine List.ext_getElem (by simp [leafSymbols, h.nleaf]) fun k hk hk' => ?_
    simp [leafSymbols, h.node, hk', leafFor]
  have hmerges : TreeOk (buildTree s) ∧ leafSymbols (buildTree s) = leafSymbols (loadTree s) :=
    mergeWhile_preserves (P := fun u => TreeOk u ∧ leafSymbols u = leafSymbols (loadTree s)) (fun u hu hq => by
      obtain ⟨htree, hleaves⟩ := hu
      obtain ⟨a, b, hl, hm⟩ := merged_mergeOnce htree hq
      refine ⟨Merged.treeOk htree hq hl hm, Eq.trans ?_ hleaves⟩
      rw [leafSymbols, leafSymbols, hm.nleaf]
      refine List.map_congr_left fun k hk => ?_
      rw [Merged.node_of_lt hm ((List.mem_range.mp hk).trans_le htree.sizes.1)])
      Config.nsym ⟨treeOk_loadTree s, rfl⟩
  exact hmerges.2.trans hload

/-- A walk leaves a code table with everything R37 to R40 say of one, whatever was there before. -/
theorem codeTableOk_of_walked (htree : TreeOk s) (h : walkTree s = .ok t) : CodeTableOk { t with cstg := [] } := by
  rcases walkTree_cases h with ⟨-, rfl⟩ | ⟨-, -, rfl⟩ | ⟨hq, hroot, rfl⟩
  · exact codeTableOk_of_empty (fun _ => rfl) rfl (Nat.zero_le _)
  · exact codeTableOk_lone (fun y => codeOf_setCode (clearCodes s) (nodeAt s (rootSlot s)).sym y [false]) rfl
      (Nat.zero_le _)
  · exact codeTableOk_walked htree (by rw [hq]; rfl) hroot rfl rfl (Nat.zero_le _)

/-- `t` is `s` after `text` was counted, its tree built, and the tree walked. -/
structure DerivesCodes (s : State) (text : List Byte) (t : State) : Prop where
  counts : ∀ x, (countOf t x).toNat = text.count x
  table : CodeTableOk { t with cstg := [] }
  prefixFree : PrefixCode (codeOf t)
  coded : ∀ x ∈ text, codeOf t x ≠ []
  frame : t = { s with
    ft := t.ft, total := t.total, nodes := t.nodes, inq := t.inq, nnode := t.nnode, nleaf := t.nleaf, qcnt := t.qcnt,
    ct := t.ct, ncode := t.ncode, cmdCnt := t.cmdCnt }

/-- Every symbol of a counted text is present (R130). -/
theorem CountsText.mem_presentSymbols (h : CountsText s text u) {x : Byte} (hx : x ∈ text) : x ∈ presentSymbols u := by
  have hcount := h.count x
  have hpos := List.count_pos_iff.mpr hx
  rw [presentSymbols, List.mem_filter, decide_eq_true_eq, and_iff_right (mem_allSymbols x)]
  bv_omega

/-- `BUILD` and `WALK` behind a counted text leave its codes (R164). -/
theorem CountsText.derivesCodes (h : CountsText s text u) (he : u.err = 0#8) :
    ∃ t, execAll [.build, .walk] u = .next t ∧ DerivesCodes s text t := by
  have hbuild := exec_of_effect he .build
  have hbuildFrame := buildTree_frame u
  have htree := treeOk_buildTree u
  have hleaves := leafSymbols_buildTree u
  have hq : (buildTree u).qcnt.toNat < 2 := by
    rw [buildTree_qcnt]
    omega
  generalize buildTree u = b at *
  have herr : (countCommand b).err = 0#8 := by rw [countCommand_err, hbuildFrame, he]
  obtain ⟨w, hw⟩ := exists_walkTree (s := countCommand b) hq
  have hwalk := exec_of_effect herr (.walk hw)
  have hwalkFrame := walkTree_frame hw
  have htable := codeTableOk_of_walked (treeOk_countCommand htree) hw
  obtain ⟨t, ht, -, -, hcoded, hfree⟩ := walkIsPrefixFree _ herr (treeOk_countCommand htree) hq
  obtain rfl := Host.Outcome.next.inj (hwalk.symm.trans ht)
  refine ⟨_, (execAll_cons hbuild _).trans (execAll_cons hwalk []), fun x => ?_,
    ⟨htable.lengths, htable.distinct, htable.count, htable.staged⟩,
    ⟨fun x => htable.lengths x (mem_allSymbols x), fun x y hxy hx hpre => ?_⟩, fun x hx => ?_, ?_⟩
  · have hft : (countCommand w).ft = u.ft := by rw [countCommand_ft, hwalkFrame, countCommand_ft, hbuildFrame]
    rw [countOf_congr hft, h.count]
  · refine hfree x y hxy hx (fun hy => hx ?_) hpre
    rwa [hy, List.prefix_nil] at hpre
  · exact (hcoded x).mpr (mem_leafSymbols.mp (hleaves ▸ h.mem_presentSymbols hx))
  · rw [hwalkFrame, hbuildFrame, h.frame]
    rfl

/-- Counting a text, building its tree and walking it. -/
def deriveCommands (text : List Byte) : List Instr := .fclr :: text.map .facc ++ [.build, .walk]

/-- Counting a text, building its tree and walking it leave the codes of the text (R130, R144, R161). -/
theorem execAll_deriveCodes (he : s.err = 0#8) (hlen : text.length ≤ 4294967295) :
    ∃ t, execAll (deriveCommands text) s = .next t ∧ DerivesCodes s text t := by
  obtain ⟨u, hrun, hu⟩ := execAll_countText he text hlen
  obtain ⟨t, hrest, ht⟩ := hu.derivesCodes (by rw [hu.frame, he])
  exact ⟨t, (execAll_append hrun _).trans hrest, ht⟩

/-! ### The payload of a text (R182, R184, R187) -/

/-- A sum over a text is a sum over the symbols, each with its count. -/
theorem sum_map_eq_sum_count (f : Byte → Nat) (text : List Byte) :
    (text.map f).sum = (allSymbols.map fun x => text.count x * f x).sum := by
  rw [Finset.sum_list_map_count, ← List.sum_toFinset _ allSymbols_nodup]
  refine Finset.sum_subset (fun x _ => List.mem_toFinset.mpr (mem_allSymbols x)) fun x _ hx => ?_
  rw [List.count_eq_zero.mpr (mt List.mem_toFinset.mpr hx), zero_smul]

/-- The coded length that `PBEGT` reads off the counters is the length of the text's codes (R182). -/
theorem codedLength_of_counts (h : ∀ x, (countOf s x).toNat = text.count x) :
    codedLength s = (text.flatMap (codeOf s)).length := by
  rw [List.length_flatMap, sum_map_eq_sum_count, codedLength]
  simp only [h]

/-- The `ENC`s of a text whose symbols all have codes are a body of their codes (R180). -/
theorem packBody_encs {code : Byte → Bits} (h : ∀ x ∈ text, code x ≠ []) :
    PackBody code (text.map .enc) (text.flatMap code) := by
  induction text with
  | nil => exact .nil
  | cons x text ih =>
    obtain ⟨hx, htext⟩ := List.forall_mem_cons.mp h
    exact .enc x hx (ih htext)

/-- Encoding a text behind `PBEGT`. -/
def encodeCommands (text : List Byte) : List Instr := .pbegt :: text.map .enc ++ [.pend]

/-- Encoding a text behind `PBEGT`, with the text's own counters, emits its payload without a fault (R182, R187). -/
theorem execAll_encode (he : s.err = 0#8) (hp : s.pact = false) (hcounts : ∀ x, (countOf s x).toNat = text.count x)
    (hcoded : ∀ x ∈ text, codeOf s x ≠ []) :
    ∃ t, execAll (encodeCommands text) s = .next t ∧ PacksRun s (text.flatMap (codeOf s)) t := by
  obtain ⟨t, hrun, hfit, -⟩ :=
    execAll_packingRun (Nat.mod_lt (codedLength s) (by decide)) he (packBody_encs hcoded)
  exact ⟨t, (execAll_cons (exec_pbegt_opens he hp) _).trans hrun, hfit (by rw [codedLength_of_counts hcounts])⟩

end Sys2Proof.Machine
end

section
/-! The container blob and the serialized code table: `read` undoes `write`, and `deserialize` undoes `serialize`
(45_container_host.md R220 to R224). -/

namespace Sys2Proof.Machine

open Sys2Proof.Safety

variable {s : State}

/-! ### The blob (R221, R222) -/

/-- The number of the four bytes in front of a table, read back (R221, R222). -/
theorem le32_value {n : Nat} (h : n < 2 ^ 32) : (BitVec.ofNat 8 n).toNat + 256 * (BitVec.ofNat 8 (n / 256)).toNat +
    65536 * (BitVec.ofNat 8 (n / 65536)).toNat + 16777216 * (BitVec.ofNat 8 (n / 16777216)).toNat = n := by
  simp only [BitVec.toNat_ofNat]
  omega

theorem readBlob_writeBlob {table : List Byte} (payload : List Byte) (h : table.length < 2 ^ 32) :
    readBlob (writeBlob table payload) = .ok (table, payload) := by
  have hlen : ¬ (table ++ payload).length < table.length := by
    rw [List.length_append]
    omega
  rw [writeBlob, le32, List.append_assoc]
  simp only [List.cons_append, List.nil_append, readBlob, le32_value h, hlen, if_false, List.take_left, List.drop_left]

/-! ### The entries of a table (R224) -/

/-- A code's bytes are its bits and zeros (R224). -/
theorem alignedBytes_spec (c : Bits) : (alignedBytes c).length = codeBytes c.length ∧
    (alignedBytes c).flatMap bits8 = c ++ zeroBits (8 * codeBytes c.length - c.length) := by
  have hle : c.length ≤ 8 * codeBytes c.length := by
    rw [codeBytes]
    omega
  have hlen : (c ++ zeroBits (8 * codeBytes c.length - c.length)).length = 8 * codeBytes c.length := by
    rw [List.length_append, zeroBits_length]
    omega
  obtain ⟨hbits, hbytes, hrest⟩ := cutBytes_spec (fuel := codeBytes c.length)
    (S := c ++ zeroBits (8 * codeBytes c.length - c.length)) (by omega)
  rw [hlen] at hbytes hrest
  rw [List.length_eq_zero_iff.mp (hrest.trans (Nat.mul_mod_right _ _)), List.append_nil] at hbits
  exact ⟨hbytes.trans (Nat.mul_div_cancel_left _ (by decide)), hbits⟩

/-- Reading one entry and then the rest undoes serializing them (R224). -/
theorem parseEntries_entryBytes {n : Nat} {prev : Option Byte} {x : Byte} {c : Bits} {rest : List Byte}
    {es : List (Byte × Bits)} (hne : c ≠ []) (hlen : c.length ≤ 255) (hrise : ascends prev x = true)
    (hrest : parseEntries n (some x) rest = .ok es) :
    parseEntries (n + 1) prev (entryBytes (x, c) ++ rest) = .ok ((x, c) :: es) := by
  obtain ⟨hbytes, hbits⟩ := alignedBytes_spec c
  have hk : (BitVec.ofNat 8 c.length).toNat = c.length := Nat.mod_eq_of_lt (by omega)
  have hpos : c.length ≠ 0 := mt List.length_eq_zero_iff.mp hne
  have hroom : ¬ (alignedBytes c ++ rest).length < codeBytes c.length := by
    rw [List.length_append, hbytes]
    omega
  have hpadding : (zeroBits (8 * codeBytes c.length - c.length)).any id = false := by
    simp [zeroBits]
  rw [entryBytes, List.cons_append, List.cons_append, parseEntries]
  simp only [hk, hpos, hrise, hroom, List.take_left' hbytes, List.drop_left' hbytes, hbits, List.drop_left,
    List.take_left, hpadding, hrest, Bool.true_eq_false, Bool.false_eq_true, or_false, if_false]

/-- Reading entries undoes serializing them, where their symbols rise from the one before (R224). -/
theorem parseEntries_flatMap (es : List (Byte × Bits)) {prev : Option Byte}
    (hes : ∀ e ∈ es, e.2 ≠ [] ∧ e.2.length ≤ 255) (hrise : es.Pairwise fun e f => e.1.toNat < f.1.toNat)
    (hprev : ∀ e ∈ es, ascends prev e.1 = true) : parseEntries es.length prev (es.flatMap entryBytes) = .ok es := by
  induction es generalizing prev with
  | nil => rfl
  | cons e es ih =>
    obtain ⟨⟨hne, hlen⟩, hes⟩ := List.forall_mem_cons.mp hes
    obtain ⟨hfirst, hrise⟩ := List.pairwise_cons.mp hrise
    rw [List.flatMap_cons]
    exact parseEntries_entryBytes hne hlen (hprev e List.mem_cons_self)
      (ih hes hrise fun f hf => decide_eq_true (hfirst f hf))

/-- `deserialize` undoes serializing at most 256 entries with rising symbols (R224). -/
theorem deserializeTable_serializeEntries {es : List (Byte × Bits)} (hcount : es.length ≤ 256)
    (hes : ∀ e ∈ es, e.2 ≠ [] ∧ e.2.length ≤ 255) (hrise : es.Pairwise fun e f => e.1.toNat < f.1.toNat) :
    deserializeTable (serializeEntries es) = .ok es := by
  have hn : (BitVec.ofNat 8 es.length).toNat + 256 * (BitVec.ofNat 8 (es.length / 256)).toNat = es.length := by
    simp only [BitVec.toNat_ofNat]
    omega
  rw [serializeEntries, deserializeTable, hn, if_neg (not_or.mpr ⟨not_not.mpr rfl, not_lt.mpr hcount⟩)]
  exact parseEntries_flatMap es hes hrise fun _ _ => rfl

/-! ### The table of the block (R224) -/

theorem tableEntries_length_le (s : State) : (tableEntries s).length ≤ 256 := by
  rw [tableEntries_eq, List.length_map]
  exact (List.length_filter_le _ _).trans_eq allSymbols_length

/-- Every entry of a code table has a code that fits its length byte (R37, R224). -/
theorem tableEntries_codes (hlen : ∀ x, (codeOf s x).length ≤ 255) :
    ∀ e ∈ tableEntries s, e.2 ≠ [] ∧ e.2.length ≤ 255 := by
  intro e he
  rw [tableEntries_eq, List.mem_map] at he
  obtain ⟨x, hx, rfl⟩ := he
  exact ⟨mem_codedSymbols.mp hx, hlen x⟩

theorem tableEntries_pairwise (s : State) : (tableEntries s).Pairwise fun e f => e.1.toNat < f.1.toNat := by
  rw [tableEntries_eq, List.pairwise_map]
  exact allSymbols_pairwise.filter _

theorem deserializeTable_serializeTable (hlen : ∀ x, (codeOf s x).length ≤ 255) :
    deserializeTable (serializeTable s) = .ok (tableEntries s) :=
  deserializeTable_serializeEntries (tableEntries_length_le s) (tableEntries_codes hlen) (tableEntries_pairwise s)

/-- The length of a serialized table fits the four bytes in front of it: an entry is at most 34 bytes (R221, R224). -/
theorem serializeTable_length_lt (hlen : ∀ x, (codeOf s x).length ≤ 255) : (serializeTable s).length < 2 ^ 32 := by
  have hentry : ∀ n ∈ (tableEntries s).map fun e => (entryBytes e).length, n ≤ 34 := by
    intro n hn
    obtain ⟨e, he, rfl⟩ := List.mem_map.mp hn
    obtain ⟨-, hle⟩ := tableEntries_codes hlen e he
    rw [entryBytes, List.length_cons, List.length_cons, (alignedBytes_spec e.2).1, codeBytes]
    omega
  have hsum := List.sum_le_card_nsmul _ 34 hentry
  have hcount := tableEntries_length_le s
  rw [List.length_map, smul_eq_mul] at hsum
  rw [serializeTable, serializeEntries, List.length_cons, List.length_cons, List.length_cons, List.length_flatMap]
  omega

end Sys2Proof.Machine
end

section
/-! The round trip of the codec: a text through the block and back, and through the container blob (R187, R207, R225 to
R229). -/

namespace Sys2Proof.Machine

open Sys2Proof.Safety

variable {s t u : State} {text : List Byte} {l : List Instr}

/-! ### Encoding and decoding in the block (R187, R207) -/

/-- Counting a text, building and walking its tree and encoding it gives a payload that a decode run turns into the
text. -/
theorem execAll_codec (he : s.err = 0#8) (hp : s.pact = false) (hu : s.uact = false) (hlen : text.length ≤ 4294967295) :
    ∃ t u payload, execAll (deriveCommands text ++ encodeCommands text) s = .next t ∧ t.err = 0#8 ∧
      t.obytes = s.obytes ++ payload ∧ execAll (decodeCommands payload) t = .next u ∧ u.err = 0#8 ∧
      u.osyms = s.osyms ++ text := by
  obtain ⟨c, hderive, hc⟩ := execAll_deriveCodes he hlen
  have hcframe := hc.frame
  obtain ⟨t, hencode, ht⟩ := execAll_encode (by rw [hcframe, he]) (by rw [hcframe, hp]) hc.counts hc.coded
  obtain ⟨payload, hout, hbits⟩ := ht.payload
  have htframe := ht.frame
  have hcode : codeOf t = codeOf c := funext (codeOf_congr (by rw [htframe]))
  have herr : t.err = 0#8 := by rw [htframe, hcframe, he]
  obtain ⟨u, hdecode, hclean, hsyms⟩ := execAll_decodingRun herr (by rw [htframe, hcframe, hu])
    (hcode ▸ hc.prefixFree) (hcode ▸ hc.coded) (hcode ▸ hbits)
  have hobytes : c.obytes = s.obytes := by rw [hcframe]
  have hosyms : t.osyms = s.osyms := by rw [htframe, hcframe]
  exact ⟨t, u, payload, (execAll_append hderive _).trans hencode, herr, hobytes ▸ hout, hdecode, hclean, hosyms ▸ hsyms⟩

/-! ### Reading `ERR` and the words of `CRD` (R225, R226) -/

/-- `RD ERR` outside the fault state returns 0 (R243). -/
theorem exec_rdErr (he : s.err = 0#8) : exec (.rd 0x02#8) s = .next (countCommand (emitRsp s [0#32])) :=
  exec_of_effect he (.rd (by rw [registerValue, he]; rfl))

/-- The entries come from the first nine words per symbol; later words play no part (R225). -/
theorem responseEntries_append (xs : List Byte) {ws : List Word} (h : ws.length = 9 * xs.length) (rest : List Word) :
    responseEntries xs (ws ++ rest) = responseEntries xs ws := by
  induction xs generalizing ws with
  | nil => rfl
  | cons x xs ih =>
    rw [List.length_cons] at h
    have hfirst : (ws.take 9).length = 9 := by rw [List.length_take]; omega
    rw [← List.take_append_drop 9 ws, List.append_assoc, responseEntries_cons x xs hfirst,
      responseEntries_cons x xs hfirst, ih (by rw [List.length_drop]; omega)]

theorem length_flatMap_crdWords (s : State) (xs : List Byte) : (xs.flatMap (crdWords s)).length = 9 * xs.length := by
  simp [List.length_flatMap, crdWords, Nat.mul_comm]

/-- What the host serializes from the words of `CRD 0 ... CRD 255` and whatever follows them (R225). -/
theorem serializeResponses_crds (hlen : ∀ x, (codeOf s x).length ≤ 255) (rest : List Word) :
    serializeResponses (allSymbols.flatMap (crdWords s) ++ rest) = serializeTable s := by
  rw [serializeResponses, responseEntries_append _ (length_flatMap_crdWords s allSymbols), responseEntries_crds hlen,
    serializeTable, tableEntries_eq, codedSymbols]

theorem serializeTable_congr (h : t.ct = s.ct) : serializeTable t = serializeTable s := by
  simp only [serializeTable, tableEntries, codeOf_congr h]

/-! ### Compressing (R226) -/

/-- `t` is what the canonical compression sequence of `text` leaves: the codes derived in `c`, the payload under them,
and the words of `CRD` and of `RD ERR`. -/
structure Compressed (text : List Byte) (c t : State) : Prop where
  noFault : t.err = 0#8
  codes : t.ct = c.ct
  payload : t.obytes.flatMap bits8 = payloadBits (text.flatMap (codeOf c))
  responses : t.rsp = allSymbols.flatMap (crdWords c) ++ [0#32]

/-- The canonical compression sequence in its parts (R226). -/
theorem compressCommands_eq (text : List Byte) : compressCommands text =
    .rst :: (deriveCommands text ++ (allSymbols.map .crd ++ (encodeCommands text ++ [.rd 0x02#8]))) := by
  simp only [compressCommands, deriveCommands, encodeCommands, faccs, encs, List.append_assoc, List.cons_append,
    List.nil_append]

/-- The canonical compression sequence, from whatever state (R226). -/
theorem execAll_compressCommands (s : State) (hlen : text.length ≤ 4294967295) :
    ∃ c t, DerivesCodes (resetBlock s) text c ∧ execAll (compressCommands text) s = .next t ∧ Compressed text c t := by
  obtain ⟨c, hderive, hc⟩ := execAll_deriveCodes (s := resetBlock s) rfl hlen
  have hcframe := hc.frame
  have hcerr : c.err = 0#8 := by rw [hcframe]; rfl
  have hcpact : c.pact = false := by rw [hcframe]; rfl
  have hcobytes : c.obytes = [] := by rw [hcframe]; rfl
  have hcrsp : c.rsp = [] := by rw [hcframe]; rfl
  obtain ⟨d, hcrds, hd⟩ : ∃ d, execAll (allSymbols.map .crd) c = .next d ∧
      d = { c with rsp := c.rsp ++ allSymbols.flatMap (crdWords c), cmdCnt := d.cmdCnt } :=
    ⟨_, execAll_crds hcerr allSymbols, rfl⟩
  have hcount : countOf d = countOf c := funext (countOf_congr (by rw [hd]))
  have hcode : codeOf d = codeOf c := funext (codeOf_congr (by rw [hd]))
  obtain ⟨t, hencode, hpayload, htframe⟩ := execAll_encode (s := d) (text := text) (by rw [hd, hcerr])
    (by rw [hd, hcpact]) (hcount ▸ hc.counts) (hcode ▸ hc.coded)
  obtain ⟨payload, hout, hbits⟩ := hpayload
  have hterr : t.err = 0#8 := by rw [htframe, hd, hcerr]
  have htrsp : t.rsp = allSymbols.flatMap (crdWords c) := by rw [htframe, hd, hcrsp, List.nil_append]
  have htobytes : t.obytes = payload := by rw [hout, hd, hcobytes, List.nil_append]
  refine ⟨c, countCommand (emitRsp t [0#32]), hc, ?_, ⟨hterr, by rw [countCommand_ct, emitRsp_ct, htframe, hd], ?_, ?_⟩⟩
  · rw [compressCommands_eq, execAll_cons (exec_rst s), execAll_append hderive, execAll_append hcrds,
      execAll_append hencode]
    exact execAll_cons (exec_rdErr hterr) []
  · rw [countCommand_obytes, emitRsp_obytes, htobytes, hbits, hcode]
  · rw [countCommand_rsp, emitRsp_rsp, htrsp]

/-! ### Decompressing (R227) -/

/-- What each command of a list keeps, the list keeps. -/
theorem execAll_keeps {α : Type} (f : State → α) (hexec : ∀ i ∈ l, ∀ s t, exec i s = .next t → f t = f s)
    (h : execAll l s = .next t) : f t = f s := by
  induction l generalizing s with
  | nil => cases h; rfl
  | cons i l ih =>
    obtain ⟨hi, hl⟩ := List.forall_mem_cons.mp hexec
    obtain ⟨v, hv⟩ := exec_next i s
    rw [execAll_cons hv] at h
    exact (ih hl h).trans (hi s v hv)

/-- The commands that load a table write neither the unpacker nor its streams (R225). -/
theorem loadTableCommands_not_unpacker (es : List (Byte × Bits)) :
    ∀ i ∈ loadTableCommands es, writesUnpacker i = false ∧ writesDecoded i = false := by
  simp only [loadTableCommands, codeCommands, chunkCommands, List.mem_cons, List.mem_flatMap, List.mem_append,
    List.mem_map, List.not_mem_nil, or_false]
  rintro i (rfl | ⟨e, -, ⟨c, -, rfl⟩ | rfl⟩)
  · exact ⟨rfl, rfl⟩
  · exact ⟨rfl, rfl⟩
  · exact ⟨rfl, rfl⟩

/-- Loading a table leaves the unpacker closed and its symbols as they are (R225). -/
theorem execAll_loadTable_unpacker {es : List (Byte × Bits)} (h : execAll (loadTableCommands es) s = .next t) :
    t.uact = s.uact ∧ t.osyms = s.osyms := by
  have hkeeps := execAll_keeps (fun v => (v.uact, v.osyms)) (fun i hi v w hvw => by
    obtain ⟨hunpacker, hdecoded⟩ := loadTableCommands_not_unpacker es i hi
    have hframes := exec_unitFrames hvw
    rw [(hframes.unpacker hunpacker).1, (hframes.decoded hdecoded).1]) h
  exact Prod.mk.inj hkeeps

/-- The canonical decompression sequence in its parts (R227). -/
theorem decompressCommands_eq (es : List (Byte × Bits)) (payload : List Byte) : decompressCommands es payload =
    .rst :: (loadTableCommands es ++ (decodeCommands payload ++ [.rd 0x02#8])) := by
  simp only [decompressCommands, decodeCommands, ubytes, List.append_assoc, List.cons_append, List.nil_append]

/-- The canonical decompression sequence for a table in which no code begins another and the payload of a text under it
gives the text, from whatever state (R227). -/
theorem execAll_decompressCommands (u : State) {c : State} {payload : List Byte} (htable : CodeTableOk c)
    (hfree : PrefixCode (codeOf c)) (hcoded : ∀ x ∈ text, codeOf c x ≠ [])
    (hpayload : payload.flatMap bits8 = payloadBits (text.flatMap (codeOf c))) :
    ∃ v, execAll (decompressCommands (tableEntries c) payload) u = .next v ∧ v.err = 0#8 ∧ v.osyms = text ∧
      decompressResult v = .ok text := by
  obtain ⟨w, hload, hwerr, hwcode, -, -⟩ := loadTable_restores (u := resetBlock u) htable rfl
  obtain ⟨hwuact, hwosyms⟩ := execAll_loadTable_unpacker hload
  have hcode : codeOf w = codeOf c := funext hwcode
  obtain ⟨v, hdecode, hverr, hvosyms⟩ := execAll_decodingRun hwerr hwuact (hcode ▸ hfree) (hcode ▸ hcoded)
    (hcode ▸ hpayload)
  have htext : v.osyms = text := by rw [hvosyms, hwosyms]; rfl
  refine ⟨countCommand (emitRsp v [0#32]), ?_, hverr, htext, ?_⟩
  · rw [decompressCommands_eq, execAll_cons (exec_rst u), execAll_append hload, execAll_append hdecode]
    exact execAll_cons (exec_rdErr hverr) []
  · rw [decompressResult, countCommand_rsp, emitRsp_rsp, ifNoFault_zero]
    exact congrArg _ htext

/-! ### The container blob (R226, R227, R229) -/

/-- Settles O57: no code of a text's tree begins another, so its payload decodes to it, in the block that derived the
codes and in one that loaded them from the blob. -/
theorem codecRoundTrip : Obligations.CodecRoundTrip := by
  unfold Obligations.CodecRoundTrip
  refine ⟨fun s text he hp hu hlen => ?_, fun s u text hlen => ?_⟩
  · obtain ⟨t, u, payload, hrun, hround⟩ := execAll_codec he hp hu hlen
    refine ⟨t, u, payload, ?_, hround⟩
    rw [← hrun]
    simp only [deriveCommands, encodeCommands, List.append_assoc, List.cons_append, List.nil_append]
  · obtain ⟨c, t, hc, hcompress, ht⟩ := execAll_compressCommands s hlen
    have hcstg : c.cstg = [] := by rw [hc.frame]; rfl
    have htable : CodeTableOk c := codeTableOk_congr (s := { c with cstg := [] }) rfl rfl (by simp [hcstg]) hc.table
    have hlengths := hc.prefixFree.lengths
    have hserial : serializeTable t = serializeTable c := serializeTable_congr ht.codes
    obtain ⟨v, hdecompress, hverr, hvosyms, hresult⟩ :=
      execAll_decompressCommands u htable hc.prefixFree hc.coded ht.payload
    have hblob : decompressBlob (writeBlob (serializeTable t) t.obytes) =
        .ok (decompressCommands (tableEntries c) t.obytes) := by
      rw [hserial, decompressBlob, readBlob_writeBlob _ (serializeTable_length_lt hlengths)]
      simp only [deserializeTable_serializeTable hlengths]
    refine ⟨t, v, _, _, hcompress, ht.noFault, rfl, ?_, hblob, hdecompress, hverr, hvosyms, ?_⟩
    · rw [compress, hostOperation_next hcompress, compressResult, ht.responses, serializeResponses_crds hlengths,
        ifNoFault_zero, hserial]
    · rw [decompress, hblob]
      exact (hostOperation_next hdecompress _).trans hresult

end Sys2Proof.Machine
end

section
/-! The statements of 44_unpacker_decoder.md: what `UBEGIN`, `UBYTE` and `UEND` do, command by command
(R201 to R206). -/

namespace Sys2Proof.Machine

open Sys2Proof.Safety

variable {s : State}

/-! ### Opening a run (R201) -/

/-- `s` after a run in mode `m` was opened in it (R201). -/
def openedUnpacking (m : BitVec 1) (s : State) : State :=
  { s with uact := true, umode := m == 1#1, uhdr := false, upadn := 0#8, hb := [], cand := [], candOvf := false }

theorem exec_ubegin_opens (he : s.err = 0#8) (hu : s.uact = false) (m : BitVec 1) :
    exec (.ubegin m) s = .next (countCommand (openedUnpacking m s)) := exec_of_effect he (.ubegin hu)

/-- A run cannot be opened inside a run (R201). -/
theorem openUnpacking_open (m : BitVec 1) (ha : s.uact = true) : openUnpacking m s = .error .seq := if_pos ha

/-- Settles O42: the effect of `UBEGIN`, and the fault of its rule. -/
theorem ubeginOpensARun : Obligations.UbeginOpensARun := by
  unfold Obligations.UbeginOpensARun
  exact ⟨assemble_setWidth (by decide) 0x50#8, rejectsReserved_reservedMask (op := 0x50#8) rfl,
    fun s m he => ⟨fun ha => exec_ubegin_opens he ha m,
      fun ha => (exec_ubegin m s).trans (runCommand_error he (openUnpacking_open m ha))⟩⟩

/-! ### The bytes of a run (R202 to R205) -/

/-- `UBYTE` outside a run (R202). -/
theorem takeByte_closed (b : Byte) (ha : s.uact = false) : takeByte b s = .error .seq := if_pos ha

/-- The bits of a byte, bit 7 first (R10, R73). -/
theorem bits8_eq_getLsbD (b : Byte) : bits8 b = [b.getLsbD 7, b.getLsbD 6, b.getLsbD 5, b.getLsbD 4, b.getLsbD 3,
    b.getLsbD 2, b.getLsbD 1, b.getLsbD 0] := rfl

/-- A body byte delivers `out` and leaves `held` in the FIFO, where these are the held bits and the byte's, cut before
the newest `UPADN` (R202, R203). -/
theorem takeBody_of_split {b : Byte} {out held : Bits} (hsplit : out ++ held = s.hb ++ bits8 b)
    (hheld : held.length = min s.upadn.toNat (s.hb.length + 8)) :
    takeBody b s = holdBits (out.foldl deliver s) held := by
  have hlen := congrArg List.length hsplit
  rw [List.length_append, List.length_append, bits8_length] at hlen
  have hout : (out ++ held).length - s.upadn.toNat = out.length := by rw [List.length_append]; omega
  rw [takeBody_eq, ← hsplit, hout, List.take_left, List.drop_left]

/-- A body byte in raw mode (R204). -/
theorem takeBody_raw {b : Byte} {out held : Bits} (hm : s.umode = true) (hsplit : out ++ held = s.hb ++ bits8 b)
    (hheld : held.length = min s.upadn.toNat (s.hb.length + 8)) :
    takeBody b s = { s with hb := held, obits := s.obits ++ out } := by
  rw [takeBody_of_split hsplit hheld, foldl_deliver_raw out hm, holdBits]

/-- Settles O43: the faults and the effects of `UBYTE`, the body byte by `takeBody_raw`. -/
theorem ubyteHoldsBackAndReleases : Obligations.UbyteHoldsBackAndReleases := by
  unfold Obligations.UbyteHoldsBackAndReleases
  refine ⟨assemble_setWidth (by decide) 0x51#8, rejectsReserved_reservedMask (op := 0x51#8) rfl, bits8_eq_getLsbD,
    fun s b he => ⟨fun ha => ?_, fun ha hh => exec_of_effect he (.header ha hh), ?_, fun hok => ?_⟩⟩
  · exact (exec_ubyte b s).trans (runCommand_error he (takeByte_closed b ha))
  · intro ha hh hm out held hsplit hheld
    rw [exec_of_effect he (.body ha hh), takeBody_raw hm hsplit hheld, countCommand]
  · have hheld := hok.held
    have hupadn := s.upadn.isLt
    rw [List.length_append, bits8_length]
    omega

/-- Settles O44: the delivered bits are those before the newest `UPADN`, and `foldl_deliver_decode` decodes them. -/
theorem ubyteDecodesGreedily : Obligations.UbyteDecodesGreedily := by
  unfold Obligations.UbyteDecodesGreedily
  intro s b out held he ha hh hm hsplit hheld
  obtain ⟨cand, candOvf, syms, hfold, hgreedy⟩ := foldl_deliver_decode out hm
  refine ⟨_, syms, exec_of_effect he (.body ha hh), ?_⟩
  rw [takeBody_of_split hsplit hheld, hfold]
  exact ⟨hgreedy, rfl⟩

/-! ### Closing a run (R206) -/

/-- `UEND` outside a run (R206). -/
theorem closeUnpacking_closed (ha : s.uact = false) : closeUnpacking s = .error .seq := if_pos ha

/-- `UEND` of a run over no byte (R206). -/
theorem closeUnpacking_empty (ha : s.uact = true) (hh : s.uhdr = false) : closeUnpacking s = .error .malformed := by
  rw [closeUnpacking, ha, if_neg (by decide), if_pos hh]

/-- `UEND` of a run over a body shorter than its pad count (R206). -/
theorem closeUnpacking_short (ha : s.uact = true) (hh : s.uhdr = true) (hl : s.hb.length < s.upadn.toNat) :
    closeUnpacking s = .error .malformed := by
  rw [closeUnpacking, ha, hh, if_neg (by decide), if_neg (by decide), if_pos hl]

/-- `UEND` of a decode run with unmatched bits (R206). -/
theorem closeUnpacking_unmatched (ha : s.uact = true) (hh : s.uhdr = true) (hl : ¬ s.hb.length < s.upadn.toNat)
    (hc : s.umode = false ∧ 1 ≤ s.cand.length) : closeUnpacking s = .error .unkCode := by
  rw [closeUnpacking, ha, hh, if_neg (by decide), if_neg (by decide), if_neg hl, if_pos hc]

/-- `UEND` where one of its checks fails (R206). -/
theorem exec_uend_fault {e : FaultCode} (he : s.err = 0#8) (h : closeUnpacking s = .error e) :
    exec .uend s = .next (afterFault (faultNumber e) (encode .uend) s) := (exec_uend s).trans (runCommand_error he h)

/-- Settles O45: the four checks in order, each by the fault of the rule, and behind them the effect of `UEND`. -/
theorem uendChecksAndCloses : Obligations.UendChecksAndCloses := by
  unfold Obligations.UendChecksAndCloses
  refine ⟨rfl, rejectsReserved_reservedMask (op := 0x52#8) rfl, fun s hok => ⟨hok.held.antisymm, hok.overflow⟩,
    fun s he => ?_⟩
  split
  · next ha => exact exec_uend_fault he (closeUnpacking_closed ha)
  · next ha =>
    have hact : s.uact = true := by simpa using ha
    split
    · next hh => exact exec_uend_fault he (closeUnpacking_empty hact hh)
    · next hh =>
      have hhdr : s.uhdr = true := by simpa using hh
      split
      · next hl => exact exec_uend_fault he (closeUnpacking_short hact hhdr hl)
      · next hl =>
        split
        · next hc => exact exec_uend_fault he (closeUnpacking_unmatched hact hhdr hl hc)
        · next hc =>
          have hcand (hm : s.umode = false) : s.cand = [] := by
            by_contra hne
            exact hc ⟨hm, List.length_pos_iff.mpr hne⟩
          exact exec_of_effect he (.uend hact hhdr (not_lt.mp hl) hcand)

end Sys2Proof.Machine
end

section
/-! Whole unpacking runs: a raw run takes the padding off its body, and a decode run over the payload of a packing run
gives the text (R207, R208). -/

namespace Sys2Proof.Machine

open Sys2Proof.Safety

variable {s : State}

/-! ### A raw run (R207 (a), (c)) -/

/-- The body bytes of a raw run emit their bits, the held ones first, but for the newest `UPADN` (R202 to R204). -/
theorem execAll_rawBody (body : List Byte) (he : s.err = 0#8) (ha : s.uact = true) (hh : s.uhdr = true)
    (hm : s.umode = true) (hle : s.hb.length ≤ s.upadn.toNat) : ∃ out held count,
      execAll (body.map .ubyte) s = .next { s with hb := held, obits := s.obits ++ out, cmdCnt := count } ∧
      out ++ held = s.hb ++ body.flatMap bits8 ∧
      held.length = min s.upadn.toNat (s.hb.length + 8 * body.length) := by
  induction body generalizing s with
  | nil => exact ⟨[], s.hb, s.cmdCnt, by simp, by simp, by simp [hle]⟩
  | cons b body ih =>
    obtain ⟨out, held, hsplit, hheld⟩ : ∃ out held, out ++ held = s.hb ++ bits8 b ∧
        held.length = min s.upadn.toNat (s.hb.length + 8) :=
      ⟨_, _, List.take_append_drop (s.hb.length + 8 - s.upadn.toNat) _, by
        rw [List.length_drop, List.length_append, bits8_length]; omega⟩
    have hexec := exec_of_effect he (.body (b := b) ha hh)
    rw [takeBody_raw hm hsplit hheld] at hexec
    obtain ⟨out', held', count, hrun, hsplit', hheld'⟩ := ih
      (s := countCommand { s with hb := held, obits := s.obits ++ out }) he ha hh hm (hheld ▸ Nat.min_le_left _ _)
    refine ⟨out ++ out', held', count, ?_, ?_, ?_⟩
    · rw [List.map_cons, execAll_cons hexec, hrun, ← List.append_assoc]
      rfl
    · rw [List.append_assoc, hsplit', List.flatMap_cons, ← List.append_assoc, ← List.append_assoc, ← hsplit]
      rfl
    · rw [hheld', List.length_cons]
      simp only [countCommand_hb, countCommand_upadn, hheld]
      omega

/-- `s` after a raw run was opened in it and its pad count `N` came in (R201, R202). -/
def openedRaw (N : Byte) (s : State) : State :=
  countCommand { countCommand (openedUnpacking 1#1 s) with upadn := N, uhdr := true }

theorem execAll_openRaw (he : s.err = 0#8) (hu : s.uact = false) (N : Byte) (rest : List Instr) :
    execAll (.ubegin 1#1 :: .ubyte N :: rest) s = execAll rest (openedRaw N s) :=
  (execAll_cons (exec_ubegin_opens he hu 1#1) _).trans
    (execAll_cons (exec_of_effect (s := countCommand (openedUnpacking 1#1 s)) he (.header rfl rfl)) rest)

/-- A raw run emits the bits of its body but for the last `N`, and with fewer than `N` it ends in `E_MALFORMED`
(R207 (a)). -/
theorem execAll_rawRun (he : s.err = 0#8) (hu : s.uact = false) (N : Byte) (body : List Byte) :
    ∃ t, execAll (.ubegin 1#1 :: .ubyte N :: body.map .ubyte ++ [.uend]) s = .next t ∧
      (N.toNat ≤ 8 * body.length → t.err = 0#8 ∧ t.uact = false ∧
        t.obits = s.obits ++ (body.flatMap bits8).take (8 * body.length - N.toNat)) ∧
      (8 * body.length < N.toNat → t.err = 0x0B#8) := by
  obtain ⟨out, held, count, hrun, hsplit, hheld⟩ :=
    execAll_rawBody (s := openedRaw N s) body he rfl rfl rfl (Nat.zero_le _)
  have hheld : held.length = min N.toNat (8 * body.length) := hheld.trans (by simp [openedRaw, openedUnpacking])
  have hsplit : out ++ held = body.flatMap bits8 := hsplit
  have hclose : ∀ {t}, exec .uend { openedRaw N s with
        hb := held, obits := (openedRaw N s).obits ++ out, cmdCnt := count } = .next t →
      execAll (.ubegin 1#1 :: .ubyte N :: body.map .ubyte ++ [.uend]) s = .next t := fun huend =>
    (execAll_openRaw he hu N _).trans ((execAll_append hrun _).trans (execAll_cons huend []))
  by_cases hfit : N.toNat ≤ 8 * body.length
  · have hlen := congrArg List.length hsplit
    rw [List.length_append, length_flatMap_bits8] at hlen
    have hout : (body.flatMap bits8).take (8 * body.length - N.toNat) = out := by
      rw [← hsplit]
      exact List.take_left' (by omega)
    exact ⟨_, hclose (exec_of_effect he (.uend rfl rfl (by rw [hheld, min_eq_left hfit]; rfl) nofun)),
      fun _ => ⟨he, rfl, by rw [hout]; rfl⟩, fun hlt => absurd hfit (not_le.mpr hlt)⟩
  · exact ⟨_, hclose (exec_uend_fault he (closeUnpacking_short rfl rfl
      (hheld.trans_lt (min_lt_iff.mpr (.inr (not_le.mp hfit)))))), fun hle => absurd hle hfit, fun _ => rfl⟩

/-- Settles O55: `execAll_rawRun`, the last `N` bits of a payload being its padding, and `UEND` of an empty run. -/
theorem rawRunRemovesThePadding : Obligations.RawRunRemovesThePadding := by
  unfold Obligations.RawRunRemovesThePadding
  refine fun s he hu => ⟨execAll_rawRun he hu, fun B payload hpayload => ?_, ?_⟩
  · obtain ⟨body, rfl, hbody⟩ := payload_split hpayload
    have hN : (BitVec.ofNat 8 (8 - B.length % 8)).toNat = 8 - B.length % 8 := Nat.mod_eq_of_lt (by omega)
    have hlen := congrArg List.length hbody
    rw [length_flatMap_bits8, List.length_append, zeroBits_length] at hlen
    obtain ⟨t, hrun, hfit, -⟩ := execAll_rawRun he hu (BitVec.ofNat 8 (8 - B.length % 8)) body
    obtain ⟨herr, -, hobits⟩ := hfit (by omega)
    rw [hbody, List.take_left' (by omega)] at hobits
    exact ⟨t, hrun, herr, hobits⟩
  · have huend := exec_uend_fault (s := countCommand (openedUnpacking 1#1 s)) he (closeUnpacking_empty rfl rfl)
    exact ⟨_, (execAll_cons (exec_ubegin_opens he hu 1#1) _).trans (execAll_cons huend []), rfl⟩

/-! ### A decode run over a packing run's payload (R207 (b)) -/

/-- Settles O56: the packing run emits the payload of the text's codes, and a decode run over that gives the text. -/
theorem decodeRunUndoesPackingRun : Obligations.DecodeRunUndoesPackingRun := by
  unfold Obligations.DecodeRunUndoesPackingRun
  intro s n text he hp hu hcoded hlengths hfree hn
  obtain ⟨t, hpack, hfit, -⟩ := execAll_packingRun n.isLt he (packBody_encs hcoded)
  have ht := hfit hn
  obtain ⟨payload, hout, hbits⟩ := ht.payload
  have hframe := ht.frame
  have herr : t.err = 0#8 := by rw [hframe, he]
  have hcode : codeOf t = codeOf s := funext (codeOf_congr (by rw [hframe]))
  obtain ⟨u, hdecode, hclean, hsyms⟩ := execAll_decodingRun herr (by rw [hframe, hu])
    (hcode ▸ ⟨hlengths, hfree⟩) (hcode ▸ hcoded) (hcode ▸ hbits)
  have hosyms : t.osyms = s.osyms := by rw [hframe]
  exact ⟨t, u, payload, (execAll_cons (exec_pbegi_opens he hp n) _).trans hpack, herr, hout, hdecode, hclean,
    hosyms ▸ hsyms⟩

end Sys2Proof.Machine
end

section
/-! The statements about the host's formats: `read` undoes `write` and fails on a blob cut short, and `deserialize` undoes
`serialize` (45_container_host.md R221 to R224). -/

namespace Sys2Proof.Machine

open Sys2Proof.Safety

/-- Below four bytes there is no prefix to read (R222). -/
theorem readBlob_shortPrefix {blob : List Byte} (h : blob.length < 4) :
    readBlob blob = .error .malformedContainer := by
  match blob, h with
  | [], _ => rfl
  | [_], _ => rfl
  | [_, _], _ => rfl
  | [_, _, _], _ => rfl

/-- Behind a prefix that declares more bytes than follow it, no table ends (R222). -/
theorem readBlob_shortTable {n : Nat} {rest : List Byte} (hn : n < 2 ^ 32) (h : rest.length < n) :
    readBlob (le32 n ++ rest) = .error .malformedContainer := by
  rw [le32]
  simp only [List.cons_append, List.nil_append, readBlob, le32_value hn, h, if_true]

/-- Settles O58: the prefix reads back as the table's length, and a blob ends within its prefix or within its table. -/
theorem readUndoesWrite : Obligations.ReadUndoesWrite := by
  unfold Obligations.ReadUndoesWrite
  exact ⟨fun _ payload => readBlob_writeBlob payload, fun _ => readBlob_shortPrefix, fun _ _ => readBlob_shortTable⟩

/-- Settles O59: the entries of a code table are at most 256, in rising order, each with a code of 1 to 255 bits. -/
theorem deserializeUndoesSerialize : Obligations.DeserializeUndoesSerialize := by
  unfold Obligations.DeserializeUndoesSerialize
  intro s hs
  exact deserializeTable_serializeTable fun x => hs.lengths x (mem_allSymbols x)

end Sys2Proof.Machine
end

section
/-! The statements of 46_system.md about `NOP` and `RD` (R241, R243). -/

namespace Sys2Proof.Machine

open Sys2Proof.Safety

/-- Settles O17: the effect of `NOP` outside the fault state, and the drop in it, are the same count. -/
theorem nopOnlyCounts : Obligations.NopOnlyCounts := by
  unfold Obligations.NopOnlyCounts
  refine ⟨rfl, rfl, rejectsReserved_reservedMask (op := 0x00#8) rfl, fun s => ?_⟩
  by_cases he : s.err = 0#8
  · exact exec_of_effect he .nop
  · exact (exec_nop s).trans (runCommand_dropped he)

/-- `ROOT` by the queue's count (R36, R54). -/
theorem rootWord_eq (s : State) :
    rootWord s = if s.qcnt = 1#9 then s.nnode.setWidth 32 - 1#32 else 0xFFFFFFFF#32 := by
  simp only [rootWord, rootValid_eq, decide_eq_true_eq]

/-- Settles O18: each number's row of the register map, and the fault or the drop of a number that has none. -/
theorem rdReturnsTheRegister : Obligations.RdReturnsTheRegister := by
  unfold Obligations.RdReturnsTheRegister
  refine ⟨assemble_setWidth (by decide) 0x02#8, rejectsReserved_reservedMask (op := 0x02#8) rfl, fun s => ?_⟩
  have hreads {r : Byte} {v : Word} (h : registerValue s r = some v) : Reads s r v := reads_of_registerValue h
  have hroot : registerValue s 0x0A#8 =
      some (if s.qcnt = 1#9 then s.nnode.setWidth 32 - 1#32 else 0xFFFFFFFF#32) := congrArg some (rootWord_eq s)
  exact ⟨hreads rfl, hreads rfl, hreads rfl, hreads rfl, hreads rfl, hreads rfl, hreads rfl, hreads rfl, hreads rfl,
    hreads rfl, hreads hroot, hreads rfl, hreads rfl, hreads rfl, hreads rfl, hreads rfl, hreads rfl, hreads rfl,
    fun r hr => ⟨fun he => (exec_rd r s).trans (runAlways_error he (readRegister_error hr)),
      fun he => (exec_rd r s).trans (runAlways_dropped he (readRegister_error hr))⟩⟩

end Sys2Proof.Machine
end

section
/-! The statements of 60_exceptions.md: what a fault leaves, and what the fault state executes (R255 to R258). -/

namespace Sys2Proof.Machine

open Sys2Proof.Safety

variable {s : State} {cw : Word} {rest : List Word}

/-- The one spelling of an `RD` word (R101, R104). -/
theorem encode_rd (r : Byte) : encode (.rd r) = 0x02000000#32 ||| r.setWidth 32 :=
  assemble_setWidth (by decide) 0x02#8 r

/-- An accepted word is the spelling of its command, so a command's fault entry records the word itself (R256). -/
theorem encode_of_decodeWord {i : Instr} (h : decodeWord cw = .ok i) : encode i = cw := by
  obtain ⟨-, hcw⟩ := encodeInvertsDecode cw i h
  exact hcw

/-- Outside the fault state a step takes no fault, or takes one and has no other effect (R255, R256). -/
theorem step_of_err_zero (hs : s.err = 0#8) (hp : s.pending = cw :: rest) : ∃ t, step s = .next t ∧
    (t.err = 0#8 ∨ ∃ e, t = afterFault (faultNumber e) cw { s with pending := rest }) := by
  cases hd : decodeWord cw with
  | error e => exact ⟨_, step_takes_fault hd hs hp, .inr ⟨e, rfl⟩⟩
  | ok i =>
    obtain ⟨t, ht⟩ := exec_next i { s with pending := rest }
    refine ⟨t, (step_of_decoded hp hd).trans ht, ?_⟩
    by_cases hterr : t.err = 0#8
    · exact .inl hterr
    · rw [← encode_of_decodeWord hd]
      exact .inr (afterFault_of_exec ht hs hterr)

/-- In the fault state a word the decoder rejects is dropped (R105, R257). -/
theorem step_drops_rejected {e : FaultCode} (hd : decodeWord cw = .error e) (hs : s.err ≠ 0#8)
    (hp : s.pending = cw :: rest) : step s = .next (countCommand { s with pending := rest }) :=
  (step_of_rejected hp hd).trans (rejectWord_of_err_ne (s := { s with pending := rest }) hs e cw)

/-- In the fault state a command other than `RST` and a legal `RD` is dropped (R257). -/
theorem exec_dropped {i : Instr} (hs : s.err ≠ 0#8) (hrst : i ≠ .rst) (hrd : ∀ r : Byte, r.toNat ≤ 0x11 → i ≠ .rd r) :
    exec i s = .next (countCommand s) := by
  rcases exec_shape i with rfl | ⟨r, rfl⟩ | ⟨rule, hrule⟩
  · exact absurd rfl hrst
  · have hr : 0x11 < r.toNat := not_le.mp fun hr => hrd r hr rfl
    exact runAlways_dropped hs (readRegister_error hr)
  · exact (hrule s).trans (runCommand_dropped hs)

/-- Settles O8: the words of `RST` and of a legal `RD` have one spelling each, and every other word is rejected by the
decoder or is a command the fault state drops. -/
theorem faultStateDropsCommands : Obligations.FaultStateDropsCommands := by
  unfold Obligations.FaultStateDropsCommands
  refine fun s cw rest hs hp => ⟨fun hcw => ?_, fun r hcw hr => ?_, fun hrst hrd => ?_⟩
  · exact step_of_decoded hp (decodeWord_rst_iff.mpr hcw)
  · obtain ⟨v, hv⟩ := Option.isSome_iff_exists.mp ((registerValue_isSome s r).mpr hr)
    have hd : decodeWord cw = .ok (.rd r) := by
      rw [hcw, ← encode_rd]
      exact decodeInvertsEncode (.rd r) rfl
    exact ⟨v, hv, (step_of_decoded hp hd).trans (reads_of_registerValue (s := { s with pending := rest }) hv)⟩
  · cases hd : decodeWord cw with
    | error e => exact step_drops_rejected hd hs hp
    | ok i =>
      refine (step_of_decoded hp hd).trans (exec_dropped (s := { s with pending := rest }) hs ?_ ?_)
      · rintro rfl
        exact hrst (decodeWord_rst_iff.mp hd)
      · rintro r hr rfl
        exact hrd r hr ((encode_of_decodeWord hd).symm.trans (encode_rd r))

/-- In the fault state the reset clears the fault record, and no other word changes it (R257, R258). -/
theorem step_of_err_ne_zero (hs : s.err ≠ 0#8) (hp : s.pending = cw :: rest) : ∃ t, step s = .next t ∧
    ((t.err = s.err ∧ t.errCmd = s.errCmd ∧ t.errIdx = s.errIdx) ∨
      (cw = 0x01000000#32 ∧ t = { State.reset with pending := rest })) := by
  obtain ⟨hreset, hread, hdrop⟩ := faultStateDropsCommands s cw rest hs hp
  by_cases hrst : cw = 0x01000000#32
  · exact ⟨_, hreset hrst, .inr ⟨hrst, rfl⟩⟩
  · by_cases hrd : ∃ r : Byte, r.toNat ≤ 0x11 ∧ cw = 0x02000000#32 ||| r.setWidth 32
    · obtain ⟨r, hr, hcw⟩ := hrd
      obtain ⟨v, -, hstep⟩ := hread r hcw hr
      exact ⟨_, hstep, .inl ⟨rfl, rfl, rfl⟩⟩
    · exact ⟨_, hdrop hrst fun r hr hcw => hrd ⟨r, hr, hcw⟩, .inl ⟨rfl, rfl, rfl⟩⟩

/-- Settles O7: outside the fault state by the decoder's answer, in it by the three kinds of word (O8). -/
theorem faultsArePreciseAndSticky : Obligations.FaultsArePreciseAndSticky := by
  unfold Obligations.FaultsArePreciseAndSticky
  refine fun s cw rest hp => ⟨fun hs => ?_, fun hs => step_of_err_ne_zero hs hp⟩
  obtain ⟨t, ht, hzero | ⟨e, rfl⟩⟩ := step_of_err_zero hs hp
  · exact ⟨t, ht, .inl hzero⟩
  · obtain ⟨hlow, hhigh⟩ := faultNumber_range e
    exact ⟨_, ht, .inr ⟨faultNumber e, hlow, hhigh, rfl⟩⟩

end Sys2Proof.Machine
end
